-- ==== Sys2Proof/Word.lean ====
section
/-! DEFINITION. The words of the BPFC: the widths the spec gives its registers, buffers and port (00_scope.md section 5,
10_state.md R20, 20_memory.md R60). -/

namespace Sys2Proof

/-- One byte of a buffer, of the configuration or of a frame (`u8`). -/
abbrev Byte := BitVec 8

/-- A 32-bit register or command word (`u32`). -/
abbrev Word := BitVec 32

/-- An address of the host port: 12 bits, one byte each (20_memory.md R60). -/
abbrev Addr := BitVec 12

/-- A bit cursor, `WCUR` or `RCUR` (10_state.md R25, R26). -/
abbrev Cursor := BitVec 12

/-- A frame length, `TXLEN` or `RXLEN` (10_state.md R27, R28). -/
abbrev FrameLen := BitVec 9

end Sys2Proof
end

