-- ==== Sys2Proof/Syntax.lean ====
section
/-! DEFINITION. The commands of the BPFC, one constructor per row of spec/opcode_table.json (30_encoding.md R90, R91). -/

namespace Sys2Proof

/-- RDB's source, the `SRC` bit (30_encoding.md R95). -/
inductive ReadSource where
  /-- `SRC` = 0: the pack buffer `PB`. -/
  | packBuffer
  /-- `SRC` = 1: the payload of the last successfully decoded frame. -/
  | rxPayload
  deriving DecidableEq, Repr

/-- SCFG's board pair index i, the `PAIR` bit (30_encoding.md R96). -/
inductive BoardPair where
  /-- i = 0: ports 0 and 1, destination `BOARD_ADDR[0]`. -/
  | zero
  /-- i = 1: ports 2 and 3, destination `BOARD_ADDR[1]`. -/
  | one
  deriving DecidableEq, Repr

/-- The nine commands of command set version 1 (30_encoding.md R91). -/
inductive Instr where
  /-- NOP: no operation (40_bitpacker.md R120). -/
  | nop
  /-- RSTW: reset the write cursor (40_bitpacker.md R121). -/
  | rstw
  /-- ADDB n: append the low n bits of `DATA_IN` (40_bitpacker.md R122). -/
  | addb (n : Nat)
  /-- RSTR: reset the read cursor (40_bitpacker.md R123). -/
  | rstr
  /-- RDB n, src: read n bits into `DATA_OUT` (40_bitpacker.md R124). -/
  | rdb (n : Nat) (src : ReadSource)
  /-- FENC dest: encode a frame (41_framecodec.md R150). -/
  | fenc (dest : Byte)
  /-- FDEC: decode and validate a frame (41_framecodec.md R160). -/
  | fdec
  /-- SCFG i: serialize and frame one board pair's configuration (42_sensorconfig.md R180). -/
  | scfg (pair : BoardPair)
  /-- CLRS: clear the recorded error (43_control.md R220). -/
  | clrs
  deriving DecidableEq, Repr

end Sys2Proof
end

