-- ==== Sys2Proof/WellFormed.lean ====
section
/-! DEFINITION. Which commands have an encoding: the field width `N` is a 6-bit field, 0..63 as encoded
(30_encoding.md R90, R94). Every other operand's type holds exactly its field's values. -/

namespace Sys2Proof

/-- A width that the 6-bit field `N` can hold. Widths outside 1..32 are encodable: ADDB and RDB raise
INVALID_FIELD_WIDTH for them when they execute (30_encoding.md R94). -/
abbrev widthEncodable (n : Nat) : Bool := decide (n < 64)

/-- A command that has a command word. -/
def Instr.wellFormed : Instr → Bool
  | .nop => true
  | .rstw => true
  | .addb n => widthEncodable n
  | .rstr => true
  | .rdb n _ => widthEncodable n
  | .fenc _ => true
  | .fdec => true
  | .scfg _ => true
  | .clrs => true

end Sys2Proof
end

