-- ==== Sys2Proof/Decode.lean ====
section
/-! DEFINITION. The command word: its fields, the decoder, and after it the encoder (30_encoding.md sections 1 to 5).
Every command is exactly one 32-bit word, with no other form and no mode that changes decoding (R99); a word has no
byte order, since `CMD` is written whole (20_memory.md R68). -/

namespace Sys2Proof

/-! ### Fields (30_encoding.md R90) -/

/-- `OP` = w[3:0]. -/
def opField (w : Word) : BitVec 4 := w.extractLsb' 0 4
/-- `N` = w[9:4]. -/
def nField (w : Word) : BitVec 6 := w.extractLsb' 4 6
/-- `SRC` = w[10]. -/
def srcField (w : Word) : BitVec 1 := w.extractLsb' 10 1
/-- `PAIR` = w[11]. -/
def pairField (w : Word) : BitVec 1 := w.extractLsb' 11 1
/-- `DEST` = w[19:12]. -/
def destField (w : Word) : BitVec 8 := w.extractLsb' 12 8
/-- The reserved bits w[31:20]. -/
def reservedField (w : Word) : BitVec 12 := w.extractLsb' 20 12

/-- `SRC` as RDB's source (30_encoding.md R95). -/
def ReadSource.ofBit (b : BitVec 1) : ReadSource := if b = 0 then .packBuffer else .rxPayload
/-- `PAIR` as SCFG's board pair (30_encoding.md R96). -/
def BoardPair.ofBit (b : BitVec 1) : BoardPair := if b = 0 then .zero else .one

/-! ### The decoder -/

/-- Why a word is illegal (30_encoding.md R93, R104). All three raise ILLEGAL_COMMAND. -/
inductive Illegal where
  /-- `OP` is 0x9 to 0xF. -/
  | reservedOpcode
  /-- A reserved bit w[31:20] is 1. -/
  | reservedBits
  /-- A field the opcode does not use is nonzero. -/
  | unusedField
  deriving DecidableEq, Repr

/-- What the decoder answers: the command, or why the word is none. -/
inductive Decoded where
  | instr (i : Instr)
  | illegal (why : Illegal)
  deriving DecidableEq, Repr

/-- The command that the opcode and the fields name (30_encoding.md R91); none for `OP` 0x9 to 0xF. -/
def commandOf (w : Word) : Option Instr :=
  match (opField w).toNat with
  | 0 => some .nop
  | 1 => some .rstw
  | 2 => some (.addb (nField w).toNat)
  | 3 => some .rstr
  | 4 => some (.rdb (nField w).toNat (ReadSource.ofBit (srcField w)))
  | 5 => some (.fenc (destField w))
  | 6 => some .fdec
  | 7 => some (.scfg (BoardPair.ofBit (pairField w)))
  | 8 => some .clrs
  | _ => none

/-- Whether every field the command does not use is 0 (30_encoding.md R93): `N` is used by ADDB and RDB only, `SRC` by
RDB only, `PAIR` by SCFG only, `DEST` by FENC only. -/
def unusedFieldsZero (i : Instr) (w : Word) : Bool :=
  let n := nField w == 0
  let src := srcField w == 0
  let pair := pairField w == 0
  let dest := destField w == 0
  match i with
  | .addb _ => src && pair && dest
  | .rdb _ _ => pair && dest
  | .fenc _ => n && src && pair
  | .scfg _ => n && src && dest
  | .nop | .rstw | .rstr | .fdec | .clrs => n && src && pair && dest

/-- The decoder: total on every 32-bit word (30_encoding.md R91, R93, R104). -/
def decode (w : Word) : Decoded :=
  match commandOf w with
  | none => .illegal .reservedOpcode
  | some i =>
    if reservedField w ≠ 0 then .illegal .reservedBits
    else if unusedFieldsZero i w then .instr i
    else .illegal .unusedField

/-- The host's question: the command whose bits are `w`, numbered as spec/opcode_table.json numbers them, of which
`nbits` are given and the rest are 0. -/
def decodeTableWord (nbits w : Nat) : Option Instr :=
  match decode (BitVec.ofNat 32 (w % 2 ^ nbits)) with
  | .instr i => some i
  | .illegal _ => none

/-- The match and mask of each row of spec/opcode_table.json, in the table's order (30_encoding.md R93). -/
def opcodeTable : List (Word × Word) :=
  [ (0x00000000, 0xFFFFFFFF)    -- NOP
  , (0x00000001, 0xFFFFFFFF)    -- RSTW
  , (0x00000002, 0xFFFFFC0F)    -- ADDB
  , (0x00000003, 0xFFFFFFFF)    -- RSTR
  , (0x00000004, 0xFFFFF80F)    -- RDB
  , (0x00000005, 0xFFF00FFF)    -- FENC
  , (0x00000006, 0xFFFFFFFF)    -- FDEC
  , (0x00000007, 0xFFFFF7FF)    -- SCFG
  , (0x00000008, 0xFFFFFFFF) ]  -- CLRS

/-! ### The encoder (30_encoding.md R90, R105) -/

/-- `SRC` for a source. -/
def ReadSource.bit : ReadSource → BitVec 1
  | .packBuffer => 0
  | .rxPayload => 1

/-- `PAIR` for a board pair. -/
def BoardPair.bit : BoardPair → BitVec 1
  | .zero => 0
  | .one => 1

/-- A command word from its fields, highest first, with the reserved bits 0 (30_encoding.md R90). -/
def wordOf (dest : BitVec 8) (pair src : BitVec 1) (n : BitVec 6) (op : BitVec 4) : Word :=
  (0#12 ++ dest ++ pair ++ src ++ n ++ op : BitVec (12 + 8 + 1 + 1 + 6 + 4))

/-- The command word of a well-formed command. -/
def encode : Instr → Word
  | .nop => wordOf 0 0 0 0 0x0
  | .rstw => wordOf 0 0 0 0 0x1
  | .addb n => wordOf 0 0 0 (BitVec.ofNat 6 n) 0x2
  | .rstr => wordOf 0 0 0 0 0x3
  | .rdb n src => wordOf 0 0 src.bit (BitVec.ofNat 6 n) 0x4
  | .fenc dest => wordOf dest 0 0 0 0x5
  | .fdec => wordOf 0 0 0 0 0x6
  | .scfg pair => wordOf 0 pair.bit 0 0 0x7
  | .clrs => wordOf 0 0 0 0 0x8

end Sys2Proof
end

