-- ==== Sys2Proof/Config.lean ====
section
/-! DEFINITION. What is fixed when a model is built: the constants of 00_scope.md R7 and the parameters of R8 and R10. -/

namespace Sys2Proof.Config

/-! ### The constants the source fixes (00_scope.md R7) -/

/-- `PB_BYTES`: the pack buffer's capacity in bytes. -/
abbrev pbBytes : Nat := 256
/-- `PB_BITS` = 8 × `PB_BYTES`. -/
abbrev pbBits : Nat := 2048
/-- `MIN_WIDTH`: the smallest legal field width of ADDB and RDB. -/
abbrev minWidth : Nat := 1
/-- `MAX_WIDTH`: the largest legal field width of ADDB and RDB. -/
abbrev maxWidth : Nat := 32
/-- `MAX_DEVICES`: I2C device table entries per port. -/
abbrev maxDevices : Nat := 8
/-- `MAX_IO_BYTES`: upper bound of a write or read count, and the `OUT` bytes per device. -/
abbrev maxIoBytes : Nat := 16
/-- `PORTS`: sensor ports 0..3. -/
abbrev ports : Nat := 4
/-- `MSG_SENSOR_TYPE`: the message type SCFG writes. -/
abbrev msgSensorType : Byte := 2
/-- `TYPE_US_CONT`: the ultrasonic-continuous sensor type. -/
abbrev typeUsCont : Byte := 33
/-- `BOARD_ADDR_RESET`: the factory default pair {1, 2}. -/
abbrev boardAddrReset : Byte × Byte := (1, 2)

/-! ### Message-type opcodes the source lists (30_encoding.md R101); the block gives a meaning to SensorType only -/

/-- The message types of 30_encoding.md R101. The firmware-version query has no value in the source
(92_eei_decisions.md D40) and no rule uses it, so it has no constructor. -/
inductive MessageType where
  | changeAddress | sensorType | values | emergencyStop | timeoutSettings
  deriving DecidableEq, Repr

/-- Payload byte 0 of a frame of this message type (30_encoding.md R101). -/
def MessageType.byte : MessageType → Byte
  | .changeAddress => 1
  | .sensorType => msgSensorType
  | .values => 3
  | .emergencyStop => 4
  | .timeoutSettings => 5

/-! ### The parameters -/

/-- DESIGN CHOICE (log 1, safe). The functions `CHECKSUM` may be besides the default: nothing is known of
`otherChecksum k` for any `k`, so a statement about it holds of every function from byte lists to bytes. -/
opaque otherChecksum : Nat → List Byte → Byte

/-- The choice of `CHECKSUM` (00_scope.md R8, R9): the default `sum8`, or any other function. -/
inductive ChecksumFn where
  /-- `sum8`: the sum of the bytes mod 256, the default of R8. -/
  | sum8
  /-- Some other function, of which nothing is known. -/
  | other (k : Nat)
  deriving DecidableEq, Repr

/-- The parameters the source leaves open (00_scope.md R8 and R10). -/
structure Params where
  /-- `CHECKSUM`. -/
  checksum : ChecksumFn
  /-- `FRAME_OVERHEAD`: added to the payload length to give the byte-count field. -/
  frameOverhead : Nat
  /-- `TYPE_I2C`: the sensor type the ultrasonic substitution writes. -/
  typeI2c : Byte
  /-- `I2C_FAMILY`: the sensor types that carry an I2C descriptor. -/
  i2cFamily : List Byte
  /-- `US_I2C_ADDR`: the ultrasonic sensor's I2C address in 8-bit form. -/
  usI2cAddr : Byte
  /-- `US_DATA_REG`: the ultrasonic sensor's data register. -/
  usDataReg : Byte
  /-- `MID_BIT`: the bit of the settings field for "mid-pulse". -/
  midBit : Nat
  /-- `SAME_BIT`: the bit of the settings field for "same-transfer". -/
  sameBit : Nat
  /-- `W_SPEED`: width of the I2C bus speed. -/
  wSpeed : Nat
  /-- `W_CNT`: width of the device count minus one. -/
  wCnt : Nat
  /-- `W_ADDR`: width of the device address after the right shift. -/
  wAddr : Nat
  /-- `W_SET`: width of the settings. -/
  wSet : Nat
  /-- `W_WC`: width of the write count. -/
  wWc : Nat
  /-- `W_RC`: width of the read count. -/
  wRc : Nat
  /-- `W_OUT`: width of one output byte. -/
  wOut : Nat
  deriving DecidableEq, Repr

/-- The constraints of 00_scope.md R8 and R10 (the one on `CHECKSUM`, R9, is `Safety.ChecksumDetects`: it is a
premise of the statements that need it). -/
structure Params.Valid (p : Params) : Prop where
  overhead : p.frameOverhead = 2 ∨ p.frameOverhead = 3
  i2cInFamily : p.typeI2c ∈ p.i2cFamily
  midBit : p.midBit < p.wSet
  sameBit : p.sameBit < p.wSet
  bitsDiffer : p.midBit ≠ p.sameBit
  wSpeed : 1 ≤ p.wSpeed ∧ p.wSpeed ≤ 32
  wCnt : 3 ≤ p.wCnt ∧ p.wCnt ≤ 32
  wAddr : 1 ≤ p.wAddr ∧ p.wAddr ≤ 32
  wSet : 2 ≤ p.wSet ∧ p.wSet ≤ 32
  wWc : 1 ≤ p.wWc ∧ p.wWc ≤ 32
  wRc : 1 ≤ p.wRc ∧ p.wRc ≤ 32
  wOut : 1 ≤ p.wOut ∧ p.wOut ≤ 32

/-- The defaults that 00_scope.md R8 and R10 state. -/
def Params.defaults : Params :=
  { checksum := .sum8
    frameOverhead := 2
    typeI2c := 41
    i2cFamily := [41, 42]
    usI2cAddr := 0x02
    usDataReg := 0x42
    midBit := 0
    sameBit := 1
    wSpeed := 8
    wCnt := 3
    wAddr := 7
    wSet := 2
    wWc := 4
    wRc := 4
    wOut := 8 }

end Sys2Proof.Config
end

