-- ==== Sys2Proof/Machine/State.lean ====
section
/-! DEFINITION. The state of the BPFC (10_state.md), the events of the host port, the two ways a step can stop, and the
state after reset (70_reset_and_hazards.md R270). -/

namespace Sys2Proof.Machine

open Sys2Proof.Config

/-- What the host can do to the block between commands: the four accesses of 20_memory.md R60 and the reset input of
70_reset_and_hazards.md R270. -/
inductive HostEvent where
  /-- `MemRead(a, 1)`. -/
  | load8 (a : Addr)
  /-- `MemWrite(a, 1, v)`. -/
  | store8 (a : Addr) (v : Byte)
  /-- `MemRead(a, 4)`. -/
  | load32 (a : Addr)
  /-- `MemWrite(a, 4, v)`. -/
  | store32 (a : Addr) (v : Word)
  /-- The reset input. -/
  | resetInput
  deriving DecidableEq, Repr

/-- What the last host access handed back to the host. -/
inductive Reply where
  | nothing
  | byte (v : Byte)
  | word (v : Word)
  deriving DecidableEq, Repr

/-- The block's architectural state, exactly the list of 10_state.md R20, then three fields of the MODEL's own. -/
structure State where
  /-- `CMD` (R35). -/
  cmd : Word
  /-- `DATA_IN` (R21). -/
  dataIn : Word
  /-- `DATA_OUT` (R22). -/
  dataOut : Word
  /-- `PB`, `TXF`, `RXB` and the configuration file, by host-port address (R24, R27, R28, R40; 20_memory.md R61, R62):
  addresses strictly rising, no byte equal to what an unlisted address reads as (`Memory.wf`). -/
  mem : List Host.Cell
  /-- `WCUR` (R25). -/
  wcur : Cursor
  /-- `RCUR` (R26). -/
  rcur : Cursor
  /-- `TXLEN` (R27). -/
  txlen : FrameLen
  /-- `RXLEN` (R28). -/
  rxlen : FrameLen
  /-- `RX_DEST` (R29). -/
  rxDest : Byte
  /-- `RX_COUNT` (R29). -/
  rxCount : Byte
  /-- `RX_TYPE` (R29). -/
  rxType : Byte
  /-- `RX_PLEN` (R29). -/
  rxPlen : Byte
  /-- `STATUS.ERR` (R30, R31). -/
  err : BitVec 4
  /-- `STATUS.LENBAD` (R30, R32). -/
  lenbad : Bool
  /-- `STATUS.RXVALID` (R30, R33). -/
  rxvalid : Bool
  /-- `STATUS.TXVALID` (R30, R34). -/
  txvalid : Bool
  /-- `BOARD_ADDR[0]` (R36). -/
  boardAddr0 : Byte
  /-- `BOARD_ADDR[1]` (R36). -/
  boardAddr1 : Byte
  /-- MODEL's own (DESIGN CHOICE, log 1): the build-time parameters of 00_scope.md R8 and R10, which no step changes. -/
  params : Params
  /-- MODEL's own (DESIGN CHOICE, log 2): the host events not yet performed, the next one first. -/
  host : List HostEvent
  /-- MODEL's own (DESIGN CHOICE, log 3): what the last host access handed back. -/
  reply : Reply
  deriving DecidableEq, Repr

/-- How the machine stops. -/
inductive Fault where
  /-- BusError (20_memory.md R64, 60_exceptions.md R241): raised by a host access at `addr` that is unmapped, of the
  wrong width for its window, or misaligned. It is the host's fault, never cleared, and the run has no end state
  (70_reset_and_hazards.md R282). Safe: the spec itself stops the run here. -/
  | busError (addr : Addr)
  deriving DecidableEq, Repr

/-- The duties the block relies on the host for (60_exceptions.md R245, the column "host must"). The duty of its row
"recover", CLRS before any other command takes effect, is kept by the block itself: the error gate (R232). -/
inductive HostDuty where
  /-- Row "build": one build at a time (70_reset_and_hazards.md R275). -/
  | oneBuild
  /-- Row "encode": `TXF` is sent only while `TXVALID` = 1. -/
  | sendValidFrame
  /-- Row "exchange": each send is paired with one receive (70_reset_and_hazards.md R276). -/
  | pairSendReceive
  /-- Row "exchange": no encode before the exchange ends (70_reset_and_hazards.md R276). -/
  | holdFrame
  /-- Row "decode": every received byte and `RXLEN` are written before FDEC (70_reset_and_hazards.md R277). -/
  | receiveBeforeDecode
  /-- Row "unpack": `STATUS` is read after each command the host depends on (70_reset_and_hazards.md R278). -/
  | checkOutcome
  /-- Row "configure": every byte SCFG reads is written before it (70_reset_and_hazards.md R273). -/
  | writeConfiguration
  deriving DecidableEq, Repr

/-- How a step refuses. No meaning refuses: every command of the table is modelled. -/
inductive Refusal where
  /-- An instruction with no meaning in the model, by its mnemonic. Raised by no arm. Safe. -/
  | notModelled (mnemonic : String)
  /-- A move that breaks this duty, which the host is not given (60_exceptions.md R245, 93_implementation_defined.md U11,
  "`refuse`: the model gives the host no such move"). Raised by `sessionStep` only: `step` and the commands never refuse.
  Safe: the block's own behaviour in such a case is `step`'s. -/
  | hostDuty (duty : HostDuty)
  deriving DecidableEq, Repr

/-- The block right after reset (70_reset_and_hazards.md R270), with the default parameters of 00_scope.md R8 and R10,
no host event and no reply. -/
def State.reset : State :=
  { cmd := 0
    dataIn := 0
    dataOut := 0
    mem := []
    wcur := 0
    rcur := 0
    txlen := 0
    rxlen := 0
    rxDest := 0
    rxCount := 0
    rxType := 0
    rxPlen := 0
    err := 0
    lenbad := false
    rxvalid := false
    txvalid := false
    boardAddr0 := boardAddrReset.1
    boardAddr1 := boardAddrReset.2
    params := Params.defaults
    host := []
    reply := .nothing }

end Sys2Proof.Machine
end

