-- ==== Sys2Proof/Machine/Ops.lean ====
section
/-! DEFINITION. The shared operations: the byte memory behind the host port, the windows of the port, bits and fields of
a buffer, raising an error and clearing it, and appending fields to the pack buffer. -/

namespace Sys2Proof.Machine

open Sys2Proof.Config

/-! ### The byte memory: one list of cells in one canonical form -/

/-- What a byte that nothing has written reads as: 0, the reset value of every buffer and configuration byte
(70_reset_and_hazards.md R270). -/
def unlistedByte : Byte := 0

/-- The byte at address `a`. -/
def Memory.read : List Host.Cell → Nat → Byte
  | [], _ => unlistedByte
  | (b, v) :: m, a => if a = b then v else Memory.read m a

/-- `m` with byte `a` set to `v`, in canonical form: writing what an unlisted address reads as removes the cell. -/
def Memory.write : List Host.Cell → Nat → Byte → List Host.Cell
  | [], a, v => if v = unlistedByte then [] else [(a, v)]
  | (b, w) :: m, a, v =>
    if a < b then (if v = unlistedByte then (b, w) :: m else (a, v) :: (b, w) :: m)
    else if a = b then (if v = unlistedByte then m else (b, v) :: m)
    else (b, w) :: Memory.write m a v

/-- Every cell lies at an address above `a`, in strictly rising order, and none holds what an unlisted address reads
as. -/
def Memory.risesAbove : Nat → List Host.Cell → Bool
  | _, [] => true
  | a, (b, v) :: m => decide (a < b) && decide (v ≠ unlistedByte) && Memory.risesAbove b m

/-- The canonical form: addresses strictly rising, no cell equal to what an unlisted address reads as. -/
def Memory.wf : List Host.Cell → Bool
  | [] => true
  | (b, v) :: m => decide (v ≠ unlistedByte) && Memory.risesAbove b m

/-- `m` with the bytes of the list at `a`, `a + 1`, … -/
def Memory.writeBytes : List Host.Cell → Nat → List Byte → List Host.Cell
  | m, _, [] => m
  | m, a, v :: vs => Memory.writeBytes (Memory.write m a v) (a + 1) vs

/-! ### The windows of the host port (20_memory.md R61, R62) -/

/-- `PB[0]`. -/
abbrev pbBase : Nat := 0x000
/-- `TXF[0]`. -/
abbrev txfBase : Nat := 0x200
/-- `RXB[0]`. -/
abbrev rxbBase : Nat := 0x400
/-- `CFG.TYPE[0]`. -/
abbrev cfgBase : Nat := 0x800

/-- The windows of 20_memory.md R61. -/
inductive Window where
  | packBuffer | transmitFrame | receiveFrame | registers | configuration | unmapped
  deriving DecidableEq, Repr

/-- Whether the byte at this offset of a port's configuration block is an element (20_memory.md R62). -/
def configMapped (off : Nat) : Bool :=
  decide (off ≤ 0x02) || (decide (0x10 ≤ off) && decide (off < 0xD0) && decide ((off - 0x10) % 0x18 < 0x14))

/-- The window an address lies in (20_memory.md R61). -/
def windowOf (a : Nat) : Window :=
  if a < 0x100 then .packBuffer
  else if a < 0x200 then .unmapped
  else if a < 0x300 then .transmitFrame
  else if a < 0x400 then .unmapped
  else if a < 0x500 then .receiveFrame
  else if a < 0x700 then .unmapped
  else if a < 0x738 then .registers
  else if a < 0x800 then .unmapped
  else if a < 0xC00 then (if configMapped ((a - 0x800) % 0x100) then .configuration else .unmapped)
  else .unmapped

/-- Whether the address is a byte that 8-bit accesses reach (20_memory.md R61, R64). -/
def byteMapped (a : Nat) : Bool :=
  match windowOf a with
  | .packBuffer | .transmitFrame | .receiveFrame | .configuration => true
  | .registers | .unmapped => false

/-! ### Bits and fields of a buffer (20_memory.md R65, R66) -/

/-- `ceil8(w)`: the number of bytes that `w` bits occupy (00_scope.md section 5). -/
def ceil8 (w : Nat) : Nat := (w + 7) / 8

/-- The address of the byte that holds buffer bit position `p` of the buffer at `base` (20_memory.md R65). -/
def bitAddr (base p : Nat) : Nat := base + p / 8

/-- `bit(BUF, p)` (20_memory.md R65). -/
def bufBit (m : List Host.Cell) (base p : Nat) : Bool := (Memory.read m (bitAddr base p)).getLsbD (p % 8)

/-- The byte with bit `j` set to `b`. -/
def setByteBit (x : Byte) (j : Nat) (b : Bool) : Byte :=
  if b then x ||| BitVec.twoPow 8 j else x &&& ~~~(BitVec.twoPow 8 j)

/-- `bit(BUF, p) <- b`. -/
def setBufBit (m : List Host.Cell) (base p : Nat) (b : Bool) : List Host.Cell :=
  Memory.write m (bitAddr base p) (setByteBit (Memory.read m (bitAddr base p)) (p % 8) b)

/-- Places the low `n` bits of `v` at buffer bit positions `c` to `c + n − 1`, bit j at `c + j`, zeros included
(20_memory.md R66, 40_bitpacker.md R122). -/
def writeField (m : List Host.Cell) (base c : Nat) (v : Word) : Nat → List Host.Cell
  | 0 => m
  | n + 1 => setBufBit (writeField m base c v n) base (c + n) (v.getLsbD n)

/-- The `n` bits of a bit source at positions `c` to `c + n − 1`, bit j from `c + j`, zero-extended
(40_bitpacker.md R124). -/
def readField (bit : Nat → Bool) (c : Nat) : Nat → Word
  | 0 => 0
  | n + 1 => if bit (c + n) then readField bit c n ||| BitVec.twoPow 32 n else readField bit c n

/-! ### Errors: raising one, and clearing it (60_exceptions.md) -/

/-- The errors a command can raise, each with the values that made it (60_exceptions.md R230, R231). The values are
not stored anywhere. -/
inductive BlockError where
  /-- N outside 1..32 (ADDB, RDB). -/
  | invalidFieldWidth (n : Nat)
  /-- The field does not fit at the cursor (ADDB, RDB, SCFG). -/
  | bufferOverflow (cursor n : Nat)
  /-- FDEC of a raw frame of this length. -/
  | checksumError (len : Nat)
  /-- A same-transfer device's WC or RC cannot be encoded (SCFG). -/
  | configError (port device : Nat)
  /-- `WCUR` < 8 (FENC). -/
  | emptyPayload (wcur : Nat)
  /-- The byte count is above 255 (FENC, SCFG). -/
  | frameTooLong (count : Nat)
  /-- A word that is no command (30_encoding.md R93). -/
  | illegalCommand (w : Word)
  deriving DecidableEq, Repr

/-- The error's code in `STATUS.ERR` (60_exceptions.md R230). -/
def BlockError.code : BlockError → BitVec 4
  | .invalidFieldWidth _ => 1
  | .bufferOverflow _ _ => 2
  | .checksumError _ => 3
  | .configError _ _ => 4
  | .emptyPayload _ => 5
  | .frameTooLong _ => 6
  | .illegalCommand _ => 7

/-- `raise E(info)`: the code goes to `STATUS.ERR`; nothing else is saved and nothing is vectored
(60_exceptions.md R231, R235). The raising command makes its own updates of `LENBAD`, `RXVALID` and `TXVALID`. -/
def raise (e : BlockError) (s : State) : State := { s with err := e.code }

/-- The return from an error: `ERR` and `LENBAD` are cleared, and nothing else is restored (43_control.md R220,
60_exceptions.md R237). -/
def clearError (s : State) : State := { s with err := 0, lenbad := false }

/-! ### Appending fields at the write cursor -/

/-- A build that is still going, or the error that ended it with the state it left. -/
inductive PackResult where
  | ok (s : State)
  | failed (e : BlockError) (s : State)
  deriving DecidableEq, Repr

/-- `APPEND(n, v)`, ADDB's body without its width check (40_bitpacker.md R122, 42_sensorconfig.md R180): the low `n` bits of
`v` go to `PB` at `WCUR`, which moves past them, or BUFFER_OVERFLOW and nothing changes. -/
def appendField (n : Nat) (v : Word) (s : State) : PackResult :=
  let c := s.wcur.toNat
  if c + n > pbBits then .failed (.bufferOverflow c n) s
  else .ok { s with mem := writeField s.mem pbBase c v n, wcur := BitVec.ofNat 12 (c + n) }

/-- One step of a build: append a field, or check a condition and raise the error if it fails. -/
inductive PackItem where
  | field (width : Nat) (value : Word)
  | require (ok : Bool) (otherwise : BlockError)
  deriving DecidableEq, Repr

/-- One step of a build, performed. -/
def packItem : PackItem → State → PackResult
  | .field n v, s => appendField n v s
  | .require ok e, s => if ok then .ok s else .failed e s

/-- The steps of a build in order, ended by the first error (42_sensorconfig.md R180, R194, R195). -/
def packAll : List PackItem → State → PackResult
  | [], s => .ok s
  | item :: items, s =>
    match packItem item s with
    | .ok s' => packAll items s'
    | .failed e s' => .failed e s'

end Sys2Proof.Machine
end

