-- ==== Sys2Proof/Machine/Flags.lean ====
section
/-! DEFINITION. The status register: the word the host reads, and the updates of its valid bits (10_state.md R30 to R34). -/

namespace Sys2Proof.Machine

/-- `STATUS` as the host reads it: `ERR` in [3:0], `LENBAD` in [4], `RXVALID` in [5], `TXVALID` in [6], and the reserved
bits [31:7] as 0 (10_state.md R30). -/
def statusWord (s : State) : Word :=
  (0#25 ++ BitVec.ofBool s.txvalid ++ BitVec.ofBool s.rxvalid ++ BitVec.ofBool s.lenbad ++ s.err :
    BitVec (25 + 1 + 1 + 1 + 4))

/-- A failed FENC or SCFG: `TXVALID` ← 0 and the error is recorded (41_framecodec.md R150, 42_sensorconfig.md R195,
10_state.md R34). -/
def failEncode (e : BlockError) (s : State) : State := raise e { s with txvalid := false }

/-- A failed FDEC: `LENBAD` as the failing check says, `RXVALID` ← 0, and CHECKSUM_ERROR is recorded
(41_framecodec.md R160, R161, 10_state.md R32, R33). -/
def failDecode (lenbad : Bool) (len : Nat) (s : State) : State :=
  raise (.checksumError len) { s with lenbad := lenbad, rxvalid := false }

/-- A host write to an `RXB` byte or to `RXLEN` ends the decoded frame's validity (10_state.md R33). -/
def endRxView (s : State) : State := { s with rxvalid := false }

end Sys2Proof.Machine
end

