-- ==== Sys2Proof/Machine/Operands.lean ====
section
/-! DEFINITION. What the commands read: field widths, RDB's sources, bytes of the buffers, the checksum, and the configuration
of a board pair with its effective descriptors (10_state.md R40 to R46, 42_sensorconfig.md R181 to R192). -/

namespace Sys2Proof.Machine

open Sys2Proof.Config

/-! ### Field widths (30_encoding.md R94) -/

/-- N ∈ [1,32]. -/
def widthLegal (n : Nat) : Bool := decide (minWidth ≤ n) && decide (n ≤ maxWidth)

/-! ### Bytes of the buffers -/

/-- `PB[k]`. -/
def pbByte (s : State) (k : Nat) : Byte := Memory.read s.mem (pbBase + k)
/-- `TXF[k]`. -/
def txfByte (s : State) (k : Nat) : Byte := Memory.read s.mem (txfBase + k)
/-- `RXB[k]`. -/
def rxbByte (s : State) (k : Nat) : Byte := Memory.read s.mem (rxbBase + k)

/-! ### RDB's sources (30_encoding.md R95, 40_bitpacker.md R124) -/

/-- The number of bits the source offers. -/
def readLimit (src : ReadSource) (s : State) : Nat :=
  match src with
  | .packBuffer => pbBits
  | .rxPayload => if s.rxvalid then 8 * s.rxPlen.toNat else 0

/-- Bit `q` of the source: payload bit q is `bit(RXB, 16 + q)` (41_framecodec.md R162). -/
def sourceBit (src : ReadSource) (s : State) (q : Nat) : Bool :=
  match src with
  | .packBuffer => bufBit s.mem pbBase q
  | .rxPayload => bufBit s.mem rxbBase (16 + q)

/-! ### The checksum (00_scope.md R8, R9) -/

/-- `sum8`: the sum of the bytes mod 256. -/
def sum8 : List Byte → Byte
  | [] => 0
  | b :: bs => b + sum8 bs

/-- `CHECKSUM`, as the parameters choose it. -/
def checksum (p : Params) (bytes : List Byte) : Byte :=
  match p.checksum with
  | .sum8 => sum8 bytes
  | .other k => otherChecksum k bytes

/-! ### The configuration file (10_state.md R40, 20_memory.md R62) -/

/-- The byte at an offset of port `p`'s configuration block. -/
def cfgByte (s : State) (p off : Nat) : Byte := Memory.read s.mem (cfgBase + 0x100 * p + off)

/-- `CFG.TYPE[p]`. -/
def cfgType (s : State) (p : Nat) : Byte := cfgByte s p 0x00
/-- `CFG.SPEED[p]`. -/
def cfgSpeed (s : State) (p : Nat) : Byte := cfgByte s p 0x01
/-- `CFG.DEVCOUNT[p]`. -/
def cfgDevCount (s : State) (p : Nat) : Byte := cfgByte s p 0x02
/-- The byte at an offset of `CFG.DEV[p][d]`. -/
def cfgDevByte (s : State) (p d off : Nat) : Byte := cfgByte s p (0x10 + 0x18 * d + off)

/-! ### A board pair (42_sensorconfig.md R181) -/

/-- The board pair's index i. -/
def pairIndex : BoardPair → Nat
  | .zero => 0
  | .one => 1

/-- Port 2i + k of the pair. -/
def portOf (i : BoardPair) (k : Nat) : Nat := 2 * pairIndex i + k

/-- `BOARD_ADDR[i]` (10_state.md R36). -/
def boardAddr (i : BoardPair) (s : State) : Byte :=
  match i with
  | .zero => s.boardAddr0
  | .one => s.boardAddr1

/-! ### The effective descriptor of a port (10_state.md R46, 42_sensorconfig.md R183 to R185) -/

/-- One device of a descriptor. `set` is wider than a byte because the synthesized settings may be (00_scope.md R8, R10:
`MID_BIT` and `SAME_BIT` are below `W_SET`, at most 32). -/
structure Device where
  addr : Byte
  set : Word
  wc : Byte
  rc : Byte
  out : List Byte
  deriving DecidableEq, Repr

/-- `clamp(c, lo, hi)` (00_scope.md section 5). -/
def clamp (c lo hi : Nat) : Nat := min (max c lo) hi

/-- Whether the port is configured ultrasonic-continuous. -/
def isUltrasonic (s : State) (p : Nat) : Bool := cfgType s p == typeUsCont

/-- `ET[p]`: the type byte sent for port `p` (42_sensorconfig.md R183). -/
def effectiveType (s : State) (p : Nat) : Byte := if isUltrasonic s p then s.params.typeI2c else cfgType s p

/-- The synthesized ultrasonic device (42_sensorconfig.md R184). -/
def ultrasonicDevice (p : Params) : Device :=
  { addr := p.usI2cAddr
    set := BitVec.twoPow 32 p.midBit ||| BitVec.twoPow 32 p.sameBit
    wc := 1
    rc := 1
    out := [p.usDataReg] }

/-- `CFG.DEV[p][d]` (10_state.md R40). -/
def configuredDevice (s : State) (p d : Nat) : Device :=
  { addr := cfgDevByte s p d 0x00
    set := (cfgDevByte s p d 0x01).setWidth 32
    wc := cfgDevByte s p d 0x02
    rc := cfgDevByte s p d 0x03
    out := (List.range maxIoBytes).map fun j => cfgDevByte s p d (0x04 + j) }

/-- `D.count` (42_sensorconfig.md R184, R185, R188). -/
def effectiveCount (s : State) (p : Nat) : Nat :=
  if isUltrasonic s p then 1 else clamp (cfgDevCount s p).toNat 1 maxDevices

/-- `D.dev[d]` (42_sensorconfig.md R184, R185). -/
def effectiveDevice (s : State) (p d : Nat) : Device :=
  if isUltrasonic s p then ultrasonicDevice s.params else configuredDevice s p d

/-- `min(16, 2^w − 1)`: `MAX_WC` for `W_WC`, `MAX_RC` for `W_RC` (42_sensorconfig.md R180, R192). -/
def maxCount (w : Nat) : Nat := min maxIoBytes (2 ^ w - 1)

end Sys2Proof.Machine
end

