-- ==== Sys2Proof/Machine/BitPacker.lean ====
section
/-! DEFINITION. The bit-packing shifter's commands (40_bitpacker.md). -/

namespace Sys2Proof.Machine

/-- NOP does nothing (40_bitpacker.md R120). -/
def execNop (s : State) : Host.Outcome State Fault Refusal := .next s

/-- RSTW: `WCUR` ← 0; `PB` is not cleared (40_bitpacker.md R121). -/
def execRstw (s : State) : Host.Outcome State Fault Refusal := .next { s with wcur := 0 }

/-- ADDB n: the width check, then the append with its capacity check (40_bitpacker.md R122, 60_exceptions.md R234). -/
def execAddb (n : Nat) (s : State) : Host.Outcome State Fault Refusal :=
  if widthLegal n then
    match appendField n s.dataIn s with
    | .ok t => .next t
    | .failed e t => .next (raise e t)
  else .next (raise (.invalidFieldWidth n) s)

/-- RSTR: `RCUR` ← 0 (40_bitpacker.md R123). -/
def execRstr (s : State) : Host.Outcome State Fault Refusal := .next { s with rcur := 0 }

/-- RDB n, src: the width check, the capacity check, then the read (40_bitpacker.md R124). -/
def execRdb (n : Nat) (src : ReadSource) (s : State) : Host.Outcome State Fault Refusal :=
  let c := s.rcur.toNat
  if widthLegal n then
    if c + n > readLimit src s then .next (raise (.bufferOverflow c n) s)
    else .next { s with dataOut := readField (sourceBit src s) c n, rcur := BitVec.ofNat 12 (c + n) }
  else .next (raise (.invalidFieldWidth n) s)

end Sys2Proof.Machine
end

