-- ==== Sys2Proof/Machine/Control.lean ====
section
/-! DEFINITION. The control command (43_control.md). -/

namespace Sys2Proof.Machine

/-- CLRS: `ERR` ← 0 and `LENBAD` ← 0, the return from an error (43_control.md R220, 60_exceptions.md R237). -/
def execClrs (s : State) : Host.Outcome State Fault Refusal := .next (clearError s)

end Sys2Proof.Machine
end

