-- ==== Sys2Proof/Machine/FrameCodec.lean ====
section
/-! DEFINITION. The frame codec's commands (41_framecodec.md). -/

namespace Sys2Proof.Machine

open Sys2Proof.Config

/-! ### Building a frame -/

/-- The mask of the last payload byte: its low `W mod 8` bits, or all of it when the cursor is byte-aligned
(41_framecodec.md R152). -/
def paddingMask (w : Nat) : Byte := if w % 8 = 0 then BitVec.allOnes 8 else BitVec.ofNat 8 (2 ^ (w % 8) - 1)

/-- Payload byte `k` of a frame over the first `w` bits of `PB`, its padding bits 0 (41_framecodec.md R150, R152). -/
def payloadByte (s : State) (w k : Nat) : Byte :=
  if k + 1 = ceil8 w then pbByte s k &&& paddingMask w else pbByte s k

/-- Destination, byte count and payload: the frame without its checksum (30_encoding.md R100, 41_framecodec.md R151). -/
def frameBody (dest : Byte) (s : State) : List Byte :=
  let w := s.wcur.toNat
  dest :: BitVec.ofNat 8 (ceil8 w + s.params.frameOverhead) :: (List.range (ceil8 w)).map (payloadByte s w)

/-- The whole frame: the body and the checksum over all of it (41_framecodec.md R154). -/
def frameBytes (dest : Byte) (s : State) : List Byte :=
  frameBody dest s ++ [checksum s.params (frameBody dest s)]

/-- The 256 bytes of `TXF` that hold a frame: the frame, then 0 (41_framecodec.md R150, 10_state.md R27). -/
def txImage (frame : List Byte) : List Byte := (List.range 256).map fun k => frame.getD k 0

/-- FENC's body from its line `W <- reg[WCUR]`, which is also SCFG's `FRAME(dest)` (41_framecodec.md R150,
42_sensorconfig.md R180, R196). -/
def frameTo (dest : Byte) (s : State) : State :=
  let w := s.wcur.toNat
  let count := ceil8 w + s.params.frameOverhead
  if w < 8 then failEncode (.emptyPayload w) s
  else if count > 255 then failEncode (.frameTooLong count) s
  else
    { s with
      mem := Memory.writeBytes s.mem txfBase (txImage (frameBytes dest s))
      txlen := BitVec.ofNat 9 (ceil8 w + 3)
      txvalid := true }

/-- FENC dest (41_framecodec.md R150). -/
def execFenc (dest : Byte) (s : State) : Host.Outcome State Fault Refusal := .next (frameTo dest s)

/-! ### Checking a frame -/

/-- `[RXB[0], …, RXB[n−1]]`. -/
def rxBytes (s : State) (n : Nat) : List Byte := (List.range n).map (rxbByte s)

/-- FDEC: the raw length, then the checksum, then the byte count (41_framecodec.md R160, R161). -/
def execFdec (s : State) : Host.Outcome State Fault Refusal :=
  let l := s.rxlen.toNat
  if l < 4 ∨ l > 256 then .next (failDecode true l s)
  else if checksum s.params (rxBytes s (l - 1)) ≠ rxbByte s (l - 1) then .next (failDecode false l s)
  else if (rxbByte s 1).toNat ≠ (l - 3) + s.params.frameOverhead then .next (failDecode true l s)
  else
    .next { s with
      rxDest := rxbByte s 0
      rxCount := rxbByte s 1
      rxType := rxbByte s 2
      rxPlen := BitVec.ofNat 8 (l - 3)
      rxvalid := true }

end Sys2Proof.Machine
end

