-- ==== Sys2Proof/Machine/SensorConfig.lean ====
section
/-! DEFINITION. The sensor-config serializer's command (42_sensorconfig.md). -/

namespace Sys2Proof.Machine

open Sys2Proof.Config

/-- A byte as the value of a field. -/
def byteField (width : Nat) (b : Byte) : PackItem := .field width (b.setWidth 32)

/-- The fields of device `d` of port `p`: address, settings, and for a same-transfer device the count check, the write
count, the read count and the output bytes (42_sensorconfig.md R189 to R192). -/
def deviceItems (s : State) (p d : Nat) : List PackItem :=
  let P := s.params
  let D := effectiveDevice s p d
  byteField P.wAddr (D.addr >>> 1) :: .field P.wSet D.set ::
    (if D.set.getLsbD P.sameBit then
      .require (decide (D.wc.toNat ≤ maxCount P.wWc) && decide (D.rc.toNat ≤ maxCount P.wRc)) (.configError p d) ::
        byteField P.wWc D.wc :: byteField P.wRc D.rc :: (D.out.take D.wc.toNat).map (byteField P.wOut)
    else [])

/-- The descriptor block of port `p`: nothing unless its effective type is in `I2C_FAMILY`; then the bus speed, the device
count minus one, and the devices in table order (42_sensorconfig.md R186 to R188, R193). -/
def portItems (s : State) (p : Nat) : List PackItem :=
  if effectiveType s p ∈ s.params.i2cFamily then
    byteField s.params.wSpeed (cfgSpeed s p) ::
      .field s.params.wCnt (BitVec.ofNat 32 (effectiveCount s p - 1)) ::
      (List.range (effectiveCount s p)).flatMap (deviceItems s p)
  else []

/-- The SensorType payload of board pair `i`: the message type, the two type bytes, the two descriptor blocks
(42_sensorconfig.md R180, R182, R193, 30_encoding.md R103). -/
def pairItems (s : State) (i : BoardPair) : List PackItem :=
  byteField 8 msgSensorType :: byteField 8 (effectiveType s (portOf i 0)) :: byteField 8 (effectiveType s (portOf i 1)) ::
    (portItems s (portOf i 0) ++ portItems s (portOf i 1))

/-- SCFG i: from `WCUR` = 0 the payload is packed, then framed to `BOARD_ADDR[i]`; an error on the way clears `TXVALID` and
leaves what was packed before it (42_sensorconfig.md R180, R195, R196). -/
def execScfg (i : BoardPair) (s : State) : Host.Outcome State Fault Refusal :=
  match packAll (pairItems s i) { s with wcur := 0 } with
  | .ok t => .next (frameTo (boardAddr i t) t)
  | .failed e t => .next (failEncode e t)

end Sys2Proof.Machine
end

