-- ==== Sys2Proof/Machine/Dispatch.lean ====
section
/-! DEFINITION. One arm per command: the meaning of a legal command word once the error gate and the legality check have
passed (40_bitpacker.md, preamble). -/

namespace Sys2Proof.Machine

def exec (i : Instr) (s : State) : Host.Outcome State Fault Refusal :=
  match i with
  | .nop => Sys2Proof.Machine.execNop s
  | .rstw => Sys2Proof.Machine.execRstw s
  | .addb n => Sys2Proof.Machine.execAddb n s
  | .rstr => Sys2Proof.Machine.execRstr s
  | .rdb n src => Sys2Proof.Machine.execRdb n src s
  | .fenc dest => Sys2Proof.Machine.execFenc dest s
  | .fdec => Sys2Proof.Machine.execFdec s
  | .scfg pair => Sys2Proof.Machine.execScfg pair s
  | .clrs => Sys2Proof.Machine.execClrs s

end Sys2Proof.Machine
end

