-- ==== Sys2Proof/Machine/HostPort.lean ====
section
/-! DEFINITION. The host port: the register window, the accesses and what rejects them, the issue of a command word, and
the reset input (10_state.md R37, 20_memory.md R60 to R74, 30_encoding.md R92, R93, 60_exceptions.md R232). -/

namespace Sys2Proof.Machine

open Sys2Proof.Config

/-! ### Issuing a command word -/

/-- The one word that runs while `ERR` ≠ 0 (60_exceptions.md R232). -/
abbrev clrsWord : Word := 0x00000008

/-- A 32-bit write of `w` to `CMD`: the word is stored, then the error gate, then legality, then the command
(30_encoding.md R92, R93, 60_exceptions.md R232, R234). -/
def issueCommand (w : Word) (s : State) : Host.Outcome State Fault Refusal :=
  let s := { s with cmd := w }
  if s.err ≠ 0 ∧ w ≠ clrsWord then .next s
  else
    match decode w with
    | .instr i => exec i s
    | .illegal _ => .next (raise (.illegalCommand w) s)

/-! ### The register window (10_state.md R37) -/

/-- The registers of the window. -/
inductive Reg where
  | cmd | status | dataIn | dataOut | wcur | rcur | txlen | rxlen
  | rxDest | rxCount | rxType | rxPlen | boardAddr0 | boardAddr1
  deriving DecidableEq, Repr

/-- The register at an address; none for an address that is no register's (10_state.md R37, 20_memory.md R63). -/
def regAt (a : Nat) : Option Reg :=
  match a with
  | 0x700 => some .cmd
  | 0x704 => some .status
  | 0x708 => some .dataIn
  | 0x70C => some .dataOut
  | 0x710 => some .wcur
  | 0x714 => some .rcur
  | 0x718 => some .txlen
  | 0x71C => some .rxlen
  | 0x720 => some .rxDest
  | 0x724 => some .rxCount
  | 0x728 => some .rxType
  | 0x72C => some .rxPlen
  | 0x730 => some .boardAddr0
  | 0x734 => some .boardAddr1
  | _ => none

/-- A register's value, zero-extended to 32 bits (20_memory.md R63). -/
def readReg (r : Reg) (s : State) : Word :=
  match r with
  | .cmd => s.cmd
  | .status => statusWord s
  | .dataIn => s.dataIn
  | .dataOut => s.dataOut
  | .wcur => s.wcur.setWidth 32
  | .rcur => s.rcur.setWidth 32
  | .txlen => s.txlen.setWidth 32
  | .rxlen => s.rxlen.setWidth 32
  | .rxDest => s.rxDest.setWidth 32
  | .rxCount => s.rxCount.setWidth 32
  | .rxType => s.rxType.setWidth 32
  | .rxPlen => s.rxPlen.setWidth 32
  | .boardAddr0 => s.boardAddr0.setWidth 32
  | .boardAddr1 => s.boardAddr1.setWidth 32

/-- A host write to a register: its low bits are stored, `CMD` executes, `RXLEN` ends the received frame's validity, and
a read-only register ignores it (10_state.md R21, R28, R33, R35, R36, 20_memory.md R63, R71). -/
def writeReg (r : Reg) (v : Word) (s : State) : Host.Outcome State Fault Refusal :=
  match r with
  | .cmd => issueCommand v s
  | .dataIn => .next { s with dataIn := v }
  | .rxlen => .next (endRxView { s with rxlen := v.setWidth 9 })
  | .boardAddr0 => .next { s with boardAddr0 := v.setWidth 8 }
  | .boardAddr1 => .next { s with boardAddr1 := v.setWidth 8 }
  | .status | .dataOut | .wcur | .rcur | .txlen | .rxDest | .rxCount | .rxType | .rxPlen => .next s

/-! ### The byte windows -/

/-- A host write of a byte: `TXF` ignores it, a write to `RXB` ends the received frame's validity
(20_memory.md R71 to R74, 10_state.md R33). -/
def storeByte (a : Nat) (v : Byte) (s : State) : State :=
  match windowOf a with
  | .packBuffer | .configuration => { s with mem := Memory.write s.mem a v }
  | .receiveFrame => endRxView { s with mem := Memory.write s.mem a v }
  | .transmitFrame | .registers | .unmapped => s

/-! ### The reset input -/

/-- Every element of 10_state.md R20 at its reset value; the build-time parameters and the host's own fields stay
(70_reset_and_hazards.md R270, R272). -/
def resetBlock (s : State) : State :=
  { State.reset with params := s.params, host := s.host, reply := s.reply }

/-! ### One host event -/

/-- One host event on the block. An 8-bit access takes a byte window only, a 32-bit access an aligned register only;
every other access is answered by BusError (20_memory.md R61, R63, R64). A load changes nothing but what the host holds
(R70). -/
def hostEvent (e : HostEvent) (s : State) : Host.Outcome State Fault Refusal :=
  match e with
  | .load8 a =>
    if byteMapped a.toNat then .next { s with reply := .byte (Memory.read s.mem a.toNat) } else .fault (.busError a)
  | .store8 a v => if byteMapped a.toNat then .next (storeByte a.toNat v s) else .fault (.busError a)
  | .load32 a =>
    match regAt a.toNat with
    | some r => .next { s with reply := .word (readReg r s) }
    | none => .fault (.busError a)
  | .store32 a v =>
    match regAt a.toNat with
    | some r => writeReg r v s
    | none => .fault (.busError a)
  | .resetInput => .next (resetBlock s)

/-- One step of the machine: the next host event, taken off the host's list; with none left the block waits
(70_reset_and_hazards.md R271, R281). -/
def portStep (s : State) : Host.Outcome State Fault Refusal :=
  match s.host with
  | [] => .next s
  | e :: rest => hostEvent e { s with host := rest, reply := .nothing }

/-- The host's list with a write of a command word to `CMD` put first. -/
def withCommandWord (s : State) (nbits w : Nat) : State :=
  { s with host := .store32 0x700 (BitVec.ofNat 32 (w % 2 ^ nbits)) :: s.host }

end Sys2Proof.Machine
end

