-- ==== Sys2Proof/Machine/Step.lean ====
section
/-! DEFINITION. One step of the machine, and a state about to run a given command word. -/

namespace Sys2Proof.Machine

/-- One step: one host access, with the command it executes (70_reset_and_hazards.md R281). -/
def step (s : State) : Host.Outcome State Fault Refusal := portStep s

/-- `s` with the command word of the low `nbits` bits of `w` as the host's next write to `CMD` (log 2). -/
def State.withFetchWord (s : State) (nbits w : Nat) : State := withCommandWord s nbits w

end Sys2Proof.Machine
end

