-- ==== Sys2Proof/Safety.lean ====
section
/-! DEFINITION. The terms statements use: the property `CHECKSUM` must have, a frame in a buffer, the legal states, the addresses
the host may access, runs of a host program, and the build of SCFG written as steps and bits straight from the spec. -/

namespace Sys2Proof.Safety

open Sys2Proof.Machine Sys2Proof.Config

/-! ### The checksum's property (00_scope.md R9) -/

/-- `b'` is `b` with bit `j` of byte `k` flipped. -/
def FlippedAt (b b' : List Byte) (k j : Nat) : Prop :=
  b'.length = b.length ∧ k < b.length ∧ j < 8 ∧ b'.getD k 0 = b.getD k 0 ^^^ BitVec.twoPow 8 j ∧
    ∀ m, m ≠ k → b'.getD m 0 = b.getD m 0

/-- The one property of `CHECKSUM` a proof may assume: a single-bit change at a byte index ≥ 1 changes it
(00_scope.md R9). -/
def ChecksumDetects (f : List Byte → Byte) : Prop :=
  ∀ b b' k j, b.length ≤ 255 → 1 ≤ k → FlippedAt b b' k j → f b' ≠ f b

/-! ### Frames (30_encoding.md R100) -/

/-- The first `n` bytes of a buffer are a whole frame: its length is one a frame can have, its byte count agrees with the
length, and its last byte is the checksum of the others. -/
structure IsFrame (p : Params) (buf : Nat → Byte) (n : Nat) : Prop where
  atLeast : 4 ≤ n
  atMost : n ≤ 256
  count : (buf 1).toNat = (n - 3) + p.frameOverhead
  check : buf (n - 1) = checksum p ((List.range (n - 1)).map buf)

/-- `TXF` holds the frame to `dest` whose payload is `w` bits, bit q being `bit q`, its padding bits 0 and the bytes after the
frame 0, and `TXVALID` is set (41_framecodec.md R150 to R154). -/
structure SentFrame (t : State) (dest : Byte) (w : Nat) (bit : Nat → Bool) : Prop where
  len : t.txlen.toNat = (w + 7) / 8 + 3
  dest : txfByte t 0 = dest
  count : (txfByte t 1).toNat = (w + 7) / 8 + t.params.frameOverhead
  payload : ∀ q, q < 8 * ((w + 7) / 8) → bufBit t.mem txfBase (16 + q) = (decide (q < w) && bit q)
  check : txfByte t ((w + 7) / 8 + 2) = checksum t.params ((List.range ((w + 7) / 8 + 2)).map (txfByte t))
  rest : ∀ k, (w + 7) / 8 + 3 ≤ k → k < 256 → txfByte t k = 0
  valid : t.txvalid = true

/-! ### The legal states -/

/-- What every reachable state is: memory in its canonical form and nowhere but in the byte windows, the parameters within
their constraints, the cursors, the length and the error code in range, the status bits in agreement with each other, the
decoded-frame registers in agreement with `RXB` while `RXVALID` = 1, and `TXF` a whole frame followed by zeros, or all
zeros before the first one (10_state.md R24 to R34). -/
structure Inv (s : State) : Prop where
  memWf : Memory.wf s.mem = true
  memMapped : ∀ c ∈ s.mem, byteMapped c.1 = true
  params : s.params.Valid
  wcur : s.wcur.toNat ≤ 2048
  rcur : s.rcur.toNat ≤ 2048
  txlen : s.txlen.toNat ≤ 256
  err : s.err.toNat ≤ 7
  lenbad : s.lenbad = true → s.err = 3
  rxFailed : s.err = 3 → s.rxvalid = false
  txFailed : s.err = 4 ∨ s.err = 5 ∨ s.err = 6 → s.txvalid = false
  rxFrame : s.rxvalid = true → IsFrame s.params (rxbByte s) s.rxlen.toNat
  rxRegs : s.rxvalid = true →
    s.rxDest = rxbByte s 0 ∧ s.rxCount = rxbByte s 1 ∧ s.rxType = rxbByte s 2 ∧ s.rxPlen.toNat + 3 = s.rxlen.toNat
  txFrame : s.txlen = 0 ∨ IsFrame s.params (txfByte s) s.txlen.toNat
  txRest : ∀ k, s.txlen.toNat ≤ k → k < 256 → txfByte s k = 0
  txHeld : s.txvalid = true → s.txlen ≠ 0

/-! ### The accesses the host may make (20_memory.md R61 to R64) -/

/-- A byte of a byte window: `PB`, `TXF`, `RXB`, or an element of a port's configuration block. -/
def IsByteAddress (a : Nat) : Prop :=
  a ≤ 0x0FF ∨ (0x200 ≤ a ∧ a ≤ 0x2FF) ∨ (0x400 ≤ a ∧ a ≤ 0x4FF) ∨
    ∃ p, p < 4 ∧
      ((∃ o, o ≤ 2 ∧ a = 0x800 + 0x100 * p + o) ∨
        ∃ d o, d < 8 ∧ o < 0x14 ∧ a = 0x800 + 0x100 * p + (0x10 + 0x18 * d + o))

/-- An aligned register of the register window. -/
def IsRegisterAddress (a : Nat) : Prop := 0x700 ≤ a ∧ a ≤ 0x737 ∧ a % 4 = 0

/-- The accesses that no BusError answers. -/
def Accepted : HostEvent → Prop
  | .load8 a => IsByteAddress a.toNat
  | .store8 a _ => IsByteAddress a.toNat
  | .load32 a => IsRegisterAddress a.toNat
  | .store32 a _ => IsRegisterAddress a.toNat
  | .resetInput => True

/-! ### Runs (70_reset_and_hazards.md R282) -/

/-- `s` with these events before the host's others. -/
def withEvents (s : State) (es : List HostEvent) : State := { s with host := es ++ s.host }

/-- The end of `n` steps. -/
def after (n : Nat) (s : State) : Host.Outcome State Fault Refusal := Sys2Proof.core.run n s

/-- A command as the host issues it: the write of its word to `CMD` (30_encoding.md R105). -/
def issue (i : Instr) : HostEvent := .store32 0x700 (encode i)

/-- `PACK n, v` (30_encoding.md R106). -/
def pack (f : Nat × Word) : List HostEvent := [.store32 0x708 f.2, issue (.addb f.1)]

/-- `UNPACK n, PB` (30_encoding.md R106). -/
def unpack (f : Nat × Word) : List HostEvent := [issue (.rdb f.1 .packBuffer), .load32 0x70C]

/-! ### The build of SCFG as steps and bits (30_encoding.md R103, 42_sensorconfig.md R180 to R195) -/

/-- The index i of a board pair (R181). -/
def pairNumber : BoardPair → Nat
  | .zero => 0
  | .one => 1

/-- The destination of pair i's frame, `BOARD_ADDR[i]` (R181, R196). -/
def pairAddress (s : State) : BoardPair → Byte
  | .zero => s.boardAddr0
  | .one => s.boardAddr1

/-- A field of `n` bits, least significant first. -/
def fieldBits (n v : Nat) : List Bool := (List.range n).map v.testBit

/-- A configuration byte of port `p` as a number (20_memory.md R62). -/
def cfg (s : State) (p off : Nat) : Nat := (Memory.read s.mem (0x800 + 0x100 * p + off)).toNat

/-- The type byte of port `p` after the ultrasonic substitution (R183). -/
def sentType (s : State) (p : Nat) : Byte :=
  if cfg s p 0 = 33 then s.params.typeI2c else Memory.read s.mem (0x800 + 0x100 * p)

/-- The number of devices of port `p` (R184, R185). -/
def sentCount (s : State) (p : Nat) : Nat := if cfg s p 0 = 33 then 1 else min (max (cfg s p 2) 1) 8

/-- ADDR, SET, WC and RC of device `d` of port `p`, by their place 0..3 in the device's block (R184, R185). -/
def sentField (s : State) (p d k : Nat) : Nat :=
  if cfg s p 0 = 33 then
    match k with
    | 0 => s.params.usI2cAddr.toNat
    | 1 => 2 ^ s.params.midBit + 2 ^ s.params.sameBit
    | _ => 1
  else cfg s p (0x10 + 0x18 * d + k)

/-- Output byte `j` of device `d` of port `p` (R184, R185). -/
def sentOut (s : State) (p d j : Nat) : Nat :=
  if cfg s p 0 = 33 then s.params.usDataReg.toNat else cfg s p (0x10 + 0x18 * d + 4 + j)

/-- Whether device `d` of port `p` has the same-transfer setting (R191). -/
def sameTransfer (s : State) (p d : Nat) : Bool := (sentField s p d 1).testBit s.params.sameBit

/-- One step of SCFG's build (R180): an APPEND of these bits, or a count check with its outcome (R192). -/
inductive PayloadStep where
  | append (bits : List Bool)
  | check (passes : Bool)
  deriving DecidableEq, Repr

/-- The bits a step appends. -/
def PayloadStep.bits : PayloadStep → List Bool
  | .append bits => bits
  | .check _ => []

/-- The bits that steps append, in order, with no padding between them (R193). -/
def stepBits (steps : List PayloadStep) : List Bool := steps.flatMap PayloadStep.bits

/-- Whether the counts of device `d` of port `p` can be encoded (R192). -/
def countsEncodable (s : State) (p d : Nat) : Bool :=
  decide (sentField s p d 2 ≤ min 16 (2 ^ s.params.wWc - 1)) && decide (sentField s p d 3 ≤ min 16 (2 ^ s.params.wRc - 1))

/-- The steps of one device (R189 to R192). -/
def deviceSteps (s : State) (p d : Nat) : List PayloadStep :=
  .append (fieldBits s.params.wAddr (sentField s p d 0 / 2)) :: .append (fieldBits s.params.wSet (sentField s p d 1)) ::
    if sameTransfer s p d then
      .check (countsEncodable s p d) ::
        .append (fieldBits s.params.wWc (sentField s p d 2)) :: .append (fieldBits s.params.wRc (sentField s p d 3)) ::
          (List.range (min (sentField s p d 2) 16)).map fun j => .append (fieldBits s.params.wOut (sentOut s p d j))
    else []

/-- The steps of one port's descriptor block (R186 to R188). -/
def portSteps (s : State) (p : Nat) : List PayloadStep :=
  if sentType s p ∈ s.params.i2cFamily then
    .append (fieldBits s.params.wSpeed (cfg s p 1)) :: .append (fieldBits s.params.wCnt (sentCount s p - 1)) ::
      (List.range (sentCount s p)).flatMap (deviceSteps s p)
  else []

/-- The steps of the whole build of board pair `i`, in the order of R180's pseudocode (R182, R193). -/
def payloadSteps (s : State) (i : Nat) : List PayloadStep :=
  .append (fieldBits 8 2) :: .append (fieldBits 8 (sentType s (2 * i)).toNat) ::
    .append (fieldBits 8 (sentType s (2 * i + 1)).toNat) :: (portSteps s (2 * i) ++ portSteps s (2 * i + 1))

/-- The bits of one port's descriptor block. -/
def portBits (s : State) (p : Nat) : List Bool := stepBits (portSteps s p)

/-- The whole payload of board pair `i`. -/
def payloadBits (s : State) (i : Nat) : List Bool := stepBits (payloadSteps s i)

/-- Steps that all succeed from `WCUR` = 0: every check passes, and the bits fit `PB`. -/
def AllPass (steps : List PayloadStep) : Prop :=
  (∀ ok, .check ok ∈ steps → ok = true) ∧ (stepBits steps).length ≤ 2048

/-- The step that comes after `before` fails, with this error code: BUFFER_OVERFLOW for an APPEND with no room (R194),
CONFIG_ERROR for a check that does not pass (R192). -/
def FailsAfter (before : List PayloadStep) : PayloadStep → BitVec 4 → Prop
  | .append bits, code => 2048 < (stepBits before).length + bits.length ∧ code = 2
  | .check ok, code => ok = false ∧ code = 4

/-- What a failed SCFG leaves (R195): `PB` holds exactly these bits below `WCUR`, the rest of `PB`, every byte outside it and
every other register stay, `TXVALID` is 0, and `ERR` is the code. -/
structure StoppedBuild (s t : State) (bits : List Bool) (code : BitVec 4) : Prop where
  others : t = { s with mem := t.mem, wcur := t.wcur, err := code, txvalid := false }
  wcur : t.wcur.toNat = bits.length
  below : Memory.wf s.mem = true → ∀ q, q < bits.length → bufBit t.mem pbBase q = bits.getD q false
  above : Memory.wf s.mem = true → ∀ q, bits.length ≤ q → q < 2048 → bufBit t.mem pbBase q = bufBit s.mem pbBase q
  outside : ∀ a, 0x100 ≤ a → Memory.read t.mem a = Memory.read s.mem a

/-- Every same-transfer device of port `p` that is sent has counts its fields can hold (R192). -/
def CountsFit (s : State) (p : Nat) : Prop :=
  sentType s p ∈ s.params.i2cFamily → ∀ d, d < sentCount s p → sameTransfer s p d = true →
    sentField s p d 2 ≤ min 16 (2 ^ s.params.wWc - 1) ∧ sentField s p d 3 ≤ min 16 (2 ^ s.params.wRc - 1)

/-- The configuration bytes SCFG reads for port `p`, which the host must have written (70_reset_and_hazards.md R273). -/
def configRead (s : State) (p : Nat) : List Nat :=
  let base := 0x800 + 0x100 * p
  base ::
    if sentType s p ∈ s.params.i2cFamily then
      if cfg s p 0 = 33 then [base + 1]
      else
        (base + 1) :: (base + 2) :: (List.range (sentCount s p)).flatMap fun d =>
          let dev := base + (0x10 + 0x18 * d)
          dev :: (dev + 1) ::
            if sameTransfer s p d then
              (dev + 2) :: (dev + 3) :: (List.range (min (sentField s p d 2) 16)).map fun j => dev + 4 + j
            else []
    else []

end Sys2Proof.Safety
end

