-- ==== Sys2Proof/Machine/CarefulHost.lean ====
section
/-! DEFINITION. The careful host of 60_exceptions.md R245: what it remembers, the moves it has, and a session of it with the
block, which is given no move that breaks a duty (92_eei_decisions.md D2, 93_implementation_defined.md U11, I5). The block
itself detects no violation (70_reset_and_hazards.md R275): `step` performs every access. -/

namespace Sys2Proof.Machine

open Sys2Proof.Safety

/-- How far the message is that holds the pack buffer, from its start to the end of its exchange (70_reset_and_hazards.md R275). -/
inductive MessagePhase where
  /-- No message is open. -/
  | none
  /-- A message is open, and `TXF` does not hold its frame. -/
  | building
  /-- A message is open, and `TXF` holds its frame. -/
  | encoded
  deriving DecidableEq, Repr

/-- What the careful host remembers of its own past. DESIGN CHOICE (log 5): the spec gives the host duties and no state. -/
structure HostRecord where
  /-- The message that is started and whose exchange has not ended (70_reset_and_hazards.md R275). -/
  message : MessagePhase
  /-- `TXF` is handed to the transport and the exchange not ended (R276). -/
  exchangeOpen : Bool
  /-- The last send has no receive yet (R276). -/
  replyAwaited : Bool
  /-- The bytes of the last receive; none before the first receive and after a timeout. -/
  received : Option (List Byte)
  /-- The port addresses written since reset, those of `RXB` and `RXLEN` since the last receive (R273, R277). -/
  written : List Nat
  /-- `STATUS` was read after the last write to `CMD` (R278). -/
  statusRead : Bool
  deriving DecidableEq, Repr

/-- The careful host before its first move, and after the reset input. -/
def HostRecord.initial : HostRecord :=
  { message := .none
    exchangeOpen := false
    replyAwaited := false
    received := none
    written := []
    statusRead := false }

/-- The moves of the careful host. The last four are no access: they mark what passes between the host and its
transport, of which the block learns nothing (00_scope.md R6). -/
inductive HostMove where
  /-- An access on the host port, or the reset input. -/
  | access (e : HostEvent)
  /-- The transport is given `TXF[0..TXLEN−1]` to send. -/
  | send
  /-- The transport answers with a reply, or with a timeout. -/
  | receive (reply : Option (List Byte))
  /-- The exchange ends: no retry follows. It is the exchange of the frame in `TXF`. -/
  | endExchange
  /-- The host depends on the outcome of its last command. DESIGN CHOICE (log 5): this mark alone is the use of a command's result
  that asks for a read of `STATUS` (70_reset_and_hazards.md R278); a send and a read of `DATA_OUT` do not. -/
  | rely
  deriving DecidableEq, Repr

/-- A careful host and the block it drives. -/
structure Session where
  block : State
  host : HostRecord
  deriving DecidableEq, Repr

/-- Both right after reset. -/
def Session.reset : Session := { block := State.reset, host := HostRecord.initial }

/-! ### The duties (60_exceptions.md R245) -/

/-- Every byte SCFG reads for the pair has been written (70_reset_and_hazards.md R273). -/
def configurationWritten (i : BoardPair) (x : Session) : Bool :=
  (configRead x.block (2 * pairNumber i) ++ configRead x.block (2 * pairNumber i + 1)).all (x.host.written.contains ·)

/-- `RXLEN` and the bytes of `RXB` below it have been written since the last receive, and are the reply it brought: its count, and
its bytes as far as `RXB` has places (70_reset_and_hazards.md R277). DESIGN CHOICE (log 5): of a reply longer than the 256 bytes of
`RXB` the first 256 are to be written, with its whole count, which FDEC then rejects (10_state.md R28); a reply above the 511
that `RXLEN` holds is never loaded; and where the last receive brought no reply, what stands in `RXB` is held to none. -/
def replyLoaded (x : Session) : Bool :=
  let l := x.block.rxlen.toNat
  let held := min l 256
  x.host.written.contains 0x71C && (List.range held).all (fun k => x.host.written.contains (rxbBase + k)) &&
    match x.host.received with
    | none => true
    | some reply => decide (reply.length = l) && (reply.take held == rxBytes x.block held)

/-- The duty that issuing a command breaks. RSTW and SCFG start a message, ADDB extends one (R275); FENC and SCFG encode
(R276). FDEC comes after the receive of the last send (R277). DESIGN CHOICE (log 5): the rebuild that 60_exceptions.md R237 asks for
is no duty here, so after a failed SCFG and CLRS the host may also extend or frame what stands in `PB`. -/
def commandDuty (i : Instr) (x : Session) : Option HostDuty :=
  match i with
  | .rstw => if x.host.message ≠ .none ∨ x.host.exchangeOpen = true then some .oneBuild else none
  | .addb _ => if x.host.exchangeOpen then some .oneBuild else none
  | .fenc _ => if x.host.exchangeOpen then some .holdFrame else none
  | .scfg i =>
    if x.host.exchangeOpen then some .holdFrame
    else if x.host.message ≠ .none then some .oneBuild
    else if configurationWritten i x then none
    else some .writeConfiguration
  | .fdec => if x.host.replyAwaited = false ∧ replyLoaded x = true then none else some .receiveBeforeDecode
  | .nop | .rstr | .rdb _ _ | .clrs => none

/-- The duty that a move breaks; none for a move the careful host has. A send needs `TXVALID` = 1 and no read of `STATUS`, since
`TXVALID` = 0 shows that no frame was built (70_reset_and_hazards.md R278; DESIGN CHOICE, log 5). A byte store breaks none, one to
`PB` during an exchange neither (20_memory.md R72; 93_implementation_defined.md I5; DESIGN CHOICE, log 5). -/
def brokenDuty (m : HostMove) (x : Session) : Option HostDuty :=
  match m with
  | .access (.store32 a w) =>
    if a = 0x700 then
      match decode w with
      | .instr i => commandDuty i x
      | .illegal _ => none
    else none
  | .access (.load8 _) | .access (.store8 _ _) | .access (.load32 _) | .access .resetInput => none
  | .send =>
    if x.host.replyAwaited then some .pairSendReceive
    else if x.block.txvalid then none
    else some .sendValidFrame
  | .receive _ => if x.host.replyAwaited then none else some .pairSendReceive
  | .endExchange => if x.host.exchangeOpen && !x.host.replyAwaited then none else some .pairSendReceive
  | .rely => if x.host.statusRead then none else some .checkOutcome

/-! ### What a move leaves in the host's record -/

/-- The record with an address written. -/
def HostRecord.write (a : Nat) (h : HostRecord) : HostRecord := { h with written := h.written.insert a }

/-- The message after a command that ran and left this error code. RSTW starts one; ADDB extends it, or starts one from the cursor
that stands; FENC and SCFG give it its frame. A failed ADDB leaves it as it was (60_exceptions.md R233). A failed FENC leaves it
without a frame, and ends it where it is too long for one; a failed SCFG ends it: such a message can have no exchange, and the
host must rebuild it (R237, R238). DESIGN CHOICE (log 5). -/
def MessagePhase.ran (i : Instr) (err : BitVec 4) (p : MessagePhase) : MessagePhase :=
  match i with
  | .rstw => .building
  | .addb _ => if err = 0 then .building else p
  | .fenc _ =>
    if err = 0 then .encoded
    else if err = 6 ∨ p = .none then .none
    else .building
  | .scfg _ => if err = 0 then .encoded else .none
  | .nop | .rstr | .rdb _ _ | .fdec | .clrs => p

/-- The message after the end of an exchange: the message whose frame was exchanged ends, and one that `TXF` does not hold stays
open (70_reset_and_hazards.md R275). -/
def MessagePhase.exchanged (p : MessagePhase) : MessagePhase :=
  match p with
  | .none | .encoded => .none
  | .building => .building

/-- The record after a command that ran and left the block in `t`. -/
def HostRecord.ran (i : Instr) (t : State) (h : HostRecord) : HostRecord := { h with message := h.message.ran i t.err }

/-- The record after a write of `w` to `CMD`: `STATUS` is to be read again, and a word that ran leaves its mark. -/
def HostRecord.issued (w : Word) (s t : State) (h : HostRecord) : HostRecord :=
  let h := { h with statusRead := false }
  if s.err = 0 then
    match decode w with
    | .instr i => h.ran i t
    | .illegal _ => h
  else h

/-- The record after an access that took the block from `s` to `t`. -/
def HostRecord.accessed (e : HostEvent) (s t : State) (h : HostRecord) : HostRecord :=
  match e with
  | .load8 _ => h
  | .store8 a _ => h.write a.toNat
  | .load32 a => if a = 0x704 then { h with statusRead := true } else h
  | .store32 a w => if a = 0x700 then h.issued w s t else h.write a.toNat
  | .resetInput => HostRecord.initial

/-- Whether a port address is `RXB`'s or `RXLEN`'s. -/
def receiveAddress (a : Nat) : Bool := a == 0x71C || (decide (rxbBase ≤ a) && decide (a < rxbBase + 0x100))

/-! ### A session -/

/-- One move of the careful host: the moves that break a duty are refused by the duty's name, an access is one step of
the block, and every other move leaves the block as it is. -/
def sessionStep (m : HostMove) (x : Session) : Host.Outcome Session Fault Refusal :=
  match brokenDuty m x with
  | some duty => .refused (.hostDuty duty)
  | none =>
    match m with
    | .access e =>
      match step { x.block with host := [e] } with
      | .next t => .next { block := t, host := x.host.accessed e x.block t }
      | .fault f => .fault f
      | .refused r => .refused r
    | .send => .next { x with host := { x.host with exchangeOpen := true, replyAwaited := true } }
    | .receive reply =>
      .next { x with host := { x.host with
        replyAwaited := false, received := reply
        written := x.host.written.filter fun a => !receiveAddress a } }
    | .endExchange => .next { x with host := { x.host with message := x.host.message.exchanged, exchangeOpen := false } }
    | .rely => .next x

/-- The moves of a session, in order; it stops at the first fault or refusal. -/
def sessionRun : List HostMove → Session → Host.Outcome Session Fault Refusal
  | [], x => .next x
  | m :: ms, x =>
    match sessionStep m x with
    | .next y => sessionRun ms y
    | .fault f => .fault f
    | .refused r => .refused r

/-- The accesses among a host's moves. -/
def accesses : List HostMove → List HostEvent
  | [] => []
  | .access e :: ms => e :: accesses ms
  | .send :: ms | .receive _ :: ms | .endExchange :: ms | .rely :: ms => accesses ms

end Sys2Proof.Machine
end

