-- ==== Sys2Proof/Certificates/Slice0/Obligations.lean ====
section
/-! DEFINITION. The statements for the provers. -/

open Sys2Proof Sys2Proof.Machine Sys2Proof.Config Sys2Proof.Safety

/-! ### Command words -/

/-- Decoding the word of a well-formed command gives the command back, with every operand at every value its field admits
(30_encoding.md section 1). -/
def Obligations.DecodeOfEncode : Prop :=
  ∀ i : Instr, i.wellFormed = true → decode (encode i) = .instr i

/-- A legal word is the word of exactly the command it decodes to: no bit of it is dropped (30_encoding.md sections 1
and 4). -/
def Obligations.EncodeOfDecode : Prop :=
  ∀ (w : Word) (i : Instr), decode w = .instr i → i.wellFormed = true ∧ encode i = w

/-- 30_encoding.md R93: which words are illegal, that the legal ones are exactly the rows of spec/opcode_table.json by mask and
match, and that with `ERR` = 0 an illegal word raises ILLEGAL_COMMAND and changes nothing else. -/
def Obligations.IllegalWordsRaiseIllegalCommand : Prop :=
  ∀ w : Word,
    let op := (w.extractLsb' 0 4).toNat
    let bad := 9 ≤ op ∨ w.extractLsb' 20 12 ≠ 0 ∨ (w.extractLsb' 4 6 ≠ 0 ∧ op ≠ 2 ∧ op ≠ 4) ∨
      (w.extractLsb' 10 1 ≠ 0 ∧ op ≠ 4) ∨ (w.extractLsb' 11 1 ≠ 0 ∧ op ≠ 7) ∨ (w.extractLsb' 12 8 ≠ 0 ∧ op ≠ 5)
    (¬ bad ↔ ∃ row ∈ opcodeTable, w &&& row.2 = row.1) ∧
    (¬ bad ↔ ∃ i, decode w = .instr i) ∧
    ∀ (s : State) (rest : List HostEvent), s.host = .store32 0x700 w :: rest → s.err = 0 → bad →
      step s = .next { s with host := rest, reply := .nothing, cmd := w, err := 7 }

/-- A few command words written out from the patterns of 30_encoding.md R90 decode to the commands they stand for. -/
def Obligations.SampleWordsDecode : Prop :=
  decode 0x000000A2 = .instr (.addb 10) ∧ decode 0x000003F2 = .instr (.addb 63) ∧
  decode 0x00000484 = .instr (.rdb 8 .rxPayload) ∧ decode 0x00009005 = .instr (.fenc 9) ∧
  decode 0x00000807 = .instr (.scfg .one) ∧ decode 0x00000008 = .instr .clrs ∧
  decode 0x00000018 = .illegal .unusedField

/-! ### A step -/

/-- 30_encoding.md R92: a write of `w` to `CMD` stores `w`, then executes it once, behind the error gate; with the gate closed
only 0x00000008 runs. Around `exec` a step only takes the event off the host's list and clears the reply (log 2, log 3). -/
def Obligations.StepRunsTheDecodedCommand : Prop :=
  ∀ (s : State) (w : Word) (rest : List HostEvent), s.host = .store32 0x700 w :: rest →
    (∀ i, decode w = .instr i → (s.err = 0 ∨ w = 0x00000008) →
      step s = exec i { s with host := rest, reply := .nothing, cmd := w }) ∧
    (s.err ≠ 0 → w ≠ 0x00000008 → step s = .next { s with host := rest, reply := .nothing, cmd := w })

/-- With no host event left the block waits and nothing changes (70_reset_and_hazards.md section 1; the empty list of events
is the model's own, log 2). -/
def Obligations.StepWaitsForTheHost : Prop :=
  ∀ s : State, s.host = [] → step s = .next s

/-- 20_memory.md R64: exactly the accesses to unmapped addresses, of the wrong width for their window, or misaligned are answered
by BusError; the fault carries no state, and every other event gives a next state. -/
def Obligations.BusErrorExactlyOnRejectedAccesses : Prop :=
  ∀ (s : State) (e : HostEvent) (rest : List HostEvent), s.host = e :: rest →
    (¬ Accepted e → ∃ a, step s = .fault (.busError a)) ∧ (Accepted e → ∃ t, step s = .next t)

/-- A host read hands back the byte or the register and changes no block state (20_memory.md sections 1 and 3). -/
def Obligations.HostReadsHaveNoSideEffect : Prop :=
  ∀ (s : State) (a : Addr) (rest : List HostEvent),
    (s.host = .load8 a :: rest → IsByteAddress a.toNat →
      step s = .next { s with host := rest, reply := .byte (Memory.read s.mem a.toNat) }) ∧
    (s.host = .load32 a :: rest → IsRegisterAddress a.toNat →
      ∃ v, step s = .next { s with host := rest, reply := .word v })

/-- What each register of the window reads as: its value zero-extended to 32 bits, `STATUS` with its fields in place and its
reserved bits 0 (10_state.md sections 5 and 8). -/
def Obligations.RegisterWindowReads : Prop :=
  ∀ (s : State) (rest : List HostEvent),
    let reads (a : Addr) (v : Nat) : Prop :=
      s.host = .load32 a :: rest → step s = .next { s with host := rest, reply := .word (BitVec.ofNat 32 v) }
    reads 0x700 s.cmd.toNat ∧
    reads 0x704 (s.err.toNat + 16 * s.lenbad.toNat + 32 * s.rxvalid.toNat + 64 * s.txvalid.toNat) ∧
    reads 0x708 s.dataIn.toNat ∧ reads 0x70C s.dataOut.toNat ∧ reads 0x710 s.wcur.toNat ∧ reads 0x714 s.rcur.toNat ∧
    reads 0x718 s.txlen.toNat ∧ reads 0x71C s.rxlen.toNat ∧ reads 0x720 s.rxDest.toNat ∧ reads 0x724 s.rxCount.toNat ∧
    reads 0x728 s.rxType.toNat ∧ reads 0x72C s.rxPlen.toNat ∧ reads 0x730 s.boardAddr0.toNat ∧
    reads 0x734 s.boardAddr1.toNat

/-- 20_memory.md R71: a host write to a read-only register or to a `TXF` byte is ignored. -/
def Obligations.ReadOnlyWritesAreIgnored : Prop :=
  ∀ (s : State) (rest : List HostEvent),
    (∀ (a : Addr) (v : Word),
      a ∈ [0x704#12, 0x70C, 0x710, 0x714, 0x718, 0x720, 0x724, 0x728, 0x72C] →
      s.host = .store32 a v :: rest → step s = .next { s with host := rest, reply := .nothing }) ∧
    (∀ (a : Addr) (v : Byte), 0x200 ≤ a.toNat → a.toNat ≤ 0x2FF →
      s.host = .store8 a v :: rest → step s = .next { s with host := rest, reply := .nothing })

/-- Host writes to the writable registers other than `CMD`: the low bits are stored, and a write to `RXLEN` clears `RXVALID`
(10_state.md sections 2, 4 and 7). -/
def Obligations.RegisterWindowWrites : Prop :=
  ∀ (s : State) (v : Word) (rest : List HostEvent),
    (s.host = .store32 0x708 v :: rest → step s = .next { s with host := rest, reply := .nothing, dataIn := v }) ∧
    (s.host = .store32 0x71C v :: rest →
      step s = .next { s with host := rest, reply := .nothing, rxlen := BitVec.ofNat 9 v.toNat, rxvalid := false }) ∧
    (s.host = .store32 0x730 v :: rest →
      step s = .next { s with host := rest, reply := .nothing, boardAddr0 := BitVec.ofNat 8 v.toNat }) ∧
    (s.host = .store32 0x734 v :: rest →
      step s = .next { s with host := rest, reply := .nothing, boardAddr1 := BitVec.ofNat 8 v.toNat })

/-- A host write of a byte outside `TXF` sets that byte and no other; it clears `RXVALID` exactly when the byte is in `RXB`; no
cursor and no other register moves (20_memory.md section 3, 10_state.md section 5). -/
def Obligations.HostByteWriteSetsOneByte : Prop :=
  ∀ (s : State) (a : Addr) (v : Byte) (rest : List HostEvent), s.host = .store8 a v :: rest →
    Memory.wf s.mem = true → IsByteAddress a.toNat → ¬ (0x200 ≤ a.toNat ∧ a.toNat ≤ 0x2FF) →
    ∃ t, step s = .next t ∧
      (∀ b, Memory.read t.mem b = if b = a.toNat then v else Memory.read s.mem b) ∧
      t = { s with
        host := rest, reply := .nothing, mem := t.mem
        rxvalid := s.rxvalid && !(decide (0x400 ≤ a.toNat) && decide (a.toNat ≤ 0x4FF)) }

/-- 70_reset_and_hazards.md R270, R272: the reset state, and that the reset input puts every element at its reset value whatever
state came before. -/
def Obligations.ResetPutsEveryElementAtItsValue : Prop :=
  let atReset (t : State) : Prop :=
    t.cmd = 0 ∧ t.dataIn = 0 ∧ t.dataOut = 0 ∧ t.wcur = 0 ∧ t.rcur = 0 ∧ t.txlen = 0 ∧ t.rxlen = 0 ∧
    t.rxDest = 0 ∧ t.rxCount = 0 ∧ t.rxType = 0 ∧ t.rxPlen = 0 ∧ statusWord t = 0 ∧
    t.boardAddr0 = 1 ∧ t.boardAddr1 = 2 ∧ ∀ a, Memory.read t.mem a = 0
  atReset State.reset ∧
    ∀ (s : State) (rest : List HostEvent), s.host = .resetInput :: rest → ∃ t, step s = .next t ∧ atReset t

/-! ### Invariants and whole-machine rules -/

/-- The reset state is a legal state. -/
def Obligations.ResetStateIsLegal : Prop := Inv State.reset

/-- From every legal state a step gives a legal state: the memory keeps its canonical form and stays in the byte windows, the
cursors stay within the buffers, `ERR` stays at most 7, the valid bits agree with `ERR`, the decoded-frame registers describe
`RXB` while `RXVALID` = 1, and `TXF` holds a whole frame followed by zeros (10_state.md sections 3 to 5). -/
def Obligations.StepKeepsStatesLegal : Prop :=
  ∀ s t : State, Inv s → step s = .next t → Inv t

/-- No step changes a build-time parameter (00_scope.md section 4: they are fixed when a model is built; that they stand in the
state is the model's choice, log 1). -/
def Obligations.ParametersAreFixed : Prop :=
  ∀ s t : State, step s = .next t → t.params = s.params

/-- 10_state.md R31: `ERR` is set only by a failing command, cleared only by CLRS and reset, and its values 8 to 15 are never
produced; while it is not 0 every command but CLRS is ignored. -/
def Obligations.ErrIsStickyUntilClrsOrReset : Prop :=
  ∀ s t : State, step s = .next t →
    (s.err ≠ 0 → t.err = s.err ∨
      (t.err = 0 ∧ ∃ rest, s.host = .store32 0x700 0x00000008 :: rest ∨ s.host = .resetInput :: rest)) ∧
    (s.err = 0 → t.err ≠ 0 → ∃ w rest, s.host = .store32 0x700 w :: rest ∧ t.cmd = w) ∧
    (s.err.toNat ≤ 7 → t.err.toNat ≤ 7) ∧
    (∀ w rest, s.err ≠ 0 → s.host = .store32 0x700 w :: rest → w ≠ 0x00000008 →
      t = { s with host := rest, reply := .nothing, cmd := w })

/-- 10_state.md R33: what sets and clears `RXVALID`, and that while it is 0 RDB sees a received payload of length 0. -/
def Obligations.RxvalidRule : Prop :=
  (∀ (s t : State) (e : HostEvent) (rest : List HostEvent), s.host = e :: rest → step s = .next t →
    (s.err = 0 → e = .store32 0x700 0x00000006 → t.rxvalid = decide (t.err = 0)) ∧
    ((∃ a v, e = .store8 a v ∧ 0x400 ≤ a.toNat ∧ a.toNat ≤ 0x4FF) ∨ (∃ v, e = .store32 0x71C v) ∨ e = .resetInput →
      t.rxvalid = false) ∧
    (¬ (s.err = 0 ∧ e = .store32 0x700 0x00000006) → ¬ (∃ a v, e = .store8 a v ∧ 0x400 ≤ a.toNat ∧ a.toNat ≤ 0x4FF) →
      ¬ (∃ v, e = .store32 0x71C v) → e ≠ .resetInput → t.rxvalid = s.rxvalid)) ∧
  (∀ (s : State) (n : Nat), s.rxvalid = false → 1 ≤ n → n ≤ 32 → exec (.rdb n .rxPayload) s = .next { s with err := 2 })

/-- 10_state.md R34: a command sets `TXVALID` exactly when it is an FENC or SCFG that succeeds, and clears it when it is one that
fails; reset clears it; nothing else changes it. -/
def Obligations.TxvalidRule : Prop :=
  ∀ (s t : State) (e : HostEvent) (rest : List HostEvent), s.host = e :: rest → step s = .next t →
    let builds := s.err = 0 ∧ ∃ w, e = .store32 0x700 w ∧
      ((∃ dest, decode w = .instr (.fenc dest)) ∨ ∃ i, decode w = .instr (.scfg i))
    (builds → t.txvalid = decide (t.err = 0)) ∧ (e = .resetInput → t.txvalid = false) ∧
    (¬ builds → e ≠ .resetInput → t.txvalid = s.txvalid)

/-- An encoded frame stays until the next successful FENC or SCFG, or reset: the inference the spec states as "keeps the same
bytes until the next successful FENC or SCFG, or reset" (41_framecodec.md, retention for retries). -/
def Obligations.EncodedFrameIsRetained : Prop :=
  ∀ (s t : State) (e : HostEvent) (rest : List HostEvent), s.host = e :: rest → step s = .next t →
    e ≠ .resetInput →
    ¬ (s.err = 0 ∧ t.err = 0 ∧ ∃ w, e = .store32 0x700 w ∧
      ((∃ dest, decode w = .instr (.fenc dest)) ∨ ∃ i, decode w = .instr (.scfg i))) →
    t.txlen = s.txlen ∧ ∀ k, k < 256 → txfByte t k = txfByte s k

/-- ADDB and SCFG write bytes of `PB`, FENC and SCFG write bytes of `TXF`, and no command writes any other byte; so none
writes the configuration file (10_state.md section 9, 41_framecodec.md, 42_sensorconfig.md). -/
def Obligations.CommandsWriteOnlyTheirBuffers : Prop :=
  ∀ (i : Instr) (s t : State) (a : Nat), exec i s = .next t → Memory.read t.mem a ≠ Memory.read s.mem a →
    (a ≤ 0xFF ∧ ((∃ n, i = .addb n) ∨ ∃ p, i = .scfg p)) ∨
    (0x200 ≤ a ∧ a ≤ 0x2FF ∧ ((∃ dest, i = .fenc dest) ∨ ∃ p, i = .scfg p))

/-- The registers a command can change: `DATA_OUT` only by RDB, `WCUR` only by RSTW, ADDB and SCFG, `RCUR` only by RSTR and RDB,
`TXLEN` only by FENC and SCFG, the decoded-frame registers only by a successful FDEC, `LENBAD` only by FDEC and CLRS; `CMD`,
`DATA_IN`, `RXLEN` and the board addresses by none (10_state.md sections 2 to 7). -/
def Obligations.CommandsWriteOnlyTheirRegisters : Prop :=
  ∀ (i : Instr) (s t : State), exec i s = .next t →
    t.cmd = s.cmd ∧ t.dataIn = s.dataIn ∧ t.rxlen = s.rxlen ∧ t.boardAddr0 = s.boardAddr0 ∧
    t.boardAddr1 = s.boardAddr1 ∧ t.params = s.params ∧ t.host = s.host ∧ t.reply = s.reply ∧
    (t.dataOut ≠ s.dataOut → ∃ n src, i = .rdb n src) ∧
    (t.wcur ≠ s.wcur → i = .rstw ∨ (∃ n, i = .addb n) ∨ ∃ p, i = .scfg p) ∧
    (t.rcur ≠ s.rcur → i = .rstr ∨ ∃ n src, i = .rdb n src) ∧
    (t.txlen ≠ s.txlen → (∃ dest, i = .fenc dest) ∨ ∃ p, i = .scfg p) ∧
    (t.rxDest ≠ s.rxDest ∨ t.rxCount ≠ s.rxCount ∨ t.rxType ≠ s.rxType ∨ t.rxPlen ≠ s.rxPlen →
      i = .fdec ∧ t.rxvalid = true) ∧
    (t.lenbad ≠ s.lenbad → i = .fdec ∨ i = .clrs)

/-- The error codes of 60_exceptions.md R230, and that raising an error records its code and nothing else (section 1). -/
def Obligations.RaiseRecordsTheErrorCode : Prop :=
  ∀ (s : State) (n c l p d w k : Nat) (word : Word),
    raise (.invalidFieldWidth n) s = { s with err := 1 } ∧ raise (.bufferOverflow c n) s = { s with err := 2 } ∧
    raise (.checksumError l) s = { s with err := 3 } ∧ raise (.configError p d) s = { s with err := 4 } ∧
    raise (.emptyPayload w) s = { s with err := 5 } ∧ raise (.frameTooLong k) s = { s with err := 6 } ∧
    raise (.illegalCommand word) s = { s with err := 7 }

/-! ### The bit-packing shifter -/

/-- 40_bitpacker.md R120: NOP does nothing; its word is the reset value of `CMD`; while `ERR` ≠ 0 it is ignored. -/
def Obligations.NopDoesNothing : Prop :=
  decode 0x00000000 = .instr .nop ∧ State.reset.cmd = 0x00000000 ∧ (∀ s : State, exec .nop s = .next s) ∧
    ∀ (s : State) (rest : List HostEvent), s.host = .store32 0x700 0x00000000 :: rest →
      step s = .next { s with host := rest, reply := .nothing, cmd := 0x00000000 }

/-- 40_bitpacker.md R121: RSTW sets `WCUR` to 0 and changes nothing else. -/
def Obligations.RstwResetsTheWriteCursor : Prop :=
  decode 0x00000001 = .instr .rstw ∧ ∀ s : State, exec .rstw s = .next { s with wcur := 0 }

/-- 40_bitpacker.md R123: RSTR sets `RCUR` to 0 and changes nothing else; FDEC does not reset `RCUR`. -/
def Obligations.RstrResetsTheReadCursor : Prop :=
  decode 0x00000003 = .instr .rstr ∧ (∀ s : State, exec .rstr s = .next { s with rcur := 0 }) ∧
    ∀ s : State, ∃ t, exec .fdec s = .next t ∧ t.rcur = s.rcur

/-- 40_bitpacker.md R122: ADDB puts exactly the low n bits of `DATA_IN` at `WCUR`, zeros included, and moves `WCUR` past them;
every other bit of `PB`, every other byte and every other register stays; a failed ADDB changes only `ERR`, the width check
first. -/
def Obligations.AddbAppendsTheLowBits : Prop :=
  (∀ n, n < 64 → decode (0x2 ||| BitVec.ofNat 32 n <<< 4) = .instr (.addb n)) ∧
  ∀ (s : State) (n : Nat),
    (¬ (1 ≤ n ∧ n ≤ 32) → exec (.addb n) s = .next { s with err := 1 }) ∧
    (1 ≤ n → n ≤ 32 → s.wcur.toNat + n > 2048 → exec (.addb n) s = .next { s with err := 2 }) ∧
    (Memory.wf s.mem = true → 1 ≤ n → n ≤ 32 → s.wcur.toNat + n ≤ 2048 →
      ∃ t, exec (.addb n) s = .next t ∧ t = { s with mem := t.mem, wcur := t.wcur } ∧
        t.wcur.toNat = s.wcur.toNat + n ∧
        (∀ j, j < n → bufBit t.mem pbBase (s.wcur.toNat + j) = s.dataIn.getLsbD j) ∧
        (∀ q, q < s.wcur.toNat ∨ s.wcur.toNat + n ≤ q → bufBit t.mem pbBase q = bufBit s.mem pbBase q) ∧
        ∀ a, (∀ j, j < n → a ≠ bitAddr pbBase (s.wcur.toNat + j)) → Memory.read t.mem a = Memory.read s.mem a)

/-- 40_bitpacker.md R124: RDB puts the n bits at `RCUR` of its source into `DATA_OUT`, zero-extended, and moves `RCUR` past them;
nothing else changes; a failed RDB changes only `ERR`, the width check first. -/
def Obligations.RdbReadsTheField : Prop :=
  (∀ n, n < 64 → decode (0x4 ||| BitVec.ofNat 32 n <<< 4) = .instr (.rdb n .packBuffer) ∧
    decode (0x404 ||| BitVec.ofNat 32 n <<< 4) = .instr (.rdb n .rxPayload)) ∧
  ∀ (s : State) (n : Nat) (src : ReadSource),
    let limit := match src with
      | .packBuffer => 2048
      | .rxPayload => if s.rxvalid = true then 8 * s.rxPlen.toNat else 0
    let bit := fun q => match src with
      | .packBuffer => bufBit s.mem pbBase q
      | .rxPayload => bufBit s.mem rxbBase (16 + q)
    (¬ (1 ≤ n ∧ n ≤ 32) → exec (.rdb n src) s = .next { s with err := 1 }) ∧
    (1 ≤ n → n ≤ 32 → s.rcur.toNat + n > limit → exec (.rdb n src) s = .next { s with err := 2 }) ∧
    (1 ≤ n → n ≤ 32 → s.rcur.toNat + n ≤ limit →
      ∃ t, exec (.rdb n src) s = .next t ∧ t = { s with dataOut := t.dataOut, rcur := t.rcur } ∧
        t.rcur.toNat = s.rcur.toNat + n ∧
        ∀ j, t.dataOut.getLsbD j = (decide (j < n) && bit (s.rcur.toNat + j)))

/-- Any sequence of fields that fits `PB`, packed after RSTW, reads back unchanged in the same order after RSTR, and no error is
raised: the inference the spec states as "The k-th read returns v_k, and no error is raised" (40_bitpacker.md, laws of the unit).
The host's accesses are the ones the pseudo-instructions expand to. -/
def Obligations.PackedFieldsReadBack : Prop :=
  ∀ (s : State) (fields : List (Nat × Word)), Memory.wf s.mem = true → s.err = 0 →
    (∀ f ∈ fields, 1 ≤ f.1 ∧ f.1 ≤ 32 ∧ f.2.toNat < 2 ^ f.1) → (fields.map Prod.fst).sum ≤ 2048 →
    ∀ k, (hk : k < fields.length) →
      ∃ t, after (2 * fields.length + 2 * k + 4)
          (withEvents s
            (issue .rstw :: fields.flatMap pack ++ issue .rstr :: fields.flatMap unpack)) = .next t ∧
        t.reply = .word (fields[k]).2 ∧ t.dataOut = (fields[k]).2 ∧ t.err = 0

/-! ### The frame codec -/

/-- 41_framecodec.md R150, R152: FENC frames the bits of `PB` below `WCUR`, its padding bits sent as 0, and changes only
`TXF`, `TXLEN` and `TXVALID`; on EMPTY_PAYLOAD and on FRAME_TOO_LONG only `ERR` and `TXVALID` change. -/
def Obligations.FencBuildsTheFrame : Prop :=
  (∀ dest : Byte, decode (0x5 ||| dest.setWidth 32 <<< 12) = .instr (.fenc dest)) ∧
  ∀ (s : State) (dest : Byte), s.params.Valid →
    (s.wcur.toNat < 8 → exec (.fenc dest) s = .next { s with err := 5, txvalid := false }) ∧
    (8 ≤ s.wcur.toNat → (s.wcur.toNat + 7) / 8 + s.params.frameOverhead > 255 →
      exec (.fenc dest) s = .next { s with err := 6, txvalid := false }) ∧
    (Memory.wf s.mem = true → 8 ≤ s.wcur.toNat → (s.wcur.toNat + 7) / 8 + s.params.frameOverhead ≤ 255 →
      ∃ t, exec (.fenc dest) s = .next t ∧
        t = { s with mem := t.mem, txlen := t.txlen, txvalid := t.txvalid } ∧
        SentFrame t dest s.wcur.toNat (bufBit s.mem pbBase) ∧
        ∀ a, ¬ (0x200 ≤ a ∧ a ≤ 0x2FF) → Memory.read t.mem a = Memory.read s.mem a)

/-- 41_framecodec.md R160, R161: FDEC accepts exactly the frames whose length, checksum and byte count are right, checked in
that order, and loads the decoded-frame registers; every failure is CHECKSUM_ERROR, with `LENBAD` set for a length failure and
clear for a checksum mismatch; nothing else changes. -/
def Obligations.FdecChecksInOrder : Prop :=
  decode 0x00000006 = .instr .fdec ∧
  ∀ s : State,
    let l := s.rxlen.toNat
    let checked := checksum s.params ((List.range (l - 1)).map (rxbByte s)) = rxbByte s (l - 1)
    let counted := (rxbByte s 1).toNat = (l - 3) + s.params.frameOverhead
    (¬ (4 ≤ l ∧ l ≤ 256) → exec .fdec s = .next { s with err := 3, lenbad := true, rxvalid := false }) ∧
    (4 ≤ l → l ≤ 256 → ¬ checked → exec .fdec s = .next { s with err := 3, lenbad := false, rxvalid := false }) ∧
    (4 ≤ l → l ≤ 256 → checked → ¬ counted →
      exec .fdec s = .next { s with err := 3, lenbad := true, rxvalid := false }) ∧
    (4 ≤ l → l ≤ 256 → checked → counted →
      exec .fdec s = .next { s with
        rxDest := rxbByte s 0, rxCount := rxbByte s 1, rxType := rxbByte s 2
        rxPlen := BitVec.ofNat 8 (l - 3), rxvalid := true })

/-- The inference the spec states as "Frame round trip" (41_framecodec.md, FDEC): the frame a successful FENC builds, copied
into `RXB` and decoded, is accepted, gives back the destination, the message type and the payload length, and RDB reads from
it the payload bits it reads from `PB`, below `WCUR`. -/
def Obligations.EncodedFrameDecodes : Prop :=
  ∀ (s t u : State) (dest : Byte), s.params.Valid → Memory.wf s.mem = true → exec (.fenc dest) s = .next t → t.txvalid = true →
    u.params = t.params → u.rxlen = t.txlen → (∀ k, k < t.txlen.toNat → rxbByte u k = txfByte t k) →
    ∃ v, exec .fdec u = .next v ∧ v.rxvalid = true ∧ v.err = u.err ∧ v.rxDest = dest ∧ v.rxType = pbByte s 0 ∧
      v.rxPlen.toNat = (s.wcur.toNat + 7) / 8 ∧
      ∀ c n, 1 ≤ n → n ≤ 32 → c + n ≤ s.wcur.toNat →
        ∃ x y, exec (.rdb n .rxPayload) { v with rcur := BitVec.ofNat 12 c } = .next x ∧
          exec (.rdb n .packBuffer) { s with rcur := BitVec.ofNat 12 c } = .next y ∧
          x.dataOut = y.dataOut ∧ x.err = v.err ∧ y.err = s.err

/-- The inference the spec states as "Corruption detection" (41_framecodec.md, FDEC): flipping one bit of the byte count or of a
payload byte of an accepted frame makes FDEC raise CHECKSUM_ERROR with `LENBAD` = 0, for every `CHECKSUM` with the property of
00_scope.md section 4; for `sum8` a flip in the destination is caught as well. -/
def Obligations.SingleBitCorruptionIsDetected : Prop :=
  ∀ (u u' v : State) (k j : Nat), exec .fdec u = .next v → v.rxvalid = true →
    u'.params = u.params → u'.rxlen = u.rxlen → k + 1 < u.rxlen.toNat → j < 8 →
    rxbByte u' k = rxbByte u k ^^^ BitVec.twoPow 8 j → (∀ m, m < 256 → m ≠ k → rxbByte u' m = rxbByte u m) →
    (ChecksumDetects (checksum u.params) ∧ 1 ≤ k ∨ u.params.checksum = .sum8) →
    exec .fdec u' = .next { u' with err := 3, lenbad := false, rxvalid := false }

/-- The default `CHECKSUM` has the property the spec requires: the inference the spec states as "The default `sum8(b) = (Σ b[k])
mod 256` has the property" (00_scope.md section 4). -/
def Obligations.Sum8DetectsSingleBitChanges : Prop := ChecksumDetects sum8

/-! ### The sensor-config serializer -/

/-- 42_sensorconfig.md R182 to R191, R193, R196: SCFG sends exactly the payload that the configuration describes: when every sent
same-transfer count fits and the frame is not too long, `PB` holds the payload's bits from bit 0, `WCUR` is their number, `TXF`
holds their frame to `BOARD_ADDR[i]`, and every other bit, byte and register stays. -/
def Obligations.ScfgSendsTheConfiguredPayload : Prop :=
  ∀ (s : State) (i : BoardPair), s.params.Valid → Memory.wf s.mem = true →
    let k := pairNumber i
    let bits := payloadBits s k
    CountsFit s (2 * k) → CountsFit s (2 * k + 1) → (bits.length + 7) / 8 + s.params.frameOverhead ≤ 255 →
    ∃ t, exec (.scfg i) s = .next t ∧
      t = { s with mem := t.mem, wcur := t.wcur, txlen := t.txlen, txvalid := t.txvalid } ∧
      t.wcur.toNat = bits.length ∧
      (∀ q, q < bits.length → bufBit t.mem pbBase q = bits.getD q false) ∧
      (∀ q, bits.length ≤ q → q < 2048 → bufBit t.mem pbBase q = bufBit s.mem pbBase q) ∧
      SentFrame t (pairAddress s i) bits.length (fun q => bits.getD q false) ∧
      ∀ a, 0x100 ≤ a → ¬ (0x200 ≤ a ∧ a ≤ 0x2FF) → Memory.read t.mem a = Memory.read s.mem a

/-- Whatever SCFG answers, `PB` below `WCUR` is a prefix of the payload the configuration describes. It stopped at the first step of
the build that fails, with `WCUR` the number of bits of the steps before it and `PB` holding exactly those; or the build passed
but is too long for a frame, with `WCUR` and `PB` the whole payload; or it succeeded, with the whole payload framed
(42_sensorconfig.md R195: the state after a failed SCFG). -/
def Obligations.ScfgLeavesAPrefixOfThePayload : Prop :=
  ∀ (s t : State) (i : BoardPair), s.params.Valid → exec (.scfg i) s = .next t →
    let steps := payloadSteps s (pairNumber i)
    let bits := payloadBits s (pairNumber i)
    let tooLong := (bits.length + 7) / 8 + s.params.frameOverhead > 255
    t.wcur.toNat ≤ bits.length ∧
    (Memory.wf s.mem = true → ∀ q, q < t.wcur.toNat → bufBit t.mem pbBase q = bits.getD q false) ∧
    (Memory.wf s.mem = true → ∀ q, t.wcur.toNat ≤ q → q < 2048 → bufBit t.mem pbBase q = bufBit s.mem pbBase q) ∧
    (t.txvalid = true → AllPass steps ∧ ¬ tooLong ∧ t.wcur.toNat = bits.length ∧ t.err = s.err) ∧
    (t.txvalid = false →
      (∃ before step rest code, steps = before ++ step :: rest ∧ AllPass before ∧ FailsAfter before step code ∧
        StoppedBuild s t (stepBits before) code) ∨
      (AllPass steps ∧ tooLong ∧ StoppedBuild s t bits 6))

/-- Which error SCFG raises, and where it stops: the first step of the build that fails decides (60_exceptions.md R234, item 6).
CONFIG_ERROR if it is a count check, BUFFER_OVERFLOW if it is a field with no room, with `WCUR` and `PB` exactly what the steps
before it appended; FRAME_TOO_LONG, with the whole payload packed, if every step passes and the byte count is above 255. -/
def Obligations.ScfgErrors : Prop :=
  ∀ (s : State) (i : BoardPair), s.params.Valid →
    let steps := payloadSteps s (pairNumber i)
    (∀ before step rest code, steps = before ++ step :: rest → AllPass before → FailsAfter before step code →
      ∃ t, exec (.scfg i) s = .next t ∧ StoppedBuild s t (stepBits before) code) ∧
    (AllPass steps → ((stepBits steps).length + 7) / 8 + s.params.frameOverhead > 255 →
      ∃ t, exec (.scfg i) s = .next t ∧ StoppedBuild s t (stepBits steps) 6)

/-- The length of the payload of a successful SCFG, from the widths, the device counts and the write counts: the inference the
spec states as "The length of SCFG's payload in bits is" (42_sensorconfig.md, laws of the serializer). -/
def Obligations.ScfgPayloadLength : Prop :=
  ∀ (s t : State) (i : BoardPair), s.params.Valid → exec (.scfg i) s = .next t → t.txvalid = true →
    let P := s.params
    let device := fun p d => P.wAddr + P.wSet +
      if sameTransfer s p d = true then P.wWc + P.wRc + sentField s p d 2 * P.wOut else 0
    let port := fun p =>
      if sentType s p ∈ P.i2cFamily then P.wSpeed + P.wCnt + ((List.range (sentCount s p)).map (device p)).sum else 0
    let k := pairNumber i
    t.wcur.toNat = 24 + port (2 * k) + port (2 * k + 1)

/-- The inference the spec states as "Ultrasonic substitution property" (42_sensorconfig.md, laws of the serializer): a port
configured ultrasonic-continuous, whatever its device table holds, is sent as one synthesized device under the type `TYPE_I2C`;
either port of the pair, or both, with a port of another type sent as it is configured. -/
def Obligations.ScfgUltrasonicSubstitution : Prop :=
  ∀ (s : State) (i : BoardPair), s.params.Valid → Memory.wf s.mem = true →
    let k := pairNumber i
    let P := s.params
    let configured := fun p => Memory.read s.mem (0x800 + 0x100 * p)
    let type := fun p => if configured p = 33 then P.typeI2c else configured p
    let block := fun p =>
      if configured p = 33 then
        fieldBits P.wSpeed (Memory.read s.mem (0x801 + 0x100 * p)).toNat ++ fieldBits P.wCnt 0 ++
          fieldBits P.wAddr (P.usI2cAddr.toNat / 2) ++ fieldBits P.wSet (2 ^ P.midBit ||| 2 ^ P.sameBit) ++
          fieldBits P.wWc 1 ++ fieldBits P.wRc 1 ++ fieldBits P.wOut P.usDataReg.toNat
      else portBits s p
    let bits := fieldBits 8 2 ++ fieldBits 8 (type (2 * k)).toNat ++ fieldBits 8 (type (2 * k + 1)).toNat ++
      block (2 * k) ++ block (2 * k + 1)
    (configured (2 * k) = 33 ∨ configured (2 * k + 1) = 33) →
    (configured (2 * k) ≠ 33 → CountsFit s (2 * k)) → (configured (2 * k + 1) ≠ 33 → CountsFit s (2 * k + 1)) →
    (bits.length + 7) / 8 + P.frameOverhead ≤ 255 →
    ∃ t, exec (.scfg i) s = .next t ∧ t.wcur.toNat = bits.length ∧ t.err = s.err ∧
      SentFrame t (pairAddress s i) bits.length (fun q => bits.getD q false) ∧
      ∀ a, 0x800 ≤ a → Memory.read t.mem a = Memory.read s.mem a

/-- A device count outside 1..8 is clamped silently: SCFG answers as it does with the clamped count stored, the inference the spec
states as "Device clamping property" (42_sensorconfig.md, laws of the serializer; 60_exceptions.md section 3). -/
def Obligations.ScfgClampsTheDeviceCount : Prop :=
  ∀ (s : State) (i : BoardPair) (p : Nat) (t t' : State), Memory.wf s.mem = true → p < 4 →
    let addr := 0x802 + 0x100 * p
    let clamped : Byte := BitVec.ofNat 8 (min (max (Memory.read s.mem addr).toNat 1) 8)
    let s' := { s with mem := Memory.write s.mem addr clamped }
    exec (.scfg i) s = .next t → exec (.scfg i) s' = .next t' →
    t' = { t with mem := t'.mem } ∧ ∀ a, a ≠ addr → Memory.read t'.mem a = Memory.read t.mem a

/-- SCFG depends on the configuration only through the bytes the host is asked to write before it: with those bytes equal, and
`PB`, `TXF` and every register equal, it answers the same (70_reset_and_hazards.md section 2). -/
def Obligations.ScfgReadsOnlyTheRequiredConfiguration : Prop :=
  ∀ (s : State) (i : BoardPair) (mem' : List Host.Cell) (t t' : State),
    let k := pairNumber i
    Memory.wf s.mem = true → Memory.wf mem' = true →
    (∀ a ∈ configRead s (2 * k) ++ configRead s (2 * k + 1), Memory.read mem' a = Memory.read s.mem a) →
    (∀ a, a ≤ 0xFF ∨ 0x200 ≤ a ∧ a ≤ 0x2FF → Memory.read mem' a = Memory.read s.mem a) →
    exec (.scfg i) s = .next t → exec (.scfg i) { s with mem := mem' } = .next t' →
    t' = { t with mem := t'.mem } ∧
      ∀ a, a ≤ 0xFF ∨ 0x200 ≤ a ∧ a ≤ 0x2FF → Memory.read t'.mem a = Memory.read t.mem a

/-! ### Control -/

/-- 43_control.md R220: CLRS clears `ERR` and `LENBAD` and changes nothing else; it is the one word that runs while `ERR` ≠ 0; a
CLRS word with any other bit set is ignored then, and is illegal while `ERR` = 0. -/
def Obligations.ClrsClearsTheError : Prop :=
  decode 0x00000008 = .instr .clrs ∧ (∀ s : State, exec .clrs s = .next { s with err := 0, lenbad := false }) ∧
  (∀ (s : State) (rest : List HostEvent), s.host = .store32 0x700 0x00000008 :: rest →
    step s = .next { s with host := rest, reply := .nothing, cmd := 0x00000008, err := 0, lenbad := false }) ∧
  ∀ (s : State) (w : Word) (rest : List HostEvent), s.host = .store32 0x700 w :: rest → w.extractLsb' 0 4 = 8 →
    w ≠ 0x00000008 →
    (s.err ≠ 0 → step s = .next { s with host := rest, reply := .nothing, cmd := w }) ∧
    (s.err = 0 → step s = .next { s with host := rest, reply := .nothing, cmd := w, err := 7 })

/-- Reading a byte after writing it gives the byte written, and every other byte reads as before (20_memory.md section 3). -/
def Obligations.ByteReadAfterWrite : Prop :=
  ∀ (m : List Host.Cell) (a b : Nat) (v : Byte), Memory.wf m = true →
    Memory.read (Memory.write m a v) b = if b = a then v else Memory.read m b

/-! ### The careful host (60_exceptions.md R245; its record and its marks are the model's own, log 5) -/

/-- The careful host has no move that breaks a duty of the table of 60_exceptions.md section 5, row by row: build, encode, exchange,
decode, unpack, configure. (The record that says when a duty is broken is the model's choice, log 5.) -/
def Obligations.CarefulHostBreaksNoDuty : Prop :=
  ∀ x : Session,
    let refused (m : HostMove) : Prop := ∃ duty, sessionStep m x = .refused (.hostDuty duty)
    let command (w : Word) : HostMove := .access (.store32 0x700 w)
    let starts (w : Word) : Prop := decode w = .instr .rstw ∨ ∃ i, decode w = .instr (.scfg i)
    let encodes (w : Word) : Prop := (∃ dest, decode w = .instr (.fenc dest)) ∨ ∃ i, decode w = .instr (.scfg i)
    (∀ w, x.host.message ≠ .none ∨ x.host.exchangeOpen = true → starts w → refused (command w)) ∧
    (∀ w n, x.host.exchangeOpen = true → decode w = .instr (.addb n) → refused (command w)) ∧
    (x.block.txvalid = false → refused .send) ∧
    (∀ w, x.host.exchangeOpen = true → encodes w → refused (command w)) ∧
    (x.host.replyAwaited = true → refused .send ∧ refused .endExchange) ∧
    (x.host.replyAwaited = false → ∀ reply, refused (.receive reply)) ∧
    (∀ w, decode w = .instr .fdec →
      (x.host.replyAwaited = true ∨ 0x71C ∉ x.host.written ∨
        (∃ k, k < x.block.rxlen.toNat ∧ k < 256 ∧ 0x400 + k ∉ x.host.written) ∨
        ∃ reply, x.host.received = some reply ∧ (reply.length ≠ x.block.rxlen.toNat ∨
          ∃ k, k < reply.length ∧ k < 256 ∧ reply.getD k 0 ≠ rxbByte x.block k)) →
      refused (command w)) ∧
    (x.host.statusRead = false → refused .rely) ∧
    ∀ w i a, decode w = .instr (.scfg i) →
      a ∈ configRead x.block (2 * pairNumber i) ++ configRead x.block (2 * pairNumber i + 1) → a ∉ x.host.written →
      refused (command w)

/-- What the careful host may do (60_exceptions.md section 5): at any time every accepted access but a write to `CMD`, reset, the
commands that neither build nor encode nor decode, and every illegal word; outside an exchange ADDB and FENC; with no message open
either, RSTW, and SCFG once the bytes it reads are written; FDEC once the reply is loaded, an over-long one too; a send and a retry
of a valid frame, one receive for each send, and the end of an exchange whose sends are all paired. (The record that says which of
them holds is the model's choice, log 5.) -/
def Obligations.CarefulHostMay : Prop :=
  ∀ x : Session,
    let has (m : HostMove) : Prop := ∃ y, sessionStep m x = .next y
    let command (w : Word) : HostMove := .access (.store32 0x700 w)
    (∀ e, Accepted e → (∀ w, e ≠ .store32 0x700 w) → has (.access e)) ∧
    (∀ w, (decode w = .instr .nop ∨ decode w = .instr .rstr ∨ decode w = .instr .clrs ∨
        (∃ n src, decode w = .instr (.rdb n src)) ∨ ∃ why, decode w = .illegal why) → has (command w)) ∧
    (∀ w, x.host.exchangeOpen = false →
      ((∃ n, decode w = .instr (.addb n)) ∨ (∃ dest, decode w = .instr (.fenc dest)) ∨
        (x.host.message = .none ∧ decode w = .instr .rstw)) → has (command w)) ∧
    (∀ w i, x.host.exchangeOpen = false → x.host.message = .none → decode w = .instr (.scfg i) →
      (∀ a ∈ configRead x.block (2 * pairNumber i) ++ configRead x.block (2 * pairNumber i + 1), a ∈ x.host.written) →
      has (command w)) ∧
    (∀ w, x.host.replyAwaited = false → decode w = .instr .fdec → 0x71C ∈ x.host.written →
      (∀ k, k < x.block.rxlen.toNat → k < 256 → 0x400 + k ∈ x.host.written) →
      (∀ reply, x.host.received = some reply → reply.length = x.block.rxlen.toNat ∧
        ∀ k, k < reply.length → k < 256 → reply.getD k 0 = rxbByte x.block k) → has (command w)) ∧
    (x.host.replyAwaited = false → x.block.txvalid = true → has .send) ∧
    (x.host.replyAwaited = true → ∀ reply, has (.receive reply)) ∧
    (x.host.exchangeOpen = true → x.host.replyAwaited = false → has .endExchange) ∧
    (x.host.statusRead = true → has .rely)

/-- A careful session is a run of the block: its accesses, performed in order by `step`, take the block to the same state
(20_memory.md section 4; 00_scope.md section 3). So what holds of every run of the block holds of the careful host's. -/
def Obligations.CarefulSessionIsARunOfTheBlock : Prop :=
  ∀ (ms : List HostMove) (x y : Session) (rest : List HostEvent), sessionRun ms x = .next y →
    after (accesses ms).length { x.block with host := accesses ms ++ rest } = .next { y.block with host := rest }

/-- From legal states a careful session keeps legal states: the block's, and `TXVALID` = 1 for the whole of an exchange, so that each
retry may be sent, and while the open message's frame is in `TXF`; a reply is awaited only within an exchange (60_exceptions.md
section 5). It starts in one. -/
def Obligations.CarefulSessionKeepsStatesLegal : Prop :=
  let legal (x : Session) : Prop := Inv x.block ∧ (x.host.exchangeOpen = true → x.block.txvalid = true) ∧
    (x.host.message = .encoded → x.block.txvalid = true) ∧ (x.host.replyAwaited = true → x.host.exchangeOpen = true)
  legal Session.reset ∧ ∀ (ms : List HostMove) (x y : Session), legal x → sessionRun ms x = .next y → legal y

/-- Until an exchange ends, and without a reset, no move of the careful host changes the frame in `TXF`, its length or `TXVALID`, or
which message it is of: each retry resends the identical frame (70_reset_and_hazards.md section 3). What is sent is a whole frame. -/
def Obligations.FrameIsHeldThroughTheExchange : Prop :=
  (∀ (ms : List HostMove) (x y : Session), x.host.exchangeOpen = true → .endExchange ∉ ms → .access .resetInput ∉ ms →
    sessionRun ms x = .next y →
    y.host.exchangeOpen = true ∧ y.host.message = x.host.message ∧ y.block.txlen = x.block.txlen ∧
      y.block.txvalid = x.block.txvalid ∧ ∀ k, k < 256 → txfByte y.block k = txfByte x.block k) ∧
  ∀ x y : Session, Inv x.block → sessionStep .send x = .next y →
    y.block = x.block ∧ y.host.exchangeOpen = true ∧ IsFrame x.block.params (txfByte x.block) x.block.txlen.toNat

/-- When the careful host's FDEC succeeds after a receive, what it decoded is the reply: the reply is a whole frame, and the
decoded-frame registers hold its destination, its byte count, its message type and its payload length
(70_reset_and_hazards.md section 3, 41_framecodec.md). -/
def Obligations.CarefulDecodeIsOfTheReply : Prop :=
  ∀ (x y : Session) (w : Word) (reply : List Byte), x.host.received = some reply → decode w = .instr .fdec → x.block.err = 0 →
    sessionStep (.access (.store32 0x700 w)) x = .next y → y.block.rxvalid = true →
    IsFrame x.block.params (fun k => reply.getD k 0) reply.length ∧
    y.block.rxDest = reply.getD 0 0 ∧ y.block.rxCount = reply.getD 1 0 ∧ y.block.rxType = reply.getD 2 0 ∧
    y.block.rxPlen.toNat = reply.length - 3

/-- What one move of the careful host does to the message (70_reset_and_hazards.md section 3). RSTW opens one, a successful ADDB leaves
one open, a successful FENC or SCFG leaves one open with its frame in `TXF`. An open message ends only by reset, by the end of the
exchange of its own frame, or by a FENC that finds it too long for a frame. (What the record calls a message is log 5's.) -/
def Obligations.MessageStaysOpenUntilItsExchangeEnds : Prop :=
  ∀ (m : HostMove) (x y : Session), sessionStep m x = .next y →
    let command (w : Word) : HostMove := .access (.store32 0x700 w)
    (∀ w i, m = command w → decode w = .instr i → x.block.err = 0 → y.block.err = 0 →
      (i = .rstw ∨ (∃ n, i = .addb n) → y.host.message = .building) ∧
      ((∃ dest, i = .fenc dest) ∨ (∃ p, i = .scfg p) → y.host.message = .encoded)) ∧
    (x.host.message ≠ .none → y.host.message = .none →
      m = .access .resetInput ∨
      (m = .endExchange ∧ x.host.message = .encoded ∧ x.host.exchangeOpen = true) ∨
      ∃ w dest, m = command w ∧ decode w = .instr (.fenc dest) ∧ x.block.err = 0 ∧ y.block.err = 6)

/-- One build at a time, over any session: from a state with an open message, until reset, the end of the exchange of its own frame
or a FENC that finds it too long for a frame, every RSTW and every SCFG is refused; an exchange of an older frame, a failed ADDB and
a FENC of too few bits change nothing in that (70_reset_and_hazards.md section 3; what the record calls a message is log 5's). -/
def Obligations.NoOtherMessageBeforeItsExchangeEnds : Prop :=
  ∀ (ms : List HostMove) (x y : Session) (w : Word), x.host.message ≠ .none → sessionRun ms x = .next y →
    .access .resetInput ∉ ms →
    (∀ before rest u, ms = before ++ .endExchange :: rest → sessionRun before x = .next u → u.host.message ≠ .encoded) →
    (∀ before rest v dest u, ms = before ++ .access (.store32 0x700 v) :: rest → decode v = .instr (.fenc dest) →
      sessionRun (before ++ [.access (.store32 0x700 v)]) x = .next u → u.block.err ≠ 6) →
    (decode w = .instr .rstw ∨ ∃ i, decode w = .instr (.scfg i)) →
    y.host.message ≠ .none ∧ ∃ duty, sessionStep (.access (.store32 0x700 w)) y = .refused (.hostDuty duty)
end

