-- ==== Sys2Proof/Laws/Memory.lean ====
section
/-! SUPPORT. The byte memory: reading after writing, and the canonical form, which every memory operation keeps. -/

namespace Sys2Proof.Machine

/-! ### The canonical form -/

theorem risesAbove_of_le {a b : Nat} (h : a ≤ b) :
    ∀ {m : List Host.Cell}, Memory.risesAbove b m = true → Memory.risesAbove a m = true
  | [], _ => rfl
  | (c, v) :: m, hm => by
    simp only [Memory.risesAbove, Bool.and_eq_true, decide_eq_true_eq] at hm ⊢
    exact ⟨⟨by omega, hm.1.2⟩, hm.2⟩

theorem wf_of_risesAbove {a : Nat} : ∀ {m : List Host.Cell}, Memory.risesAbove a m = true → Memory.wf m = true
  | [], _ => rfl
  | (c, v) :: m, hm => by
    simp only [Memory.risesAbove, Memory.wf, Bool.and_eq_true, decide_eq_true_eq] at hm ⊢
    exact ⟨hm.1.2, hm.2⟩

/-- Below the first cell nothing is listed. -/
theorem read_of_risesAbove {a : Nat} :
    ∀ {m : List Host.Cell} {b : Nat}, Memory.risesAbove a m = true → b ≤ a → Memory.read m b = unlistedByte
  | [], _, _, _ => rfl
  | (c, v) :: m, b, hm, hb => by
    simp only [Memory.risesAbove, Bool.and_eq_true, decide_eq_true_eq] at hm
    rw [Memory.read, if_neg (by omega)]
    exact read_of_risesAbove hm.2 (by omega)

/-- A write at or above the bound keeps the form above the bound. -/
theorem risesAbove_write {c : Nat} (a : Nat) (v : Byte) (hc : c < a) :
    ∀ {m : List Host.Cell}, Memory.risesAbove c m = true → Memory.risesAbove c (Memory.write m a v) = true
  | [], _ => by
    by_cases hv : v = unlistedByte <;> simp [Memory.write, Memory.risesAbove, hv, hc]
  | (b, w) :: m, hm => by
    simp only [Memory.risesAbove, Bool.and_eq_true, decide_eq_true_eq] at hm
    unfold Memory.write
    by_cases hv : v = unlistedByte
    · by_cases h₁ : a < b
      · simp [hv, h₁, Memory.risesAbove, hm]
      · by_cases h₂ : a = b
        · simpa [hv, h₁, h₂] using risesAbove_of_le (Nat.le_of_lt hm.1.1) hm.2
        · simpa [hv, h₁, h₂, Memory.risesAbove, hm.1] using
            hv ▸ risesAbove_write a v (by omega : b < a) hm.2
    · by_cases h₁ : a < b
      · simp [hv, h₁, Memory.risesAbove, hm, hc]
      · by_cases h₂ : a = b
        · subst h₂
          simp [hv, Memory.risesAbove, hm]
        · simpa [h₁, h₂, Memory.risesAbove, hm.1] using risesAbove_write a v (by omega : b < a) hm.2

/-- A write keeps the canonical form. -/
theorem wf_write (m : List Host.Cell) (a : Nat) (v : Byte) (hm : Memory.wf m = true) :
    Memory.wf (Memory.write m a v) = true := by
  cases m with
  | nil => by_cases hv : v = unlistedByte <;> simp [Memory.write, Memory.wf, Memory.risesAbove, hv]
  | cons cell m =>
    obtain ⟨b, w⟩ := cell
    simp only [Memory.wf, Bool.and_eq_true, decide_eq_true_eq] at hm
    unfold Memory.write
    by_cases h₁ : a < b
    · by_cases hv : v = unlistedByte <;> simp [h₁, hv, Memory.wf, Memory.risesAbove, hm]
    · by_cases h₂ : a = b
      · by_cases hv : v = unlistedByte
        · simpa [h₁, h₂, hv] using wf_of_risesAbove hm.2
        · simp [h₂, hv, Memory.wf, hm]
      · simpa [h₁, h₂, Memory.wf, hm.1] using risesAbove_write a v (by omega : b < a) hm.2

/-! ### Reading after writing -/

/-- A write leaves every other byte alone. -/
theorem read_write_other {a b : Nat} (v : Byte) (h : b ≠ a) :
    ∀ m : List Host.Cell, Memory.read (Memory.write m a v) b = Memory.read m b
  | [] => by
    by_cases hv : v = unlistedByte <;> simp [Memory.write, Memory.read, hv, h]
  | (c, w) :: m => by
    unfold Memory.write
    by_cases h₁ : a < c
    · by_cases hv : v = unlistedByte <;> simp [h₁, hv, Memory.read, h]
    · by_cases h₂ : a = c
      · subst h₂
        by_cases hv : v = unlistedByte <;> simp [hv, Memory.read, h]
      · simp only [h₁, h₂, if_false, Memory.read]
        rw [read_write_other v h m]

/-- In the canonical form the byte written is the byte read. -/
theorem read_write_same (a : Nat) (v : Byte) :
    ∀ m : List Host.Cell, Memory.wf m = true → Memory.read (Memory.write m a v) a = v
  | [], _ => by
    by_cases hv : v = unlistedByte <;> simp [Memory.write, Memory.read, hv]
  | (c, w) :: m, hm => by
    simp only [Memory.wf, Bool.and_eq_true, decide_eq_true_eq] at hm
    unfold Memory.write
    by_cases h₁ : a < c
    · by_cases hv : v = unlistedByte
      · rw [if_pos h₁, if_pos hv, Memory.read, if_neg (by omega), read_of_risesAbove hm.2 (by omega), hv]
      · simp [h₁, hv, Memory.read]
    · by_cases h₂ : a = c
      · subst h₂
        by_cases hv : v = unlistedByte
        · simpa [hv] using read_of_risesAbove hm.2 (Nat.le_refl _)
        · simp [hv, Memory.read]
      · rw [if_neg h₁, if_neg h₂, Memory.read, if_neg h₂]
        exact read_write_same a v m (wf_of_risesAbove hm.2)

/-! ### Runs of bytes -/

theorem wf_writeBytes : ∀ (vs : List Byte) (m : List Host.Cell) (a : Nat), Memory.wf m = true →
    Memory.wf (Memory.writeBytes m a vs) = true
  | [], _, _, hm => hm
  | v :: vs, m, a, hm => wf_writeBytes vs _ _ (wf_write m a v hm)

/-- A run of bytes leaves every byte outside it alone. -/
theorem read_writeBytes_other : ∀ (vs : List Byte) (m : List Host.Cell) (a b : Nat), b < a ∨ a + vs.length ≤ b →
    Memory.read (Memory.writeBytes m a vs) b = Memory.read m b
  | [], _, _, _, _ => rfl
  | v :: vs, m, a, b, h => by
    simp only [List.length_cons] at h
    rw [Memory.writeBytes, read_writeBytes_other vs _ _ _ (by omega), read_write_other v (by omega)]

/-- Byte `k` of a run of bytes is the byte written. -/
theorem read_writeBytes : ∀ (vs : List Byte) (m : List Host.Cell) (a k : Nat), Memory.wf m = true → k < vs.length →
    Memory.read (Memory.writeBytes m a vs) (a + k) = vs.getD k 0
  | [], _, _, _, _, hk => absurd hk (Nat.not_lt_zero _)
  | v :: vs, m, a, 0, hm, _ => by
    rw [Memory.writeBytes, read_writeBytes_other vs _ _ _ (by omega)]
    simpa using read_write_same a v m hm
  | v :: vs, m, a, k + 1, hm, hk => by
    rw [Memory.writeBytes, show a + (k + 1) = a + 1 + k by omega,
      read_writeBytes vs _ _ k (wf_write m a v hm) (by simpa using hk)]
    simp

/-! ### Where cells may lie -/

/-- A write adds no cell but the one at its own address. -/
theorem mem_write {a : Nat} {v : Byte} {c : Host.Cell} :
    ∀ {m : List Host.Cell}, c ∈ Memory.write m a v → c ∈ m ∨ c.1 = a
  | [], h => by
    by_cases hv : v = unlistedByte <;> simp_all [Memory.write]
  | (b, w) :: m, h => by
    unfold Memory.write at h
    split at h
    · split at h
      · exact .inl h
      · rcases List.mem_cons.mp h with rfl | h
        · exact .inr rfl
        · exact .inl h
    · split at h
      · rename_i h₂
        split at h
        · exact .inl (List.mem_cons_of_mem _ h)
        · rcases List.mem_cons.mp h with rfl | h
          · exact .inr h₂.symm
          · exact .inl (List.mem_cons_of_mem _ h)
      · rcases List.mem_cons.mp h with rfl | h
        · exact .inl List.mem_cons_self
        · rcases mem_write h with h | h
          · exact .inl (List.mem_cons_of_mem _ h)
          · exact .inr h

theorem mem_writeBytes {c : Host.Cell} : ∀ {vs : List Byte} {m : List Host.Cell} {a : Nat},
    c ∈ Memory.writeBytes m a vs → c ∈ m ∨ (a ≤ c.1 ∧ c.1 < a + vs.length)
  | [], _, _, h => .inl h
  | v :: vs, m, a, h => by
    simp only [List.length_cons]
    rcases mem_writeBytes (vs := vs) h with h | h
    · rcases mem_write h with h | h
      · exact .inl h
      · exact .inr (by omega)
    · exact .inr (by omega)

end Sys2Proof.Machine
end

