-- ==== Sys2Proof/Laws/Bits.lean ====
section
/-! SUPPORT. Bits and fields of a buffer: what writing and reading a field does. -/

namespace Sys2Proof.Machine

/-! ### One bit of a byte -/

theorem getLsbD_setByteBit (x : Byte) {j : Nat} (b : Bool) (hj : j < 8) (k : Nat) :
    (setByteBit x j b).getLsbD k = if k = j then b else x.getLsbD k := by
  unfold setByteBit
  by_cases hk : k < 8
  · cases b
    · by_cases hkj : k = j
      · simp [hkj, hj]
      · have : j ≠ k := fun h => hkj h.symm
        simp [hk, hkj]
    · by_cases hkj : k = j
      · simp [hkj, hj]
      · have : j ≠ k := fun h => hkj h.symm
        simp [hkj, this]
  · have hkj : k ≠ j := by omega
    have h : 8 ≤ k := by omega
    rw [if_neg hkj, BitVec.getLsbD_of_ge _ _ h, BitVec.getLsbD_of_ge _ _ h]

/-! ### One bit of a buffer -/

theorem wf_setBufBit {m : List Host.Cell} (base p : Nat) (b : Bool) (hm : Memory.wf m = true) :
    Memory.wf (setBufBit m base p b) = true := wf_write _ _ _ hm

theorem read_setBufBit_other (m : List Host.Cell) {base p a : Nat} (b : Bool) (h : a ≠ bitAddr base p) :
    Memory.read (setBufBit m base p b) a = Memory.read m a := read_write_other _ h m

/-- Setting a bit sets that bit and no other, of any buffer laid over the same addresses. -/
theorem bufBit_setBufBit {m : List Host.Cell} (base p q : Nat) (b : Bool) (hm : Memory.wf m = true) :
    bufBit (setBufBit m base p b) base q = if q = p then b else bufBit m base q := by
  unfold bufBit setBufBit
  by_cases ha : bitAddr base q = bitAddr base p
  · rw [ha, read_write_same _ _ _ hm, getLsbD_setByteBit _ _ (Nat.mod_lt _ (by omega))]
    unfold bitAddr at ha
    by_cases hq : q = p
    · simp [hq]
    · rw [if_neg hq, if_neg (by omega)]
  · rw [read_write_other _ ha]
    by_cases hq : q = p
    · exact absurd (by rw [hq]) ha
    · rw [if_neg hq]

/-! ### A field -/

theorem wf_writeField {m : List Host.Cell} (base c : Nat) (v : Word) (hm : Memory.wf m = true) :
    ∀ n, Memory.wf (writeField m base c v n) = true
  | 0 => hm
  | n + 1 => wf_setBufBit _ _ _ (wf_writeField base c v hm n)

/-- Writing a field puts bit j of the value at position c + j and leaves every other bit of the buffer. -/
theorem bufBit_writeField {m : List Host.Cell} (base c : Nat) (v : Word) (hm : Memory.wf m = true) (q : Nat) :
    ∀ n, bufBit (writeField m base c v n) base q =
      if c ≤ q ∧ q < c + n then v.getLsbD (q - c) else bufBit m base q
  | 0 => by rw [if_neg (by omega), writeField]
  | n + 1 => by
    rw [writeField, bufBit_setBufBit _ _ _ _ (wf_writeField base c v hm n), bufBit_writeField base c v hm q n]
    by_cases hq : q = c + n
    · rw [if_pos hq, if_pos (by omega), hq, Nat.add_sub_cancel_left]
    · rw [if_neg hq]
      by_cases hr : c ≤ q ∧ q < c + n
      · rw [if_pos hr, if_pos (by omega)]
      · rw [if_neg hr, if_neg (by omega)]

/-- Writing a field leaves every byte alone that holds none of its bits. -/
theorem read_writeField_other (m : List Host.Cell) {base c a : Nat} (v : Word) :
    ∀ n, (∀ j, j < n → a ≠ bitAddr base (c + j)) → Memory.read (writeField m base c v n) a = Memory.read m a
  | 0, _ => rfl
  | n + 1, h => by
    rw [writeField, read_setBufBit_other _ _ (h n (by omega)),
      read_writeField_other m v n fun j hj => h j (by omega)]

/-- Writing a field adds no cell outside the bytes that hold its bits. -/
theorem mem_writeField {m : List Host.Cell} {base c : Nat} {v : Word} {cell : Host.Cell} :
    ∀ n, cell ∈ writeField m base c v n → cell ∈ m ∨ (base + c / 8 ≤ cell.1 ∧ cell.1 ≤ base + (c + n - 1) / 8)
  | 0, h => .inl h
  | n + 1, h => by
    rcases mem_write h with h | h
    · rcases mem_writeField n h with h | h
      · exact .inl h
      · exact .inr (by omega)
    · unfold bitAddr at h
      exact .inr (by omega)

/-- Reading a field gives bit j of the source from c + j, zero-extended. -/
theorem getLsbD_readField (bit : Nat → Bool) (c j : Nat) :
    ∀ n, n ≤ 32 → (readField bit c n).getLsbD j = (decide (j < n) && bit (c + j))
  | 0, _ => by simp [readField]
  | n + 1, hn => by
    have ih := getLsbD_readField bit c j n (by omega)
    rw [readField]
    by_cases hj : j = n
    · subst hj
      cases hb : bit (c + j) <;> simp [ih, hb]
      omega
    · have : n ≠ j := fun h => hj h.symm
      have hlt : decide (j < n + 1) = decide (j < n) := decide_eq_decide.mpr (by omega)
      rw [hlt]
      cases hb : bit (c + n) <;> simp [ih, this]

/-- Bits of two buffers agree where their bytes agree. -/
theorem bufBit_congr {m m' : List Host.Cell} {base p : Nat}
    (h : Memory.read m' (bitAddr base p) = Memory.read m (bitAddr base p)) : bufBit m' base p = bufBit m base p := by
  unfold bufBit; rw [h]

/-- Bytes of two buffers agree where their bits agree. -/
theorem read_eq_of_bufBit {m m' : List Host.Cell} {base base' k k' : Nat}
    (h : ∀ j, j < 8 → bufBit m' base' (8 * k' + j) = bufBit m base (8 * k + j)) :
    Memory.read m' (base' + k') = Memory.read m (base + k) := by
  refine BitVec.eq_of_getLsbD_eq fun j hj => ?_
  have := h j hj
  unfold bufBit bitAddr at this
  rwa [show (8 * k' + j) / 8 = k' by omega, show (8 * k' + j) % 8 = j by omega, show (8 * k + j) / 8 = k by omega,
    show (8 * k + j) % 8 = j by omega] at this

end Sys2Proof.Machine
end

