-- ==== Sys2Proof/Laws/Decode.lean ====
section
/-! SUPPORT. The command word and its fields: a word with its reserved bits 0 is exactly its fields put together. -/

namespace Sys2Proof

/-! ### Bit `k` of a word built from fields -/

theorem getLsbD_wordOf (d : BitVec 8) (p r : BitVec 1) (n : BitVec 6) (o : BitVec 4) (k : Nat) :
    (wordOf d p r n o).getLsbD k =
      if k < 4 then o.getLsbD k else if k < 10 then n.getLsbD (k - 4) else if k < 11 then r.getLsbD (k - 10)
      else if k < 12 then p.getLsbD (k - 11) else if k < 20 then d.getLsbD (k - 12) else false := by
  unfold wordOf
  simp only [BitVec.getLsbD_append, Nat.sub_sub, BitVec.getLsbD_zero]
  repeat' split
  all_goals first | rfl | omega

/-! ### The fields of a word built from fields -/

theorem opField_wordOf (d p r n o) : opField (wordOf d p r n o) = o := by
  refine BitVec.eq_of_getLsbD_eq fun k hk => ?_
  rw [opField, BitVec.getLsbD_extractLsb', getLsbD_wordOf]
  simp [hk]

theorem nField_wordOf (d p r n o) : nField (wordOf d p r n o) = n := by
  refine BitVec.eq_of_getLsbD_eq fun k hk => ?_
  rw [nField, BitVec.getLsbD_extractLsb', getLsbD_wordOf, if_neg (by omega), if_pos (by omega), Nat.add_sub_cancel_left]
  simp [hk]

theorem srcField_wordOf (d p r n o) : srcField (wordOf d p r n o) = r := by
  refine BitVec.eq_of_getLsbD_eq fun k hk => ?_
  rw [srcField, BitVec.getLsbD_extractLsb', getLsbD_wordOf, if_neg (by omega), if_neg (by omega), if_pos (by omega),
    Nat.add_sub_cancel_left]
  simp [hk]

theorem pairField_wordOf (d p r n o) : pairField (wordOf d p r n o) = p := by
  refine BitVec.eq_of_getLsbD_eq fun k hk => ?_
  rw [pairField, BitVec.getLsbD_extractLsb', getLsbD_wordOf, if_neg (by omega), if_neg (by omega), if_neg (by omega),
    if_pos (by omega), Nat.add_sub_cancel_left]
  simp [hk]

theorem destField_wordOf (d p r n o) : destField (wordOf d p r n o) = d := by
  refine BitVec.eq_of_getLsbD_eq fun k hk => ?_
  rw [destField, BitVec.getLsbD_extractLsb', getLsbD_wordOf, if_neg (by omega), if_neg (by omega), if_neg (by omega),
    if_neg (by omega), if_pos (by omega), Nat.add_sub_cancel_left]
  simp [hk]

theorem reservedField_wordOf (d p r n o) : reservedField (wordOf d p r n o) = 0 := by
  refine BitVec.eq_of_getLsbD_eq fun k hk => ?_
  rw [reservedField, BitVec.getLsbD_extractLsb', getLsbD_wordOf, if_neg (by omega), if_neg (by omega),
    if_neg (by omega), if_neg (by omega), if_neg (by omega)]
  simp

/-- A word whose reserved bits are 0 is its fields put together. -/
theorem wordOf_fields {w : Word} (h : reservedField w = 0) :
    wordOf (destField w) (pairField w) (srcField w) (nField w) (opField w) = w := by
  refine BitVec.eq_of_getLsbD_eq fun k hk => ?_
  rw [getLsbD_wordOf]
  simp only [opField, nField, srcField, pairField, destField, BitVec.getLsbD_extractLsb']
  by_cases hr : k < 20
  · repeat' split
    all_goals
      rw [show decide _ = true from decide_eq_true (by omega), Bool.true_and]
      congr 1
      omega
  · have hk' : (reservedField w).getLsbD (k - 20) = false := by rw [h]; simp
    rw [reservedField, BitVec.getLsbD_extractLsb', show 20 + (k - 20) = k by omega, show decide (k - 20 < 12) = true from decide_eq_true (by omega),
      Bool.true_and] at hk'
    rw [hk']
    repeat' split
    all_goals first | rfl | omega

/-! ### The one-bit operands -/

@[simp] theorem ReadSource.ofBit_bit (r : ReadSource) : ReadSource.ofBit r.bit = r := by cases r <;> rfl
@[simp] theorem BoardPair.ofBit_bit (p : BoardPair) : BoardPair.ofBit p.bit = p := by cases p <;> rfl
@[simp] theorem ReadSource.bit_ofBit (b : BitVec 1) : (ReadSource.ofBit b).bit = b := by revert b; decide
@[simp] theorem BoardPair.bit_ofBit (b : BitVec 1) : (BoardPair.ofBit b).bit = b := by revert b; decide

/-! ### What a decoded word is -/

/-- A word decodes to a command exactly when the opcode names it, the reserved bits are 0 and the fields it does not use
are 0. -/
theorem decode_eq_instr {w : Word} {i : Instr} :
    decode w = .instr i ↔ commandOf w = some i ∧ reservedField w = 0 ∧ unusedFieldsZero i w = true := by
  unfold decode
  cases commandOf w with
  | none => simp
  | some j =>
    by_cases hr : reservedField w = 0
    · by_cases hu : unusedFieldsZero j w = true
      · simp only [hr, hu, ne_eq, not_true_eq_false, if_false, if_true, Decoded.instr.injEq, Option.some.injEq]
        constructor
        · rintro rfl; exact ⟨rfl, trivial, hu⟩
        · rintro ⟨rfl, -⟩; rfl
      · simp only [hr, hu, ne_eq, not_true_eq_false, if_false, Option.some.injEq]
        constructor
        · intro h; cases h
        · rintro ⟨rfl, -, h⟩; exact absurd h hu
    · simp only [ne_eq, hr, not_false_eq_true, if_true]
      constructor
      · intro h; cases h
      · rintro ⟨-, h, -⟩; exact absurd h not_false

end Sys2Proof
end

