-- ==== Sys2Proof/Laws/State.lean ====
section
/-! SUPPORT. What each update of the state leaves in each field. -/

namespace Sys2Proof.Machine

/-! ### `raise` -/

@[simp] theorem raise_cmd (e : BlockError) (s : State) : (raise e s).cmd = s.cmd := rfl
@[simp] theorem raise_dataIn (e : BlockError) (s : State) : (raise e s).dataIn = s.dataIn := rfl
@[simp] theorem raise_dataOut (e : BlockError) (s : State) : (raise e s).dataOut = s.dataOut := rfl
@[simp] theorem raise_mem (e : BlockError) (s : State) : (raise e s).mem = s.mem := rfl
@[simp] theorem raise_wcur (e : BlockError) (s : State) : (raise e s).wcur = s.wcur := rfl
@[simp] theorem raise_rcur (e : BlockError) (s : State) : (raise e s).rcur = s.rcur := rfl
@[simp] theorem raise_txlen (e : BlockError) (s : State) : (raise e s).txlen = s.txlen := rfl
@[simp] theorem raise_rxlen (e : BlockError) (s : State) : (raise e s).rxlen = s.rxlen := rfl
@[simp] theorem raise_rxDest (e : BlockError) (s : State) : (raise e s).rxDest = s.rxDest := rfl
@[simp] theorem raise_rxCount (e : BlockError) (s : State) : (raise e s).rxCount = s.rxCount := rfl
@[simp] theorem raise_rxType (e : BlockError) (s : State) : (raise e s).rxType = s.rxType := rfl
@[simp] theorem raise_rxPlen (e : BlockError) (s : State) : (raise e s).rxPlen = s.rxPlen := rfl
@[simp] theorem raise_err (e : BlockError) (s : State) : (raise e s).err = e.code := rfl
@[simp] theorem raise_lenbad (e : BlockError) (s : State) : (raise e s).lenbad = s.lenbad := rfl
@[simp] theorem raise_rxvalid (e : BlockError) (s : State) : (raise e s).rxvalid = s.rxvalid := rfl
@[simp] theorem raise_txvalid (e : BlockError) (s : State) : (raise e s).txvalid = s.txvalid := rfl
@[simp] theorem raise_boardAddr0 (e : BlockError) (s : State) : (raise e s).boardAddr0 = s.boardAddr0 := rfl
@[simp] theorem raise_boardAddr1 (e : BlockError) (s : State) : (raise e s).boardAddr1 = s.boardAddr1 := rfl
@[simp] theorem raise_params (e : BlockError) (s : State) : (raise e s).params = s.params := rfl
@[simp] theorem raise_host (e : BlockError) (s : State) : (raise e s).host = s.host := rfl
@[simp] theorem raise_reply (e : BlockError) (s : State) : (raise e s).reply = s.reply := rfl

/-! ### `clearError` -/

@[simp] theorem clearError_cmd (s : State) : (clearError s).cmd = s.cmd := rfl
@[simp] theorem clearError_dataIn (s : State) : (clearError s).dataIn = s.dataIn := rfl
@[simp] theorem clearError_dataOut (s : State) : (clearError s).dataOut = s.dataOut := rfl
@[simp] theorem clearError_mem (s : State) : (clearError s).mem = s.mem := rfl
@[simp] theorem clearError_wcur (s : State) : (clearError s).wcur = s.wcur := rfl
@[simp] theorem clearError_rcur (s : State) : (clearError s).rcur = s.rcur := rfl
@[simp] theorem clearError_txlen (s : State) : (clearError s).txlen = s.txlen := rfl
@[simp] theorem clearError_rxlen (s : State) : (clearError s).rxlen = s.rxlen := rfl
@[simp] theorem clearError_rxDest (s : State) : (clearError s).rxDest = s.rxDest := rfl
@[simp] theorem clearError_rxCount (s : State) : (clearError s).rxCount = s.rxCount := rfl
@[simp] theorem clearError_rxType (s : State) : (clearError s).rxType = s.rxType := rfl
@[simp] theorem clearError_rxPlen (s : State) : (clearError s).rxPlen = s.rxPlen := rfl
@[simp] theorem clearError_err (s : State) : (clearError s).err = 0 := rfl
@[simp] theorem clearError_lenbad (s : State) : (clearError s).lenbad = false := rfl
@[simp] theorem clearError_rxvalid (s : State) : (clearError s).rxvalid = s.rxvalid := rfl
@[simp] theorem clearError_txvalid (s : State) : (clearError s).txvalid = s.txvalid := rfl
@[simp] theorem clearError_boardAddr0 (s : State) : (clearError s).boardAddr0 = s.boardAddr0 := rfl
@[simp] theorem clearError_boardAddr1 (s : State) : (clearError s).boardAddr1 = s.boardAddr1 := rfl
@[simp] theorem clearError_params (s : State) : (clearError s).params = s.params := rfl
@[simp] theorem clearError_host (s : State) : (clearError s).host = s.host := rfl
@[simp] theorem clearError_reply (s : State) : (clearError s).reply = s.reply := rfl

/-! ### `failEncode` -/

@[simp] theorem failEncode_cmd (e : BlockError) (s : State) : (failEncode e s).cmd = s.cmd := rfl
@[simp] theorem failEncode_dataIn (e : BlockError) (s : State) : (failEncode e s).dataIn = s.dataIn := rfl
@[simp] theorem failEncode_dataOut (e : BlockError) (s : State) : (failEncode e s).dataOut = s.dataOut := rfl
@[simp] theorem failEncode_mem (e : BlockError) (s : State) : (failEncode e s).mem = s.mem := rfl
@[simp] theorem failEncode_wcur (e : BlockError) (s : State) : (failEncode e s).wcur = s.wcur := rfl
@[simp] theorem failEncode_rcur (e : BlockError) (s : State) : (failEncode e s).rcur = s.rcur := rfl
@[simp] theorem failEncode_txlen (e : BlockError) (s : State) : (failEncode e s).txlen = s.txlen := rfl
@[simp] theorem failEncode_rxlen (e : BlockError) (s : State) : (failEncode e s).rxlen = s.rxlen := rfl
@[simp] theorem failEncode_rxDest (e : BlockError) (s : State) : (failEncode e s).rxDest = s.rxDest := rfl
@[simp] theorem failEncode_rxCount (e : BlockError) (s : State) : (failEncode e s).rxCount = s.rxCount := rfl
@[simp] theorem failEncode_rxType (e : BlockError) (s : State) : (failEncode e s).rxType = s.rxType := rfl
@[simp] theorem failEncode_rxPlen (e : BlockError) (s : State) : (failEncode e s).rxPlen = s.rxPlen := rfl
@[simp] theorem failEncode_err (e : BlockError) (s : State) : (failEncode e s).err = e.code := rfl
@[simp] theorem failEncode_lenbad (e : BlockError) (s : State) : (failEncode e s).lenbad = s.lenbad := rfl
@[simp] theorem failEncode_rxvalid (e : BlockError) (s : State) : (failEncode e s).rxvalid = s.rxvalid := rfl
@[simp] theorem failEncode_txvalid (e : BlockError) (s : State) : (failEncode e s).txvalid = false := rfl
@[simp] theorem failEncode_boardAddr0 (e : BlockError) (s : State) : (failEncode e s).boardAddr0 = s.boardAddr0 := rfl
@[simp] theorem failEncode_boardAddr1 (e : BlockError) (s : State) : (failEncode e s).boardAddr1 = s.boardAddr1 := rfl
@[simp] theorem failEncode_params (e : BlockError) (s : State) : (failEncode e s).params = s.params := rfl
@[simp] theorem failEncode_host (e : BlockError) (s : State) : (failEncode e s).host = s.host := rfl
@[simp] theorem failEncode_reply (e : BlockError) (s : State) : (failEncode e s).reply = s.reply := rfl

/-! ### `failDecode` -/

@[simp] theorem failDecode_cmd (b : Bool) (l : Nat) (s : State) : (failDecode b l s).cmd = s.cmd := rfl
@[simp] theorem failDecode_dataIn (b : Bool) (l : Nat) (s : State) : (failDecode b l s).dataIn = s.dataIn := rfl
@[simp] theorem failDecode_dataOut (b : Bool) (l : Nat) (s : State) : (failDecode b l s).dataOut = s.dataOut := rfl
@[simp] theorem failDecode_mem (b : Bool) (l : Nat) (s : State) : (failDecode b l s).mem = s.mem := rfl
@[simp] theorem failDecode_wcur (b : Bool) (l : Nat) (s : State) : (failDecode b l s).wcur = s.wcur := rfl
@[simp] theorem failDecode_rcur (b : Bool) (l : Nat) (s : State) : (failDecode b l s).rcur = s.rcur := rfl
@[simp] theorem failDecode_txlen (b : Bool) (l : Nat) (s : State) : (failDecode b l s).txlen = s.txlen := rfl
@[simp] theorem failDecode_rxlen (b : Bool) (l : Nat) (s : State) : (failDecode b l s).rxlen = s.rxlen := rfl
@[simp] theorem failDecode_rxDest (b : Bool) (l : Nat) (s : State) : (failDecode b l s).rxDest = s.rxDest := rfl
@[simp] theorem failDecode_rxCount (b : Bool) (l : Nat) (s : State) : (failDecode b l s).rxCount = s.rxCount := rfl
@[simp] theorem failDecode_rxType (b : Bool) (l : Nat) (s : State) : (failDecode b l s).rxType = s.rxType := rfl
@[simp] theorem failDecode_rxPlen (b : Bool) (l : Nat) (s : State) : (failDecode b l s).rxPlen = s.rxPlen := rfl
@[simp] theorem failDecode_err (b : Bool) (l : Nat) (s : State) : (failDecode b l s).err = 3 := rfl
@[simp] theorem failDecode_lenbad (b : Bool) (l : Nat) (s : State) : (failDecode b l s).lenbad = b := rfl
@[simp] theorem failDecode_rxvalid (b : Bool) (l : Nat) (s : State) : (failDecode b l s).rxvalid = false := rfl
@[simp] theorem failDecode_txvalid (b : Bool) (l : Nat) (s : State) : (failDecode b l s).txvalid = s.txvalid := rfl
@[simp] theorem failDecode_boardAddr0 (b : Bool) (l : Nat) (s : State) : (failDecode b l s).boardAddr0 = s.boardAddr0 := rfl
@[simp] theorem failDecode_boardAddr1 (b : Bool) (l : Nat) (s : State) : (failDecode b l s).boardAddr1 = s.boardAddr1 := rfl
@[simp] theorem failDecode_params (b : Bool) (l : Nat) (s : State) : (failDecode b l s).params = s.params := rfl
@[simp] theorem failDecode_host (b : Bool) (l : Nat) (s : State) : (failDecode b l s).host = s.host := rfl
@[simp] theorem failDecode_reply (b : Bool) (l : Nat) (s : State) : (failDecode b l s).reply = s.reply := rfl

/-! ### `endRxView` -/

@[simp] theorem endRxView_cmd (s : State) : (endRxView s).cmd = s.cmd := rfl
@[simp] theorem endRxView_dataIn (s : State) : (endRxView s).dataIn = s.dataIn := rfl
@[simp] theorem endRxView_dataOut (s : State) : (endRxView s).dataOut = s.dataOut := rfl
@[simp] theorem endRxView_mem (s : State) : (endRxView s).mem = s.mem := rfl
@[simp] theorem endRxView_wcur (s : State) : (endRxView s).wcur = s.wcur := rfl
@[simp] theorem endRxView_rcur (s : State) : (endRxView s).rcur = s.rcur := rfl
@[simp] theorem endRxView_txlen (s : State) : (endRxView s).txlen = s.txlen := rfl
@[simp] theorem endRxView_rxlen (s : State) : (endRxView s).rxlen = s.rxlen := rfl
@[simp] theorem endRxView_rxDest (s : State) : (endRxView s).rxDest = s.rxDest := rfl
@[simp] theorem endRxView_rxCount (s : State) : (endRxView s).rxCount = s.rxCount := rfl
@[simp] theorem endRxView_rxType (s : State) : (endRxView s).rxType = s.rxType := rfl
@[simp] theorem endRxView_rxPlen (s : State) : (endRxView s).rxPlen = s.rxPlen := rfl
@[simp] theorem endRxView_err (s : State) : (endRxView s).err = s.err := rfl
@[simp] theorem endRxView_lenbad (s : State) : (endRxView s).lenbad = s.lenbad := rfl
@[simp] theorem endRxView_rxvalid (s : State) : (endRxView s).rxvalid = false := rfl
@[simp] theorem endRxView_txvalid (s : State) : (endRxView s).txvalid = s.txvalid := rfl
@[simp] theorem endRxView_boardAddr0 (s : State) : (endRxView s).boardAddr0 = s.boardAddr0 := rfl
@[simp] theorem endRxView_boardAddr1 (s : State) : (endRxView s).boardAddr1 = s.boardAddr1 := rfl
@[simp] theorem endRxView_params (s : State) : (endRxView s).params = s.params := rfl
@[simp] theorem endRxView_host (s : State) : (endRxView s).host = s.host := rfl
@[simp] theorem endRxView_reply (s : State) : (endRxView s).reply = s.reply := rfl

end Sys2Proof.Machine
end

