-- ==== Sys2Proof/Laws/Frame.lean ====
section
/-! SUPPORT. Building and checking frames: everything `frameTo` and FDEC can do. -/

namespace Sys2Proof.Machine

open Sys2Proof.Config Sys2Proof.Safety

/-! ### What `frameTo` answers -/

/-- The state of a frame that is built. -/
def framed (dest : Byte) (s : State) : State :=
  { s with
    mem := Memory.writeBytes s.mem txfBase (txImage (frameBytes dest s))
    txlen := BitVec.ofNat 9 (ceil8 s.wcur.toNat + 3)
    txvalid := true }

theorem frameTo_empty {dest : Byte} {s : State} (h : s.wcur.toNat < 8) :
    frameTo dest s = failEncode (.emptyPayload s.wcur.toNat) s := by
  unfold frameTo
  simp only
  rw [if_pos h]

theorem frameTo_long {dest : Byte} {s : State} (h : 8 ≤ s.wcur.toNat)
    (h' : ceil8 s.wcur.toNat + s.params.frameOverhead > 255) :
    frameTo dest s = failEncode (.frameTooLong (ceil8 s.wcur.toNat + s.params.frameOverhead)) s := by
  unfold frameTo
  simp only
  rw [if_neg (by omega), if_pos h']

theorem frameTo_built {dest : Byte} {s : State} (h : 8 ≤ s.wcur.toNat)
    (h' : ceil8 s.wcur.toNat + s.params.frameOverhead ≤ 255) : frameTo dest s = framed dest s := by
  unfold frameTo framed
  simp only
  rw [if_neg (by omega), if_neg (by omega)]

/-- Everything `frameTo` can do. -/
theorem frameTo_cases (dest : Byte) (s : State) :
    (s.wcur.toNat < 8 ∧ frameTo dest s = failEncode (.emptyPayload s.wcur.toNat) s) ∨
    (8 ≤ s.wcur.toNat ∧ ceil8 s.wcur.toNat + s.params.frameOverhead > 255 ∧
      frameTo dest s = failEncode (.frameTooLong (ceil8 s.wcur.toNat + s.params.frameOverhead)) s) ∨
    (8 ≤ s.wcur.toNat ∧ ceil8 s.wcur.toNat + s.params.frameOverhead ≤ 255 ∧ frameTo dest s = framed dest s) := by
  by_cases h : s.wcur.toNat < 8
  · exact .inl ⟨h, frameTo_empty h⟩
  · by_cases h' : ceil8 s.wcur.toNat + s.params.frameOverhead > 255
    · exact .inr (.inl ⟨by omega, h', frameTo_long (by omega) h'⟩)
    · exact .inr (.inr ⟨by omega, by omega, frameTo_built (by omega) (by omega)⟩)

theorem framed_mem (dest : Byte) (s : State) :
    (framed dest s).mem = Memory.writeBytes s.mem txfBase (txImage (frameBytes dest s)) := by rw [framed]

@[simp] theorem framed_cmd (dest : Byte) (s : State) : (framed dest s).cmd = s.cmd := by rw [framed]
@[simp] theorem framed_dataIn (dest : Byte) (s : State) : (framed dest s).dataIn = s.dataIn := by rw [framed]
@[simp] theorem framed_dataOut (dest : Byte) (s : State) : (framed dest s).dataOut = s.dataOut := by rw [framed]
@[simp] theorem framed_wcur (dest : Byte) (s : State) : (framed dest s).wcur = s.wcur := by rw [framed]
@[simp] theorem framed_rcur (dest : Byte) (s : State) : (framed dest s).rcur = s.rcur := by rw [framed]
@[simp] theorem framed_rxlen (dest : Byte) (s : State) : (framed dest s).rxlen = s.rxlen := by rw [framed]
@[simp] theorem framed_rxDest (dest : Byte) (s : State) : (framed dest s).rxDest = s.rxDest := by rw [framed]
@[simp] theorem framed_rxCount (dest : Byte) (s : State) : (framed dest s).rxCount = s.rxCount := by rw [framed]
@[simp] theorem framed_rxType (dest : Byte) (s : State) : (framed dest s).rxType = s.rxType := by rw [framed]
@[simp] theorem framed_rxPlen (dest : Byte) (s : State) : (framed dest s).rxPlen = s.rxPlen := by rw [framed]
@[simp] theorem framed_err (dest : Byte) (s : State) : (framed dest s).err = s.err := by rw [framed]
@[simp] theorem framed_lenbad (dest : Byte) (s : State) : (framed dest s).lenbad = s.lenbad := by rw [framed]
@[simp] theorem framed_rxvalid (dest : Byte) (s : State) : (framed dest s).rxvalid = s.rxvalid := by rw [framed]
@[simp] theorem framed_boardAddr0 (dest : Byte) (s : State) : (framed dest s).boardAddr0 = s.boardAddr0 := by rw [framed]
@[simp] theorem framed_boardAddr1 (dest : Byte) (s : State) : (framed dest s).boardAddr1 = s.boardAddr1 := by rw [framed]
@[simp] theorem framed_params (dest : Byte) (s : State) : (framed dest s).params = s.params := by rw [framed]
@[simp] theorem framed_host (dest : Byte) (s : State) : (framed dest s).host = s.host := by rw [framed]
@[simp] theorem framed_reply (dest : Byte) (s : State) : (framed dest s).reply = s.reply := by rw [framed]
@[simp] theorem framed_txlen (dest : Byte) (s : State) :
    (framed dest s).txlen = BitVec.ofNat 9 (ceil8 s.wcur.toNat + 3) := by rw [framed]
@[simp] theorem framed_txvalid (dest : Byte) (s : State) : (framed dest s).txvalid = true := by rw [framed]

/-! ### The bytes of a frame -/

@[simp] theorem length_txImage (frame : List Byte) : (txImage frame).length = 256 := by simp [txImage]

theorem getD_txImage (frame : List Byte) {k : Nat} (hk : k < 256) : (txImage frame).getD k 0 = frame.getD k 0 := by
  rw [List.getD_eq_getElem _ _ (by simpa using hk)]
  simp [txImage]

@[simp] theorem length_frameBody (dest : Byte) (s : State) :
    (frameBody dest s).length = ceil8 s.wcur.toNat + 2 := by simp [frameBody]

@[simp] theorem length_frameBytes (dest : Byte) (s : State) :
    (frameBytes dest s).length = ceil8 s.wcur.toNat + 3 := by simp [frameBytes]

/-- A list is its own elements by index. -/
theorem map_getD_range (l : List Byte) : (List.range l.length).map (fun k => l.getD k 0) = l := by
  refine List.ext_getElem (by simp) fun k h₁ h₂ => ?_
  rw [List.getElem_map, List.getElem_range, List.getD_eq_getElem _ _ h₂]

/-- `TXF` after a frame is built. -/
theorem txfByte_framed {dest : Byte} {s : State} (hm : Memory.wf s.mem = true) {k : Nat} (hk : k < 256) :
    txfByte (framed dest s) k = (frameBytes dest s).getD k 0 := by
  rw [txfByte, framed_mem, read_writeBytes _ _ _ _ hm (by rw [length_txImage]; exact hk), getD_txImage _ hk]

/-- A frame that is built leaves every byte outside `TXF` alone. -/
theorem read_framed_other (dest : Byte) (s : State) {a : Nat} (h : ¬ (0x200 ≤ a ∧ a ≤ 0x2FF)) :
    Memory.read (framed dest s).mem a = Memory.read s.mem a := by
  rw [framed_mem]
  exact read_writeBytes_other _ _ _ _ (by rw [length_txImage]; unfold txfBase; omega)

theorem wf_framed (dest : Byte) {s : State} (h : Memory.wf s.mem = true) : Memory.wf (framed dest s).mem = true := by
  rw [framed_mem]
  exact wf_writeBytes _ _ _ h

theorem mem_framed {dest : Byte} {s : State} {c : Host.Cell} (h : c ∈ (framed dest s).mem) :
    c ∈ s.mem ∨ (0x200 ≤ c.1 ∧ c.1 < 0x300) := by
  rw [framed_mem] at h
  rcases mem_writeBytes h with h | h
  · exact .inl h
  · simp only [length_txImage, txfBase] at h
    exact .inr (by omega)

/-- The mask keeps the bits below the cursor in the last payload byte. -/
theorem getLsbD_paddingMask (w : Nat) {j : Nat} (hj : j < 8) :
    (paddingMask w).getLsbD j = decide (w % 8 = 0 ∨ j < w % 8) := by
  unfold paddingMask
  by_cases h : w % 8 = 0
  · rw [if_pos h, BitVec.getLsbD_allOnes]
    simp [h, hj]
  · rw [if_neg h, BitVec.getLsbD_ofNat, Nat.testBit_two_pow_sub_one]
    simp [h, hj]

/-- Bit `j` of payload byte `k`: the packed bit, or 0 at and above the cursor. -/
theorem getLsbD_payloadByte (s : State) {w k j : Nat} (hk : k < ceil8 w) (hj : j < 8) :
    (payloadByte s w k).getLsbD j = (decide (8 * k + j < w) && bufBit s.mem pbBase (8 * k + j)) := by
  unfold payloadByte bufBit bitAddr pbByte
  unfold ceil8 at *
  rw [show (8 * k + j) / 8 = k by omega, show (8 * k + j) % 8 = j by omega]
  by_cases h : k + 1 = (w + 7) / 8
  · rw [if_pos h, BitVec.getLsbD_and, getLsbD_paddingMask w hj, Bool.and_comm]
    congr 1
    exact decide_eq_decide.mpr (by omega)
  · rw [if_neg h, show decide (8 * k + j < w) = true from decide_eq_true (by omega), Bool.true_and]

/-- Payload byte `k` of a frame. -/
theorem getD_frameBytes_payload (dest : Byte) (s : State) {k : Nat} (hk : k < ceil8 s.wcur.toNat) :
    (frameBytes dest s).getD (2 + k) 0 = payloadByte s s.wcur.toNat k := by
  unfold frameBytes
  rw [List.getD_append _ _ _ _ (by simp; omega)]
  unfold frameBody
  rw [show 2 + k = k + 1 + 1 by omega]
  simp only [List.getD_cons_succ]
  rw [List.getD_eq_getElem _ _ (by simpa using hk)]
  simp

/-- A frame that is built is the frame of the bits below the cursor. -/
theorem sentFrame_framed (dest : Byte) {s : State} (hm : Memory.wf s.mem = true) (ho : 2 ≤ s.params.frameOverhead)
    (h' : ceil8 s.wcur.toNat + s.params.frameOverhead ≤ 255) :
    SentFrame (framed dest s) dest s.wcur.toNat (bufBit s.mem pbBase) where
  len := by
    show (BitVec.ofNat 9 _).toNat = _
    rw [BitVec.toNat_ofNat, Nat.mod_eq_of_lt (by omega)]
    rfl
  dest := by
    rw [txfByte_framed hm (by omega)]
    rfl
  count := by
    rw [txfByte_framed hm (by omega)]
    show (BitVec.ofNat 8 _).toNat = _
    rw [BitVec.toNat_ofNat, Nat.mod_eq_of_lt (by omega)]
    rfl
  payload := fun q hq => by
    have hk : q / 8 < ceil8 s.wcur.toNat := by unfold ceil8; omega
    have hbyte : Memory.read (framed dest s).mem (bitAddr txfBase (16 + q)) = payloadByte s s.wcur.toNat (q / 8) := by
      rw [show bitAddr txfBase (16 + q) = txfBase + (2 + q / 8) by unfold bitAddr; omega]
      have := txfByte_framed (dest := dest) hm (show 2 + q / 8 < 256 by omega)
      rw [txfByte] at this
      rw [this, getD_frameBytes_payload dest s hk]
    rw [bufBit, hbyte, show (16 + q) % 8 = q % 8 by omega,
      getLsbD_payloadByte s hk (Nat.mod_lt _ (by omega)), Nat.div_add_mod]
  check := by
    have hP : (s.wcur.toNat + 7) / 8 = ceil8 s.wcur.toNat := rfl
    rw [hP, txfByte_framed hm (by omega), frameBytes, List.getD_append_right _ _ _ _ (by simp)]
    simp only [length_frameBody, Nat.sub_self, List.getD_cons_zero]
    rw [framed_params]
    congr 1
    conv_lhs => rw [← map_getD_range (frameBody dest s)]
    rw [length_frameBody]
    refine List.map_congr_left fun k hk => ?_
    have hk := List.mem_range.mp hk
    rw [txfByte_framed hm (by omega), frameBytes, List.getD_append _ _ _ _ (by simpa using hk)]
  rest := fun k h₁ h₂ => by
    rw [txfByte_framed hm h₂, List.getD_eq_default _ _ (by simpa [ceil8] using h₁)]
  valid := rfl

/-- What the transmit side of a state that holds a sent frame is. -/
theorem isFrame_of_sentFrame {t : State} {dest : Byte} {w : Nat} {bit : Nat → Bool} (h : SentFrame t dest w bit)
    (hw : 8 ≤ w) (ho : 2 ≤ t.params.frameOverhead) : IsFrame t.params (txfByte t) t.txlen.toNat where
  atLeast := by rw [h.len]; omega
  atMost := by
    have := h.count
    have := (txfByte t 1).isLt
    rw [h.len]; omega
  count := by rw [h.count, h.len]; omega
  check := by
    rw [h.len, show (w + 7) / 8 + 3 - 1 = (w + 7) / 8 + 2 by omega]
    exact h.check

/-! ### FDEC -/

/-- The state of a frame that is accepted. -/
def decoded (s : State) : State :=
  { s with
    rxDest := rxbByte s 0
    rxCount := rxbByte s 1
    rxType := rxbByte s 2
    rxPlen := BitVec.ofNat 8 (s.rxlen.toNat - 3)
    rxvalid := true }

/-- Everything FDEC can do. -/
theorem execFdec_cases (s : State) :
    (¬ (4 ≤ s.rxlen.toNat ∧ s.rxlen.toNat ≤ 256) ∧ execFdec s = .next (failDecode true s.rxlen.toNat s)) ∨
    (4 ≤ s.rxlen.toNat ∧ s.rxlen.toNat ≤ 256 ∧
      checksum s.params (rxBytes s (s.rxlen.toNat - 1)) ≠ rxbByte s (s.rxlen.toNat - 1) ∧
      execFdec s = .next (failDecode false s.rxlen.toNat s)) ∨
    (4 ≤ s.rxlen.toNat ∧ s.rxlen.toNat ≤ 256 ∧
      checksum s.params (rxBytes s (s.rxlen.toNat - 1)) = rxbByte s (s.rxlen.toNat - 1) ∧
      (rxbByte s 1).toNat ≠ (s.rxlen.toNat - 3) + s.params.frameOverhead ∧
      execFdec s = .next (failDecode true s.rxlen.toNat s)) ∨
    (IsFrame s.params (rxbByte s) s.rxlen.toNat ∧ execFdec s = .next (decoded s)) := by
  unfold execFdec decoded
  simp only
  by_cases h₁ : s.rxlen.toNat < 4 ∨ s.rxlen.toNat > 256
  · rw [if_pos h₁]; exact .inl ⟨by omega, rfl⟩
  · rw [if_neg h₁]
    by_cases h₂ : checksum s.params (rxBytes s (s.rxlen.toNat - 1)) = rxbByte s (s.rxlen.toNat - 1)
    · rw [if_neg (not_not.mpr h₂)]
      by_cases h₃ : (rxbByte s 1).toNat = (s.rxlen.toNat - 3) + s.params.frameOverhead
      · rw [if_neg (not_not.mpr h₃)]
        exact .inr (.inr (.inr ⟨⟨by omega, by omega, h₃, h₂.symm⟩, rfl⟩))
      · rw [if_pos h₃]; exact .inr (.inr (.inl ⟨by omega, by omega, h₂, h₃, rfl⟩))
    · rw [if_pos h₂]; exact .inr (.inl ⟨by omega, by omega, h₂, rfl⟩)

theorem execFdec_of_isFrame {s : State} (h : IsFrame s.params (rxbByte s) s.rxlen.toNat) :
    execFdec s = .next (decoded s) := by
  rcases execFdec_cases s with ⟨h', -⟩ | ⟨-, -, h', -⟩ | ⟨-, -, -, h', -⟩ | ⟨-, h'⟩
  · exact absurd ⟨h.atLeast, h.atMost⟩ h'
  · exact absurd h.check.symm h'
  · exact absurd h.count h'
  · exact h'

end Sys2Proof.Machine
end

