-- ==== Sys2Proof/Laws/Pack.lean ====
section
/-! SUPPORT. Appending fields at the write cursor: everything `appendField` and `packAll` can do. -/

namespace Sys2Proof.Machine

open Sys2Proof.Config

/-! ### One field -/

/-- An append that succeeds had room, and its state is the field written and the cursor moved. -/
theorem appendField_ok {n : Nat} {v : Word} {s t : State} (h : appendField n v s = .ok t) :
    s.wcur.toNat + n ≤ 2048 ∧
      t = { s with
        mem := writeField s.mem pbBase s.wcur.toNat v n
        wcur := BitVec.ofNat 12 (s.wcur.toNat + n) } := by
  unfold appendField at h
  simp only at h
  split at h
  · cases h
  · injection h with h
    exact ⟨by simp only [pbBits] at *; omega, h.symm⟩

/-- An append that fails had no room, raises BUFFER_OVERFLOW and changes nothing. -/
theorem appendField_failed {n : Nat} {v : Word} {s t : State} {e : BlockError} (h : appendField n v s = .failed e t) :
    2048 < s.wcur.toNat + n ∧ e = .bufferOverflow s.wcur.toNat n ∧ t = s := by
  unfold appendField at h
  simp only at h
  split at h
  · injection h with h₁ h₂
    exact ⟨by simp only [pbBits] at *; omega, h₁.symm, h₂.symm⟩
  · cases h

theorem appendField_of_fits {n : Nat} {s : State} (v : Word) (h : s.wcur.toNat + n ≤ 2048) :
    appendField n v s = .ok { s with
      mem := writeField s.mem pbBase s.wcur.toNat v n
      wcur := BitVec.ofNat 12 (s.wcur.toNat + n) } := by
  unfold appendField
  simp only [pbBits]
  rw [if_neg (by omega)]

theorem appendField_of_full {n : Nat} {s : State} (v : Word) (h : 2048 < s.wcur.toNat + n) :
    appendField n v s = .failed (.bufferOverflow s.wcur.toNat n) s := by
  unfold appendField
  simp only [pbBits]
  rw [if_pos (by omega)]

theorem toNat_cursor {c : Nat} (h : c ≤ 2048) : (BitVec.ofNat 12 c).toNat = c := by
  rw [BitVec.toNat_ofNat, Nat.mod_eq_of_lt (by omega)]

/-! ### The bits of a build -/

/-- The bits an item appends. -/
def PackItem.bits : PackItem → List Bool
  | .field n v => (List.range n).map v.getLsbD
  | .require _ _ => []

/-- The bits a list of items appends. -/
def itemBits (items : List PackItem) : List Bool := items.flatMap PackItem.bits

/-- Every condition of a list of items holds. -/
def RequirementsHold (items : List PackItem) : Prop := ∀ ok e, PackItem.require ok e ∈ items → ok = true

@[simp] theorem itemBits_nil : itemBits [] = [] := rfl
@[simp] theorem itemBits_cons (item : PackItem) (items : List PackItem) :
    itemBits (item :: items) = item.bits ++ itemBits items := rfl
@[simp] theorem itemBits_append (xs ys : List PackItem) : itemBits (xs ++ ys) = itemBits xs ++ itemBits ys := by
  simp [itemBits]

/-- A build puts these bits at the write cursor of `s`, giving `t`: the cursor moves past them, the bits of `PB` outside them,
the bytes outside `PB` and every other field stay, and the memory keeps its form. -/
structure Appended (s t : State) (bits : List Bool) : Prop where
  wcur : t.wcur.toNat = s.wcur.toNat + bits.length
  others : t = { s with mem := t.mem, wcur := t.wcur }
  wf : Memory.wf s.mem = true → Memory.wf t.mem = true
  bit : Memory.wf s.mem = true → ∀ q, bufBit t.mem pbBase q =
    if s.wcur.toNat ≤ q ∧ q < s.wcur.toNat + bits.length then bits.getD (q - s.wcur.toNat) false
    else bufBit s.mem pbBase q
  outside : ∀ a, 0x100 ≤ a → Memory.read t.mem a = Memory.read s.mem a
  cells : ∀ c ∈ t.mem, c ∈ s.mem ∨ c.1 < 0x100

theorem Appended.refl (s : State) : Appended s s [] where
  wcur := by simp
  others := rfl
  wf := id
  bit := fun _ q => by rw [if_neg]; simp
  outside := fun _ _ => rfl
  cells := fun _ h => .inl h

theorem Appended.trans {s t u : State} {xs ys : List Bool} (h₁ : Appended s t xs) (h₂ : Appended t u ys) :
    Appended s u (xs ++ ys) where
  wcur := by rw [h₂.wcur, h₁.wcur, List.length_append]; omega
  others := by rw [h₂.others, h₁.others]
  wf := fun h => h₂.wf (h₁.wf h)
  bit := fun h q => by
    rw [h₂.bit (h₁.wf h), h₁.bit h, h₁.wcur, List.length_append]
    by_cases h₃ : s.wcur.toNat + xs.length ≤ q ∧ q < s.wcur.toNat + xs.length + ys.length
    · rw [if_pos h₃, if_pos (by omega), List.getD_append_right _ _ _ _ (by omega)]
      congr 1; omega
    · rw [if_neg h₃]
      by_cases h₄ : s.wcur.toNat ≤ q ∧ q < s.wcur.toNat + xs.length
      · rw [if_pos h₄, if_pos (by omega), List.getD_append _ _ _ _ (by omega)]
      · rw [if_neg h₄, if_neg (by omega)]
  outside := fun a ha => by rw [h₂.outside a ha, h₁.outside a ha]
  cells := fun c hc => by
    rcases h₂.cells c hc with hc | hc
    · exact h₁.cells c hc
    · exact .inr hc

/-- What an append that fits does. -/
theorem appended_of_fits {s : State} {n : Nat} (v : Word) (h : s.wcur.toNat + n ≤ 2048) :
    Appended s { s with
      mem := writeField s.mem pbBase s.wcur.toNat v n
      wcur := BitVec.ofNat 12 (s.wcur.toNat + n) } ((List.range n).map v.getLsbD) where
  wcur := by simp [toNat_cursor h]
  others := rfl
  wf := fun hm => wf_writeField _ _ _ hm _
  bit := fun hm q => by
    rw [bufBit_writeField _ _ _ hm, List.length_map, List.length_range]
    by_cases hq : s.wcur.toNat ≤ q ∧ q < s.wcur.toNat + n
    · rw [if_pos hq, if_pos hq, List.getD_eq_getElem _ _ (by simp; omega)]
      simp
    · rw [if_neg hq, if_neg hq]
  outside := fun a ha => read_writeField_other _ _ _ fun j hj => by unfold bitAddr pbBase; omega
  cells := fun c hc => by
    rcases mem_writeField _ hc with h' | h'
    · exact .inl h'
    · by_cases hn : s.wcur.toNat + n = 0
      · have : n = 0 := by omega
        subst this
        exact .inl hc
      · unfold pbBase at h'
        exact .inr (by omega)

/-- A build that succeeds: every condition held, and its bits are appended, within the pack buffer. -/
theorem packAll_ok : ∀ {items : List PackItem} {s t : State}, packAll items s = .ok t →
    RequirementsHold items ∧ Appended s t (itemBits items) ∧ (s.wcur.toNat ≤ 2048 → t.wcur.toNat ≤ 2048)
  | [], s, t, h => by
    injection h with h
    subst h
    exact ⟨fun _ _ h => absurd h List.not_mem_nil, Appended.refl s, id⟩
  | .field n v :: items, s, t, h => by
    rw [packAll, packItem] at h
    cases ha : appendField n v s with
    | failed e u => rw [ha] at h; cases h
    | ok u =>
      rw [ha] at h
      obtain ⟨hfit, hu⟩ := appendField_ok ha
      obtain ⟨hr, hap, hc⟩ := packAll_ok h
      have h₁ := appended_of_fits v hfit
      rw [← hu] at h₁
      refine ⟨fun ok e hm => hr ok e ?_, h₁.trans hap, fun _ => hc ?_⟩
      · simpa using hm
      · rw [h₁.wcur]; simpa using hfit
  | .require ok e :: items, s, t, h => by
    rw [packAll, packItem] at h
    cases ok with
    | false => cases h
    | true =>
      obtain ⟨hr, hap, hc⟩ := packAll_ok (items := items) h
      refine ⟨fun ok e hm => ?_, by simpa [PackItem.bits] using hap, hc⟩
      rcases List.mem_cons.mp hm with hm | hm
      · injection hm
      · exact hr ok e hm

/-- A build that fails: the items before some item were built, and that item is the one that failed there. -/
theorem packAll_failed : ∀ {items : List PackItem} {s t : State} {e : BlockError}, packAll items s = .failed e t →
    ∃ before item rest, items = before ++ item :: rest ∧ packAll before s = .ok t ∧ packItem item t = .failed e t
  | [], _, _, _, h => by cases h
  | item :: items, s, t, e, h => by
    rw [packAll] at h
    cases hi : packItem item s with
    | ok u =>
      rw [hi] at h
      obtain ⟨before, it, rest, rfl, hb, hf⟩ := packAll_failed h
      exact ⟨item :: before, it, rest, rfl, by rw [packAll, hi]; exact hb, hf⟩
    | failed e' u =>
      rw [hi] at h
      injection h with h₁ h₂
      subst h₁ h₂
      have hu : u = s := by
        cases item with
        | field n v => exact (appendField_failed hi).2.2
        | require ok e =>
          cases ok with
          | true => cases hi
          | false => injection hi with _ h; exact h.symm
      subst hu
      exact ⟨[], item, items, rfl, rfl, hi⟩

/-- A build of two lists is the build of the first, then of the second. -/
theorem packAll_append : ∀ (xs ys : List PackItem) (s : State), packAll (xs ++ ys) s =
    match packAll xs s with
    | .ok t => packAll ys t
    | .failed e t => .failed e t
  | [], _, _ => rfl
  | x :: xs, ys, s => by
    rw [List.cons_append, packAll, packAll]
    cases packItem x s with
    | ok u => exact packAll_append xs ys u
    | failed e u => rfl

/-- The item a build fails at: a field with no room, or a condition that does not hold. -/
theorem packItem_failed {item : PackItem} {s t : State} {e : BlockError} (h : packItem item s = .failed e t) :
    (∃ n v, item = .field n v ∧ 2048 < s.wcur.toNat + n ∧ e = .bufferOverflow s.wcur.toNat n) ∨
      item = .require false e := by
  cases item with
  | field n v =>
    obtain ⟨h₁, h₂, -⟩ := appendField_failed h
    exact .inl ⟨n, v, rfl, h₁, h₂⟩
  | require ok e' =>
    cases ok with
    | true => cases h
    | false => injection h with h; subst h; exact .inr rfl

/-- A build succeeds when every condition holds and its bits fit. -/
theorem packAll_of_fits {items : List PackItem} {s : State} (hr : RequirementsHold items)
    (hfit : s.wcur.toNat + (itemBits items).length ≤ 2048) : ∃ t, packAll items s = .ok t := by
  cases h : packAll items s with
  | ok t => exact ⟨t, rfl⟩
  | failed e t =>
    obtain ⟨before, item, rest, rfl, hb, hf⟩ := packAll_failed h
    have hw := (packAll_ok hb).2.1.wcur
    rcases packItem_failed hf with ⟨n, v, rfl, hn, -⟩ | rfl
    · simp [PackItem.bits] at hfit
      omega
    · exact absurd (hr false e (by simp)) (by simp)

end Sys2Proof.Machine
end

