-- ==== Sys2Proof/Laws/Step.lean ====
section
/-! SUPPORT. One step of the machine: everything a step, a host event and each command can do. -/

namespace Sys2Proof.Machine

open Sys2Proof.Config Sys2Proof.Safety

/-! ### The commands -/

/-- Everything ADDB can do. -/
theorem execAddb_cases (n : Nat) (s : State) :
    (¬ (1 ≤ n ∧ n ≤ 32) ∧ execAddb n s = .next (raise (.invalidFieldWidth n) s)) ∨
    (1 ≤ n ∧ n ≤ 32 ∧ 2048 < s.wcur.toNat + n ∧
      execAddb n s = .next (raise (.bufferOverflow s.wcur.toNat n) s)) ∨
    (1 ≤ n ∧ n ≤ 32 ∧ s.wcur.toNat + n ≤ 2048 ∧ execAddb n s = .next { s with
      mem := writeField s.mem pbBase s.wcur.toNat s.dataIn n
      wcur := BitVec.ofNat 12 (s.wcur.toNat + n) }) := by
  unfold execAddb
  by_cases hw : 1 ≤ n ∧ n ≤ 32
  · rw [if_pos (by simp [widthLegal, minWidth, maxWidth, hw])]
    by_cases hf : s.wcur.toNat + n ≤ 2048
    · exact .inr (.inr ⟨hw.1, hw.2, hf, by rw [appendField_of_fits _ hf]⟩)
    · exact .inr (.inl ⟨hw.1, hw.2, by omega, by rw [appendField_of_full _ (by omega)]⟩)
  · refine .inl ⟨hw, ?_⟩
    rw [if_neg]
    simp only [widthLegal, minWidth, maxWidth, Bool.and_eq_true, decide_eq_true_eq]
    exact hw

/-- Everything RDB can do. -/
theorem execRdb_cases (n : Nat) (src : ReadSource) (s : State) :
    (¬ (1 ≤ n ∧ n ≤ 32) ∧ execRdb n src s = .next (raise (.invalidFieldWidth n) s)) ∨
    (1 ≤ n ∧ n ≤ 32 ∧ readLimit src s < s.rcur.toNat + n ∧
      execRdb n src s = .next (raise (.bufferOverflow s.rcur.toNat n) s)) ∨
    (1 ≤ n ∧ n ≤ 32 ∧ s.rcur.toNat + n ≤ readLimit src s ∧ execRdb n src s = .next { s with
      dataOut := readField (sourceBit src s) s.rcur.toNat n
      rcur := BitVec.ofNat 12 (s.rcur.toNat + n) }) := by
  unfold execRdb
  simp only
  by_cases hw : 1 ≤ n ∧ n ≤ 32
  · rw [if_pos (by simp [widthLegal, minWidth, maxWidth, hw])]
    by_cases hf : s.rcur.toNat + n ≤ readLimit src s
    · exact .inr (.inr ⟨hw.1, hw.2, hf, by rw [if_neg (by omega)]⟩)
    · exact .inr (.inl ⟨hw.1, hw.2, by omega, by rw [if_pos (by omega)]⟩)
  · refine .inl ⟨hw, ?_⟩
    rw [if_neg]
    simp only [widthLegal, minWidth, maxWidth, Bool.and_eq_true, decide_eq_true_eq]
    exact hw

/-- The bits a source offers lie in a buffer: at most 2048. -/
theorem readLimit_le (src : ReadSource) (s : State) : readLimit src s ≤ 2048 := by
  cases src with
  | packBuffer => exact Nat.le_refl _
  | rxPayload =>
    have := s.rxPlen.isLt
    unfold readLimit
    simp only
    split <;> omega

/-- Everything SCFG can do: the build stopped at some state, or the whole payload was framed. -/
theorem execScfg_cases (i : BoardPair) (s : State) :
    (∃ e t, packAll (pairItems s i) { s with wcur := 0 } = .failed e t ∧ execScfg i s = .next (failEncode e t)) ∨
    (∃ t, packAll (pairItems s i) { s with wcur := 0 } = .ok t ∧
      execScfg i s = .next (frameTo (boardAddr i t) t)) := by
  unfold execScfg
  cases h : packAll (pairItems s i) { s with wcur := 0 } with
  | failed e t => exact .inl ⟨e, t, rfl, rfl⟩
  | ok t => exact .inr ⟨t, rfl, rfl⟩

/-! ### Issuing a command word -/

/-- Everything a write to `CMD` can do. -/
theorem issueCommand_cases (w : Word) (s : State) :
    (s.err ≠ 0 ∧ w ≠ clrsWord ∧ issueCommand w s = .next { s with cmd := w }) ∨
    ((s.err = 0 ∨ w = clrsWord) ∧ ∃ i, decode w = .instr i ∧ issueCommand w s = exec i { s with cmd := w }) ∨
    (s.err = 0 ∧ (∃ why, decode w = .illegal why) ∧
      issueCommand w s = .next (raise (.illegalCommand w) { s with cmd := w })) := by
  unfold issueCommand
  simp only
  by_cases hg : s.err ≠ 0 ∧ w ≠ clrsWord
  · rw [if_pos hg]; exact .inl ⟨hg.1, hg.2, rfl⟩
  · rw [if_neg hg]
    have hg' : s.err = 0 ∨ w = clrsWord := by
      by_cases h : s.err = 0
      · exact .inl h
      · exact .inr (not_not.mp fun h' => hg ⟨h, h'⟩)
    cases hd : decode w with
    | instr i => exact .inr (.inl ⟨hg', i, rfl, rfl⟩)
    | illegal why =>
      refine .inr (.inr ⟨?_, ⟨why, rfl⟩, rfl⟩)
      rcases hg' with h | h
      · exact h
      · subst h
        have : decode clrsWord = .instr .clrs := by decide
        rw [this] at hd
        cases hd

/-! ### Addresses -/

/-- The byte windows are the addresses of the map. -/
theorem byteMapped_iff (a : Nat) : byteMapped a = true ↔ IsByteAddress a := by
  have hcfg : configMapped ((a - 0x800) % 0x100) = true → 0x800 ≤ a → a < 0xC00 → IsByteAddress a := by
    intro h h₁ h₂
    simp only [configMapped, Bool.or_eq_true, Bool.and_eq_true, decide_eq_true_eq] at h
    refine .inr (.inr (.inr ⟨(a - 0x800) / 0x100, by omega, ?_⟩))
    rcases h with h | ⟨⟨h₃, h₄⟩, h₅⟩
    · exact .inl ⟨(a - 0x800) % 0x100, h, by omega⟩
    · exact .inr ⟨((a - 0x800) % 0x100 - 0x10) / 0x18, ((a - 0x800) % 0x100 - 0x10) % 0x18, by omega, h₅, by omega⟩
  constructor
  · intro h
    unfold byteMapped windowOf at h
    by_cases h₁ : a < 0x100
    · exact .inl (by omega)
    · by_cases h₂ : a < 0x200
      · simp [h₁, h₂] at h
      · by_cases h₃ : a < 0x300
        · exact .inr (.inl (by omega))
        · by_cases h₄ : a < 0x400
          · simp [h₁, h₂, h₃, h₄] at h
          · by_cases h₅ : a < 0x500
            · exact .inr (.inr (.inl (by omega)))
            · by_cases h₆ : a < 0x700
              · simp [h₁, h₂, h₃, h₄, h₅, h₆] at h
              · by_cases h₇ : a < 0x738
                · simp [h₁, h₂, h₃, h₄, h₅, h₆, h₇] at h
                · by_cases h₈ : a < 0x800
                  · simp [h₁, h₂, h₃, h₄, h₅, h₆, h₇, h₈] at h
                  · by_cases h₉ : a < 0xC00
                    · by_cases hc : configMapped ((a - 0x800) % 0x100) = true
                      · exact hcfg hc (by omega) h₉
                      · simp [h₁, h₂, h₃, h₄, h₅, h₆, h₇, h₈, h₉, hc] at h
                    · simp [h₁, h₂, h₃, h₄, h₅, h₆, h₇, h₈, h₉] at h
  · intro h
    unfold byteMapped windowOf
    rcases h with h | h | h | ⟨p, hp, h⟩
    · simp [show a < 0x100 by omega]
    · simp [show ¬ a < 0x100 by omega, show ¬ a < 0x200 by omega, show a < 0x300 by omega]
    · simp [show ¬ a < 0x100 by omega, show ¬ a < 0x200 by omega, show ¬ a < 0x300 by omega,
        show ¬ a < 0x400 by omega, show a < 0x500 by omega]
    · have hc : 0x800 ≤ a ∧ a < 0xC00 ∧ configMapped ((a - 0x800) % 0x100) = true := by
        simp only [configMapped, Bool.or_eq_true, Bool.and_eq_true, decide_eq_true_eq]
        rcases h with ⟨o, ho, h⟩ | ⟨d, o, hd, ho, h⟩
        · exact ⟨by omega, by omega, .inl (by omega)⟩
        · have hoff : (a - 0x800) % 0x100 = 0x10 + 0x18 * d + o := by
            rw [show a - 0x800 = 0x10 + 0x18 * d + o + 0x100 * p by omega, Nat.add_mul_mod_self_left,
              Nat.mod_eq_of_lt (by omega)]
          refine ⟨by omega, by omega, .inr ⟨⟨by omega, by omega⟩, ?_⟩⟩
          rw [hoff, show 0x10 + 0x18 * d + o - 0x10 = o + 0x18 * d by omega, Nat.add_mul_mod_self_left]
          omega
      obtain ⟨h₁, h₂, h₃⟩ := hc
      simp [show ¬ a < 0x100 by omega, show ¬ a < 0x200 by omega, show ¬ a < 0x300 by omega,
        show ¬ a < 0x400 by omega, show ¬ a < 0x500 by omega, show ¬ a < 0x700 by omega, show ¬ a < 0x738 by omega,
        show ¬ a < 0x800 by omega, h₂, h₃]

/-- A register stands at exactly the aligned addresses of the register window. -/
theorem regAt_iff (a : Nat) : (∃ r, regAt a = some r) ↔ IsRegisterAddress a := by
  unfold IsRegisterAddress
  constructor
  · rintro ⟨r, h⟩
    unfold regAt at h
    split at h
    all_goals first | omega | cases h
  · intro h
    obtain ⟨k, hk, rfl⟩ : ∃ k, k < 14 ∧ a = 0x700 + 4 * k := ⟨(a - 0x700) / 4, by omega, by omega⟩
    interval_cases k <;> exact ⟨_, rfl⟩

/-! ### Host events and steps -/

/-- What a store to a byte window does to the state. -/
theorem storeByte_cases (a : Nat) (v : Byte) (s : State) :
    (storeByte a v s = s ∧ ((0x200 ≤ a ∧ a ≤ 0x2FF) ∨ byteMapped a = false)) ∨
    (storeByte a v s = { s with mem := Memory.write s.mem a v } ∧ (a < 0x100 ∨ 0x800 ≤ a) ∧ byteMapped a = true) ∨
    (storeByte a v s = endRxView { s with mem := Memory.write s.mem a v } ∧ 0x400 ≤ a ∧ a ≤ 0x4FF ∧
      byteMapped a = true) := by
  unfold storeByte byteMapped windowOf
  by_cases h₁ : a < 0x100
  · simp [h₁]
  · by_cases h₂ : a < 0x200
    · simp [h₁, h₂]
    · by_cases h₃ : a < 0x300
      · simp [h₁, h₂, h₃]; omega
      · by_cases h₄ : a < 0x400
        · simp [h₁, h₂, h₃, h₄]
        · by_cases h₅ : a < 0x500
          · simp [h₁, h₂, h₃, h₄, h₅]; omega
          · by_cases h₆ : a < 0x700
            · simp [h₁, h₂, h₃, h₄, h₅, h₆]
            · by_cases h₇ : a < 0x738
              · simp [h₁, h₂, h₃, h₄, h₅, h₆, h₇]
              · by_cases h₈ : a < 0x800
                · simp [h₁, h₂, h₃, h₄, h₅, h₆, h₇, h₈]
                · by_cases h₉ : a < 0xC00
                  · by_cases hc : configMapped ((a - 0x800) % 0x100) = true
                    · simp [h₁, h₂, h₃, h₄, h₅, h₆, h₇, h₈, h₉, hc]; omega
                    · simp [h₁, h₂, h₃, h₄, h₅, h₆, h₇, h₈, h₉, hc]
                  · simp [h₁, h₂, h₃, h₄, h₅, h₆, h₇, h₈, h₉]

/-- The state a step starts a host event from. -/
def State.begin (s : State) (rest : List HostEvent) : State := { s with host := rest, reply := .nothing }

/-- A step with no host event. -/
theorem step_idle {s : State} (h : s.host = []) : step s = .next s := by
  unfold step portStep
  rw [h]

/-- A step with a host event is the event. -/
theorem step_event {s : State} {e : HostEvent} {rest : List HostEvent} (h : s.host = e :: rest) :
    step s = hostEvent e (s.begin rest) := by
  unfold step portStep
  rw [h]
  rfl

/-- A write to `CMD` issues the command word. -/
theorem hostEvent_cmd (w : Word) (s : State) : hostEvent (.store32 0x700 w) s = issueCommand w s := rfl

/-- Everything a host event that gives a next state can be. -/
theorem hostEvent_cases {e : HostEvent} {s t : State} (h : hostEvent e s = .next t) :
    (∃ r, t = { s with reply := r } ∧ ((∃ a, e = .load8 a) ∨ ∃ a, e = .load32 a)) ∨
    (∃ a v, e = .store8 a v ∧ byteMapped a.toNat = true ∧ t = storeByte a.toNat v s) ∨
    (∃ w, e = .store32 0x700 w ∧ issueCommand w s = .next t) ∨
    (∃ v, e = .store32 0x708 v ∧ t = { s with dataIn := v }) ∨
    (∃ v, e = .store32 0x71C v ∧ t = endRxView { s with rxlen := v.setWidth 9 }) ∨
    (∃ v, e = .store32 0x730 v ∧ t = { s with boardAddr0 := v.setWidth 8 }) ∨
    (∃ v, e = .store32 0x734 v ∧ t = { s with boardAddr1 := v.setWidth 8 }) ∨
    (∃ a v, e = .store32 a v ∧ a ∈ [0x704#12, 0x70C, 0x710, 0x714, 0x718, 0x720, 0x724, 0x728, 0x72C] ∧ t = s) ∨
    (e = .resetInput ∧ t = resetBlock s) := by
  cases e with
  | load8 a =>
    simp only [hostEvent] at h
    split at h
    · injection h with h; exact .inl ⟨_, h.symm, .inl ⟨a, rfl⟩⟩
    · cases h
  | load32 a =>
    simp only [hostEvent] at h
    split at h
    · injection h with h; exact .inl ⟨_, h.symm, .inr ⟨a, rfl⟩⟩
    · cases h
  | store8 a v =>
    simp only [hostEvent] at h
    split at h
    · rename_i hm
      injection h with h; exact .inr (.inl ⟨a, v, rfl, hm, h.symm⟩)
    · cases h
  | resetInput =>
    injection h with h
    exact .inr (.inr (.inr (.inr (.inr (.inr (.inr (.inr ⟨rfl, h.symm⟩)))))))
  | store32 a v =>
    simp only [hostEvent] at h
    split at h
    · rename_i r hr
      have ha : a = BitVec.ofNat 12 a.toNat := by simp
      unfold regAt at hr
      split at hr
      all_goals try cases hr
      all_goals
        rename_i hx
        rw [hx] at ha
        subst ha
        simp only [writeReg] at h
      all_goals first
        | exact .inr (.inr (.inl ⟨v, rfl, h⟩))
        | (injection h with h; subst h; simp)
    · cases h

/-- Everything a step that gives a next state can be: the block waits, or the next host event was performed. -/
theorem step_cases {s t : State} (h : step s = .next t) :
    (s.host = [] ∧ t = s) ∨ ∃ e rest, s.host = e :: rest ∧ hostEvent e (s.begin rest) = .next t := by
  cases hh : s.host with
  | nil =>
    rw [step_idle hh] at h
    injection h with h
    exact .inl ⟨rfl, h.symm⟩
  | cons e rest => exact .inr ⟨e, rest, rfl, by rw [← step_event hh]; exact h⟩

end Sys2Proof.Machine
end

