-- ==== Sys2Proof/Laws/CarefulHost.lean ====
section
/-! SUPPORT. The careful host: what a move can do, and that a step does not depend on the events after it. -/

namespace Sys2Proof.Machine

open Sys2Proof.Config Sys2Proof.Safety

/-! ### The record -/

@[simp] theorem write_message (a : Nat) (h : HostRecord) : (h.write a).message = h.message := rfl
@[simp] theorem write_exchangeOpen (a : Nat) (h : HostRecord) : (h.write a).exchangeOpen = h.exchangeOpen := rfl
@[simp] theorem write_replyAwaited (a : Nat) (h : HostRecord) : (h.write a).replyAwaited = h.replyAwaited := rfl
@[simp] theorem write_received (a : Nat) (h : HostRecord) : (h.write a).received = h.received := rfl
@[simp] theorem write_statusRead (a : Nat) (h : HostRecord) : (h.write a).statusRead = h.statusRead := rfl

@[simp] theorem ran_message (i : Instr) (t : State) (h : HostRecord) : (h.ran i t).message = h.message.ran i t.err := rfl
@[simp] theorem ran_exchangeOpen (i : Instr) (t : State) (h : HostRecord) : (h.ran i t).exchangeOpen = h.exchangeOpen := rfl
@[simp] theorem ran_replyAwaited (i : Instr) (t : State) (h : HostRecord) : (h.ran i t).replyAwaited = h.replyAwaited := rfl
@[simp] theorem ran_received (i : Instr) (t : State) (h : HostRecord) : (h.ran i t).received = h.received := rfl
@[simp] theorem ran_written (i : Instr) (t : State) (h : HostRecord) : (h.ran i t).written = h.written := rfl
@[simp] theorem ran_statusRead (i : Instr) (t : State) (h : HostRecord) : (h.ran i t).statusRead = h.statusRead := rfl

/-- What a write to `CMD` leaves in the record: the message, by the command that ran if one did, and `STATUS` to be read again. -/
theorem issued_eq (w : Word) (s t : State) (h : HostRecord) :
    h.issued w s t = { h with
      statusRead := false
      message :=
        match decode w with
        | .instr i => if s.err = 0 then h.message.ran i t.err else h.message
        | .illegal _ => h.message } := by
  unfold HostRecord.issued
  by_cases he : s.err = 0
  · simp only [he, if_true]; cases decode w <;> rfl
  · simp only [he, if_false]; cases decode w <;> rfl

@[simp] theorem issued_exchangeOpen (w : Word) (s t : State) (h : HostRecord) :
    (h.issued w s t).exchangeOpen = h.exchangeOpen := by rw [issued_eq]
@[simp] theorem issued_replyAwaited (w : Word) (s t : State) (h : HostRecord) :
    (h.issued w s t).replyAwaited = h.replyAwaited := by rw [issued_eq]

/-- What a command that runs does to the message. -/
theorem accessed_command {w : Word} {i : Instr} {s : State} (t : State) (h : HostRecord) (hd : decode w = .instr i)
    (hs : s.err = 0) : (h.accessed (.store32 0x700 w) s t).message = h.message.ran i t.err := by
  unfold HostRecord.accessed
  simp only [if_true, issued_eq, hd]
  exact if_pos hs

/-- The only access that changes the message and is no reset is a command that runs. -/
theorem accessed_message {e : HostEvent} (s t : State) (h : HostRecord) (he : e ≠ .resetInput) :
    (h.accessed e s t).message = h.message ∨
      ∃ w i, e = .store32 0x700 w ∧ decode w = .instr i ∧ s.err = 0 ∧ (h.accessed e s t).message = h.message.ran i t.err := by
  cases e with
  | load8 a => exact .inl rfl
  | store8 a v => exact .inl rfl
  | load32 a => left; unfold HostRecord.accessed; simp only; split <;> rfl
  | resetInput => exact absurd rfl he
  | store32 a w =>
    unfold HostRecord.accessed
    by_cases ha : a = 0x700
    · subst ha
      cases hd : decode w with
      | illegal why => left; simp only [if_true, issued_eq, hd]
      | instr i =>
        by_cases hs : s.err = 0
        · exact .inr ⟨w, i, rfl, hd, hs, accessed_command t h hd hs⟩
        · left; simp only [if_true, issued_eq, hd]; exact if_neg hs
    · simp only [if_neg ha]; exact .inl rfl

/-- A message ends under a command only as FENC finds it too long for a frame, or as SCFG fails. -/
theorem ran_eq_none {i : Instr} {err : BitVec 4} {p : MessagePhase} (hp : p ≠ .none) (h : p.ran i err = .none) :
    ((∃ dest, i = .fenc dest) ∧ err = 6) ∨ ((∃ k, i = .scfg k) ∧ err ≠ 0) := by
  cases i with
  | fenc dest =>
    left; refine ⟨⟨dest, rfl⟩, ?_⟩
    by_contra h6
    unfold MessagePhase.ran at h
    by_cases h0 : err = 0
    · simp only [if_pos h0] at h; cases h
    · simp only [if_neg h0, if_neg (not_or.mpr ⟨h6, hp⟩)] at h; cases h
  | scfg k =>
    right; refine ⟨⟨k, rfl⟩, fun h0 => ?_⟩
    unfold MessagePhase.ran at h; simp only [if_pos h0] at h; cases h
  | addb n =>
    unfold MessagePhase.ran at h
    by_cases h0 : err = 0
    · simp only [if_pos h0] at h; cases h
    · simp only [if_neg h0] at h; exact absurd h hp
  | rstw => cases h
  | nop => exact absurd h hp
  | rstr => exact absurd h hp
  | rdb n src => exact absurd h hp
  | fdec => exact absurd h hp
  | clrs => exact absurd h hp

/-- The end of an exchange ends a message only if it is the message whose frame was exchanged. -/
theorem exchanged_eq_none {p : MessagePhase} (hp : p ≠ .none) : p.exchanged = .none ↔ p = .encoded := by
  cases p with
  | none => exact absurd rfl hp
  | building => exact ⟨fun h => (by cases h), fun h => (by cases h)⟩
  | encoded => exact ⟨fun _ => rfl, fun _ => rfl⟩

/-- No access but the reset input opens or ends an exchange. -/
theorem accessed_exchange {e : HostEvent} (s t : State) (h : HostRecord) (he : e ≠ .resetInput) :
    (h.accessed e s t).exchangeOpen = h.exchangeOpen ∧ (h.accessed e s t).replyAwaited = h.replyAwaited := by
  cases e with
  | load8 a => exact ⟨rfl, rfl⟩
  | store8 a v => exact ⟨rfl, rfl⟩
  | load32 a => unfold HostRecord.accessed; simp only; split <;> exact ⟨rfl, rfl⟩
  | store32 a w => unfold HostRecord.accessed; simp only; split <;> simp
  | resetInput => exact absurd rfl he

/-! ### A move -/

/-- Everything a move that the careful host has can do. -/
theorem sessionStep_cases {m : HostMove} {x y : Session} (h : sessionStep m x = .next y) :
    brokenDuty m x = none ∧
    ((∃ e t, m = .access e ∧ step { x.block with host := [e] } = .next t ∧
        y = { block := t, host := x.host.accessed e x.block t }) ∨
      (m = .send ∧ y = { x with host := { x.host with exchangeOpen := true, replyAwaited := true } }) ∨
      (∃ reply, m = .receive reply ∧ y = { x with host := { x.host with
        replyAwaited := false, received := reply, written := x.host.written.filter fun a => !receiveAddress a } }) ∨
      (m = .endExchange ∧ y = { x with host := { x.host with message := x.host.message.exchanged, exchangeOpen := false } }) ∨
      (m = .rely ∧ y = x)) := by
  unfold sessionStep at h
  cases hb : brokenDuty m x with
  | some d => rw [hb] at h; cases h
  | none =>
    rw [hb] at h
    refine ⟨rfl, ?_⟩
    cases m with
    | access e =>
      simp only at h
      cases hs : step { x.block with host := [e] } with
      | next t =>
        rw [hs] at h
        injection h with h
        exact .inl ⟨e, t, rfl, hs, h.symm⟩
      | fault f => rw [hs] at h; cases h
      | refused r => rw [hs] at h; cases h
    | send => injection h with h; exact .inr (.inl ⟨rfl, h.symm⟩)
    | receive r => injection h with h; exact .inr (.inr (.inl ⟨r, rfl, h.symm⟩))
    | endExchange => injection h with h; exact .inr (.inr (.inr (.inl ⟨rfl, h.symm⟩)))
    | rely => injection h with h; exact .inr (.inr (.inr (.inr ⟨rfl, h.symm⟩)))

/-- A move that breaks a duty is refused by the duty's name. -/
theorem sessionStep_of_brokenDuty {m : HostMove} {x : Session} {d : HostDuty} (h : brokenDuty m x = some d) :
    sessionStep m x = .refused (.hostDuty d) := by
  unfold sessionStep
  rw [h]

/-- An access that breaks no duty is the block's step. -/
theorem sessionStep_access {e : HostEvent} {x : Session} {t : State} (h : brokenDuty (.access e) x = none)
    (ht : step { x.block with host := [e] } = .next t) :
    sessionStep (.access e) x = .next { block := t, host := x.host.accessed e x.block t } := by
  unfold sessionStep
  rw [h]
  simp only [ht]

/-- A session's first move, and the rest of it. -/
theorem sessionRun_cons {m : HostMove} {ms : List HostMove} {x y : Session} (h : sessionRun (m :: ms) x = .next y) :
    ∃ z, sessionStep m x = .next z ∧ sessionRun ms z = .next y := by
  rw [sessionRun] at h
  cases hm : sessionStep m x with
  | next z => rw [hm] at h; exact ⟨z, rfl, h⟩
  | fault f => rw [hm] at h; cases h
  | refused r => rw [hm] at h; cases h

/-- While an exchange is open the careful host issues no RSTW, ADDB, FENC or SCFG. -/
theorem brokenDuty_command {x : Session} {w : Word} {i : Instr} (ho : x.host.exchangeOpen = true) (hd : decode w = .instr i)
    (h : brokenDuty (.access (.store32 0x700 w)) x = none) :
    i ≠ .rstw ∧ (∀ n, i ≠ .addb n) ∧ (∀ dest, i ≠ .fenc dest) ∧ ∀ p, i ≠ .scfg p := by
  simp only [brokenDuty, if_true, hd] at h
  cases i <;> simp_all [commandDuty]

/-! ### A step does not depend on the events after it -/

/-- `s` with these events pending. -/
def State.pending (s : State) (es : List HostEvent) : State := { s with host := es }

/-- The state an outcome gives, with these events pending. -/
def pendingAfter (es : List HostEvent) : Host.Outcome State Fault Refusal → Host.Outcome State Fault Refusal
  | .next t => .next (t.pending es)
  | .fault f => .fault f
  | .refused r => .refused r

/-- The state a build gives, with these events pending. -/
def pendingBuild (es : List HostEvent) : PackResult → PackResult
  | .ok t => .ok (t.pending es)
  | .failed e t => .failed e (t.pending es)

theorem appendField_pending (n : Nat) (v : Word) (s : State) (es : List HostEvent) :
    appendField n v (s.pending es) = pendingBuild es (appendField n v s) := by
  by_cases h : s.wcur.toNat + n ≤ 2048
  · rw [appendField_of_fits v h, appendField_of_fits (s := s.pending es) v h]; rfl
  · have h' : 2048 < s.wcur.toNat + n := by omega
    rw [appendField_of_full v h', appendField_of_full (s := s.pending es) v h']
    rfl

theorem packAll_pending (es : List HostEvent) : ∀ (items : List PackItem) (s : State),
    packAll items (s.pending es) = pendingBuild es (packAll items s)
  | [], _ => rfl
  | .field n v :: items, s => by
    rw [packAll, packAll, packItem, packItem, appendField_pending]
    cases appendField n v s with
    | ok u => exact packAll_pending es items u
    | failed e u => rfl
  | .require ok e :: items, s => by
    rw [packAll, packAll, packItem, packItem]
    cases ok with
    | true => exact packAll_pending es items s
    | false => rfl

theorem framed_pending (dest : Byte) (s : State) (es : List HostEvent) :
    framed dest (s.pending es) = (framed dest s).pending es := by
  have h : frameBytes dest (s.pending es) = frameBytes dest s := rfl
  have hm : (s.pending es).mem = s.mem := rfl
  have hw : (s.pending es).wcur = s.wcur := rfl
  unfold framed
  rw [h, hm, hw]
  generalize Memory.writeBytes s.mem txfBase (txImage (frameBytes dest s)) = m
  rfl

theorem frameTo_pending (dest : Byte) (s : State) (es : List HostEvent) :
    frameTo dest (s.pending es) = (frameTo dest s).pending es := by
  rcases frameTo_cases dest s with ⟨h₁, h⟩ | ⟨h₁, h₂, h⟩ | ⟨h₁, h₂, h⟩
  · rw [h, frameTo_empty (s := s.pending es) h₁]; rfl
  · rw [h, frameTo_long (s := s.pending es) h₁ h₂]; rfl
  · rw [h, frameTo_built (s := s.pending es) h₁ h₂, framed_pending]

/-- A command neither reads nor changes the pending events. -/
theorem exec_pending (i : Instr) (s : State) (es : List HostEvent) :
    exec i (s.pending es) = pendingAfter es (exec i s) := by
  cases i with
  | nop => rfl
  | rstw => rfl
  | rstr => rfl
  | clrs => rfl
  | addb n =>
    show execAddb n (s.pending es) = pendingAfter es (execAddb n s)
    unfold execAddb
    cases widthLegal n with
    | false => rfl
    | true =>
      simp only [if_true]
      rw [show (s.pending es).dataIn = s.dataIn from rfl, appendField_pending]
      cases appendField n s.dataIn s <;> rfl
  | rdb n src =>
    show execRdb n src (s.pending es) = pendingAfter es (execRdb n src s)
    unfold execRdb
    have hl : readLimit src (s.pending es) = readLimit src s := by cases src <;> rfl
    have hb : sourceBit src (s.pending es) = sourceBit src s := by cases src <;> rfl
    simp only [hl, hb]
    rw [show (s.pending es).rcur = s.rcur from rfl]
    cases widthLegal n with
    | false => rfl
    | true =>
      simp only [if_true]
      by_cases h : s.rcur.toNat + n > readLimit src s
      · rw [if_pos h, if_pos h]; rfl
      · rw [if_neg h, if_neg h]; rfl
  | fenc dest => exact congrArg Host.Outcome.next (frameTo_pending dest s es)
  | fdec =>
    show execFdec (s.pending es) = pendingAfter es (execFdec s)
    unfold execFdec
    simp only [show (s.pending es).rxlen = s.rxlen from rfl, show (s.pending es).params = s.params from rfl,
      show rxBytes (s.pending es) = rxBytes s from rfl, show rxbByte (s.pending es) = rxbByte s from rfl]
    split
    · rfl
    · split
      · rfl
      · split
        · rfl
        · rfl
  | scfg p =>
    show execScfg p (s.pending es) = pendingAfter es (execScfg p s)
    unfold execScfg
    rw [show pairItems (s.pending es) p = pairItems s p from rfl,
      show ({ s.pending es with wcur := 0 } : State) = State.pending { s with wcur := 0 } es from rfl, packAll_pending]
    cases packAll (pairItems s p) { s with wcur := 0 } with
    | failed e t => rfl
    | ok t =>
      have hb : boardAddr p (t.pending es) = boardAddr p t := by cases p <;> rfl
      simp only [pendingBuild, hb, frameTo_pending]
      rfl

/-- A host event neither reads nor changes the events after it. -/
theorem hostEvent_pending (e : HostEvent) (s : State) (es : List HostEvent) :
    hostEvent e (s.pending es) = pendingAfter es (hostEvent e s) := by
  cases e with
  | load8 a => simp only [hostEvent]; split <;> rfl
  | store8 a v =>
    simp only [hostEvent]
    split
    · refine congrArg Host.Outcome.next ?_
      unfold storeByte
      cases windowOf a.toNat <;> rfl
    · rfl
  | load32 a =>
    simp only [hostEvent]
    cases regAt a.toNat with
    | none => rfl
    | some r => cases r <;> rfl
  | resetInput => rfl
  | store32 a v =>
    simp only [hostEvent]
    cases regAt a.toNat with
    | none => rfl
    | some r =>
      cases r with
      | cmd =>
        show issueCommand v (s.pending es) = pendingAfter es (issueCommand v s)
        unfold issueCommand
        simp only [show (s.pending es).err = s.err from rfl]
        split
        · rfl
        · cases decode v with
          | illegal why => rfl
          | instr i => exact exec_pending i { s with cmd := v } es
      | _ => rfl

end Sys2Proof.Machine
end

