-- ==== Sys2Proof/Laws/PerInstr.lean ====
section
/-! SUPPORT. Statements about every instruction, one lemma per constructor. -/

namespace Sys2Proof.Laws

/-- The word of a well-formed instruction, and no field it does not use: its opcode and its fields decode to it. -/
def Encodes.Statement (i : Instr) : Prop :=
  i.wellFormed = true → commandOf (encode i) = some i ∧ reservedField (encode i) = 0 ∧ unusedFieldsZero i (encode i) = true

theorem toNat_width {n : Nat} (h : (Instr.addb n).wellFormed = true) : (BitVec.ofNat 6 n).toNat = n := by
  have h' : n < 64 := of_decide_eq_true h
  rw [BitVec.toNat_ofNat, Nat.mod_eq_of_lt h']

theorem Encodes.nop : Encodes.Statement .nop := fun _ => by decide
theorem Encodes.rstw : Encodes.Statement .rstw := fun _ => by decide
theorem Encodes.rstr : Encodes.Statement .rstr := fun _ => by decide
theorem Encodes.fdec : Encodes.Statement .fdec := fun _ => by decide
theorem Encodes.clrs : Encodes.Statement .clrs := fun _ => by decide

theorem Encodes.addb (n : Nat) : Encodes.Statement (.addb n) := fun h => by
  refine ⟨?_, ?_, ?_⟩
  · simp only [commandOf, encode, opField_wordOf, nField_wordOf, toNat_width h]; rfl
  · exact reservedField_wordOf ..
  · simp only [unusedFieldsZero, encode, srcField_wordOf, pairField_wordOf, destField_wordOf]; rfl

theorem Encodes.rdb (n : Nat) (src : ReadSource) : Encodes.Statement (.rdb n src) := fun h => by
  refine ⟨?_, ?_, ?_⟩
  · simp only [commandOf, encode, opField_wordOf, nField_wordOf, srcField_wordOf, ReadSource.ofBit_bit,
      toNat_width (n := n) h]
    rfl
  · exact reservedField_wordOf ..
  · simp only [unusedFieldsZero, encode, pairField_wordOf, destField_wordOf]; rfl

theorem Encodes.fenc (dest : Byte) : Encodes.Statement (.fenc dest) := fun _ => by
  refine ⟨?_, ?_, ?_⟩
  · simp only [commandOf, encode, opField_wordOf, destField_wordOf]; rfl
  · exact reservedField_wordOf ..
  · simp only [unusedFieldsZero, encode, nField_wordOf, srcField_wordOf, pairField_wordOf]; rfl

theorem Encodes.scfg (pair : BoardPair) : Encodes.Statement (.scfg pair) := fun _ => by
  cases pair <;> decide

end Sys2Proof.Laws
end

