-- ==== Sys2Proof/Laws/Scfg.lean ====
section
/-! SUPPORT. SCFG's build against the steps written straight from the spec: the same steps, so the same bits and the same
conditions. -/

namespace Sys2Proof.Machine

open Sys2Proof.Config Sys2Proof.Safety

/-! ### Items as steps -/

/-- The step of the spec that an item is. -/
def PackItem.step : PackItem → PayloadStep
  | .field n v => .append (fieldBits n v.toNat)
  | .require ok _ => .check ok

@[simp] theorem step_require (ok : Bool) (e : BlockError) : (PackItem.require ok e).step = .check ok := rfl
@[simp] theorem step_field (n : Nat) (v : Word) : (PackItem.field n v).step = .append (fieldBits n v.toNat) := rfl

@[simp] theorem step_byteField (n : Nat) (b : Byte) : (byteField n b).step = .append (fieldBits n b.toNat) := by
  rw [byteField, step_field, BitVec.toNat_setWidth, Nat.mod_eq_of_lt (by have := b.isLt; omega)]

@[simp] theorem length_fieldBits (n v : Nat) : (fieldBits n v).length = n := by simp [fieldBits]

@[simp] theorem bits_step (item : PackItem) : item.step.bits = item.bits := by
  cases item with
  | require ok e => rfl
  | field n v => exact List.map_congr_left fun j _ => by rw [BitVec.testBit_toNat]

@[simp] theorem stepBits_nil : stepBits [] = [] := rfl
@[simp] theorem stepBits_cons (x : PayloadStep) (xs : List PayloadStep) : stepBits (x :: xs) = x.bits ++ stepBits xs := rfl
@[simp] theorem stepBits_append (xs ys : List PayloadStep) : stepBits (xs ++ ys) = stepBits xs ++ stepBits ys := by
  simp [stepBits]
@[simp] theorem bits_append (b : List Bool) : (PayloadStep.append b).bits = b := rfl
@[simp] theorem bits_check (ok : Bool) : (PayloadStep.check ok).bits = [] := rfl

theorem stepBits_flatMap {α : Type} (f : α → List PayloadStep) (xs : List α) :
    stepBits (xs.flatMap f) = xs.flatMap fun x => stepBits (f x) := by
  induction xs with
  | nil => rfl
  | cons x xs ih => rw [List.flatMap_cons, stepBits_append, ih, List.flatMap_cons]

theorem stepBits_map_append {α : Type} (f : α → List Bool) (xs : List α) :
    stepBits (xs.map fun x => .append (f x)) = xs.flatMap f := by
  induction xs with
  | nil => rfl
  | cons x xs ih => rw [List.map_cons, stepBits_cons, ih, List.flatMap_cons, bits_append]

/-- Items append the bits of their steps. -/
theorem itemBits_eq (items : List PackItem) : itemBits items = stepBits (items.map PackItem.step) := by
  induction items with
  | nil => rfl
  | cons item items ih => rw [List.map_cons, itemBits_cons, stepBits_cons, ih, bits_step]

/-- Items' conditions hold exactly when their steps' checks pass. -/
theorem requirementsHold_iff (items : List PackItem) :
    RequirementsHold items ↔ ∀ ok, .check ok ∈ items.map PackItem.step → ok = true := by
  constructor
  · intro h ok hm
    obtain ⟨item, hi, hs⟩ := List.mem_map.mp hm
    cases item with
    | field n v => cases hs
    | require ok' e => injection hs with hs; exact hs ▸ h ok' e hi
  · exact fun h ok e hm => h ok (List.mem_map.mpr ⟨_, hm, rfl⟩)

/-! ### The effective descriptor is the one that is sent -/

theorem cfgByte_eq (s : State) (p off : Nat) : (cfgByte s p off).toNat = cfg s p off := rfl

theorem isUltrasonic_iff (s : State) (p : Nat) : isUltrasonic s p = true ↔ cfg s p 0 = 33 := by
  unfold isUltrasonic cfgType
  rw [beq_iff_eq, ← cfgByte_eq]
  constructor
  · intro h; rw [h]; rfl
  · intro h; exact BitVec.eq_of_toNat_eq h

theorem isUltrasonic_eq (s : State) (p : Nat) : isUltrasonic s p = decide (cfg s p 0 = 33) := by
  rw [Bool.eq_iff_iff, isUltrasonic_iff, decide_eq_true_eq]

theorem effectiveType_eq (s : State) (p : Nat) : effectiveType s p = sentType s p := by
  unfold effectiveType sentType
  rw [isUltrasonic_eq]
  by_cases h : cfg s p 0 = 33
  · simp [h]
  · simp [h]; rfl

theorem effectiveCount_eq (s : State) (p : Nat) : effectiveCount s p = sentCount s p := by
  unfold effectiveCount sentCount
  rw [isUltrasonic_eq]
  by_cases h : cfg s p 0 = 33
  · simp [h]
  · simp only [h, decide_false, Bool.false_eq_true, if_false]; rfl

theorem sentCount_le (s : State) (p : Nat) : 1 ≤ sentCount s p ∧ sentCount s p ≤ 8 := by
  unfold sentCount; split <;> omega

/-- Both settings bits of the synthesized device, as a number. -/
theorem toNat_settings {P : Params} (h : P.Valid) :
    (BitVec.twoPow 32 P.midBit ||| BitVec.twoPow 32 P.sameBit).toNat = 2 ^ P.midBit + 2 ^ P.sameBit := by
  have hm : P.midBit < 32 := by have := h.midBit; have := h.wSet; omega
  have hs : P.sameBit < 32 := by have := h.sameBit; have := h.wSet; omega
  have hne := h.bitsDiffer
  rw [BitVec.toNat_or, BitVec.toNat_twoPow, BitVec.toNat_twoPow, Nat.mod_eq_of_lt (Nat.pow_lt_pow_right (by omega) hm),
    Nat.mod_eq_of_lt (Nat.pow_lt_pow_right (by omega) hs)]
  generalize P.midBit = a at *
  generalize P.sameBit = b at *
  rcases Nat.lt_or_gt_of_ne hne with h₁ | h₁
  · have h₂ := Nat.two_pow_add_eq_or_of_lt (Nat.pow_lt_pow_right (a := 2) (by omega) h₁) 1
    rw [Nat.mul_one] at h₂
    rw [Nat.or_comm, ← h₂, Nat.add_comm]
  · have h₂ := Nat.two_pow_add_eq_or_of_lt (Nat.pow_lt_pow_right (a := 2) (by omega) h₁) 1
    rw [Nat.mul_one] at h₂
    rw [← h₂]

/-! ### One device -/

theorem sentField_addr (s : State) (p d : Nat) :
    ((effectiveDevice s p d).addr >>> 1).toNat = sentField s p d 0 / 2 := by
  unfold effectiveDevice sentField
  rw [isUltrasonic_eq]
  by_cases h : cfg s p 0 = 33
  · simp [h, ultrasonicDevice, BitVec.toNat_ushiftRight, Nat.shiftRight_eq_div_pow]
  · simp [h, configuredDevice, cfgDevByte, cfgByte_eq, BitVec.toNat_ushiftRight, Nat.shiftRight_eq_div_pow]

theorem sentField_set {s : State} (hv : s.params.Valid) (p d : Nat) :
    (effectiveDevice s p d).set.toNat = sentField s p d 1 := by
  unfold effectiveDevice sentField
  rw [isUltrasonic_eq]
  by_cases h : cfg s p 0 = 33
  · simpa [h, ultrasonicDevice] using toNat_settings hv
  · simp only [h, decide_false, Bool.false_eq_true, if_false, configuredDevice, cfgDevByte, BitVec.toNat_setWidth,
      cfgByte_eq]
    have := (cfgByte s p (0x10 + 0x18 * d + 0x01)).isLt
    exact Nat.mod_eq_of_lt (by rw [← cfgByte_eq]; omega)

theorem sentField_wc (s : State) (p d : Nat) : (effectiveDevice s p d).wc.toNat = sentField s p d 2 := by
  unfold effectiveDevice sentField
  rw [isUltrasonic_eq]
  by_cases h : cfg s p 0 = 33
  · simp [h, ultrasonicDevice]
  · simp [h, configuredDevice, cfgDevByte, cfgByte_eq]

theorem sentField_rc (s : State) (p d : Nat) : (effectiveDevice s p d).rc.toNat = sentField s p d 3 := by
  unfold effectiveDevice sentField
  rw [isUltrasonic_eq]
  by_cases h : cfg s p 0 = 33
  · simp [h, ultrasonicDevice]
  · simp [h, configuredDevice, cfgDevByte, cfgByte_eq]

/-- The output bytes that are sent. -/
theorem sentOut_steps (s : State) (p d w : Nat) :
    ((effectiveDevice s p d).out.take (effectiveDevice s p d).wc.toNat).map (fun b => (byteField w b).step) =
      (List.range (min (sentField s p d 2) 16)).map fun j => .append (fieldBits w (sentOut s p d j)) := by
  rw [sentField_wc]
  simp only [step_byteField]
  unfold effectiveDevice sentOut
  rw [isUltrasonic_eq]
  by_cases h : cfg s p 0 = 33
  · simp [h, ultrasonicDevice, sentField]
  · simp only [h, decide_false, Bool.false_eq_true, if_false, configuredDevice, cfgDevByte]
    rw [← List.map_take, List.take_range, List.map_map]
    unfold maxIoBytes
    refine List.map_congr_left fun j _ => ?_
    show PayloadStep.append (fieldBits w (cfgByte s p _).toNat) = _
    rw [cfgByte_eq]
    congr 3
    omega

theorem sameTransfer_eq {s : State} (hv : s.params.Valid) (p d : Nat) :
    (effectiveDevice s p d).set.getLsbD s.params.sameBit = sameTransfer s p d := by
  unfold sameTransfer
  rw [← sentField_set hv, BitVec.testBit_toNat]

theorem deviceItems_steps {s : State} (hv : s.params.Valid) (p d : Nat) :
    (deviceItems s p d).map PackItem.step = deviceSteps s p d := by
  unfold deviceItems deviceSteps
  simp only [List.map_cons, step_byteField, step_field, sentField_addr, sentField_set hv, sameTransfer_eq hv]
  by_cases h : sameTransfer s p d = true
  · rw [if_pos h, if_pos h]
    simp only [List.map_cons, List.map_map, step_byteField, step_require, sentField_wc, sentField_rc]
    rw [← sentOut_steps, sentField_wc]
    rfl
  · rw [if_neg h, if_neg h, List.map_nil]

/-! ### A port and a pair -/

theorem portItems_steps {s : State} (hv : s.params.Valid) (p : Nat) :
    (portItems s p).map PackItem.step = portSteps s p := by
  unfold portItems portSteps
  rw [effectiveType_eq]
  by_cases h : sentType s p ∈ s.params.i2cFamily
  · have hc := sentCount_le s p
    rw [if_pos h, if_pos h, List.map_cons, List.map_cons, step_byteField, step_field, List.map_flatMap, effectiveCount_eq,
      BitVec.toNat_ofNat, Nat.mod_eq_of_lt (by omega)]
    simp only [deviceItems_steps hv]
    rfl
  · rw [if_neg h, if_neg h, List.map_nil]

/-- The first port's number of a pair, halved. -/
theorem portOf_zero (i : BoardPair) : portOf i 0 = 2 * pairIndex i := rfl
theorem portOf_one (i : BoardPair) : portOf i 1 = 2 * pairIndex i + 1 := rfl

/-- SCFG's items are exactly the spec's steps, in the spec's order. -/
theorem pairItems_steps {s : State} (hv : s.params.Valid) (i : BoardPair) :
    (pairItems s i).map PackItem.step = payloadSteps s (pairIndex i) := by
  unfold pairItems payloadSteps
  simp only [List.map_cons, List.map_append, step_byteField, portItems_steps hv, portOf_zero, portOf_one, effectiveType_eq]
  rfl

/-- SCFG packs exactly the payload's bits. -/
theorem itemBits_pairItems {s : State} (hv : s.params.Valid) (i : BoardPair) :
    itemBits (pairItems s i) = payloadBits s (pairIndex i) := by
  rw [itemBits_eq, pairItems_steps hv, payloadBits]

/-! ### The bits of a device, a port and a pair -/

theorem stepBits_deviceSteps (s : State) (p d : Nat) : stepBits (deviceSteps s p d) =
    fieldBits s.params.wAddr (sentField s p d 0 / 2) ++ (fieldBits s.params.wSet (sentField s p d 1) ++
      if sameTransfer s p d then
        fieldBits s.params.wWc (sentField s p d 2) ++ (fieldBits s.params.wRc (sentField s p d 3) ++
          (List.range (min (sentField s p d 2) 16)).flatMap fun j => fieldBits s.params.wOut (sentOut s p d j))
      else []) := by
  unfold deviceSteps
  by_cases h : sameTransfer s p d = true
  · simp only [h, if_true, stepBits_cons, bits_append, bits_check, List.nil_append, stepBits_map_append]
  · simp only [h, Bool.false_eq_true, if_false, stepBits_cons, bits_append, stepBits_nil]

theorem portBits_eq (s : State) (p : Nat) : portBits s p =
    if sentType s p ∈ s.params.i2cFamily then
      fieldBits s.params.wSpeed (cfg s p 1) ++ (fieldBits s.params.wCnt (sentCount s p - 1) ++
        (List.range (sentCount s p)).flatMap fun d => stepBits (deviceSteps s p d))
    else [] := by
  unfold portBits portSteps
  by_cases h : sentType s p ∈ s.params.i2cFamily
  · simp only [h, if_true, stepBits_cons, bits_append, stepBits_flatMap]
  · simp only [h, if_false, stepBits_nil]

theorem payloadBits_eq (s : State) (i : Nat) : payloadBits s i =
    fieldBits 8 2 ++ (fieldBits 8 (sentType s (2 * i)).toNat ++ (fieldBits 8 (sentType s (2 * i + 1)).toNat ++
      (portBits s (2 * i) ++ portBits s (2 * i + 1)))) := by
  simp only [payloadBits, payloadSteps, stepBits_cons, bits_append, stepBits_append, portBits]

/-! ### The conditions of a build -/

theorem requirementsHold_append {xs ys : List PackItem} :
    RequirementsHold (xs ++ ys) ↔ RequirementsHold xs ∧ RequirementsHold ys := by
  constructor
  · intro h
    exact ⟨fun ok e hm => h ok e (List.mem_append_left _ hm), fun ok e hm => h ok e (List.mem_append_right _ hm)⟩
  · rintro ⟨h₁, h₂⟩ ok e hm
    rcases List.mem_append.mp hm with hm | hm
    · exact h₁ ok e hm
    · exact h₂ ok e hm

@[simp] theorem requirementsHold_field (n : Nat) (v : Word) (items : List PackItem) :
    RequirementsHold (.field n v :: items) ↔ RequirementsHold items := by
  constructor
  · exact fun h ok e hm => h ok e (List.mem_cons_of_mem _ hm)
  · intro h ok e hm
    rcases List.mem_cons.mp hm with hm | hm
    · cases hm
    · exact h ok e hm

@[simp] theorem requirementsHold_byteField (n : Nat) (b : Byte) (items : List PackItem) :
    RequirementsHold (byteField n b :: items) ↔ RequirementsHold items := requirementsHold_field ..

@[simp] theorem requirementsHold_require (ok : Bool) (e : BlockError) (items : List PackItem) :
    RequirementsHold (.require ok e :: items) ↔ ok = true ∧ RequirementsHold items := by
  constructor
  · exact fun h => ⟨h ok e List.mem_cons_self, fun ok e hm => h ok e (List.mem_cons_of_mem _ hm)⟩
  · rintro ⟨h₁, h₂⟩ ok' e' hm
    rcases List.mem_cons.mp hm with hm | hm
    · injection hm with h; exact h ▸ h₁
    · exact h₂ ok' e' hm

theorem requirementsHold_fields (n : Nat) (bytes : List Byte) : RequirementsHold (bytes.map (byteField n)) := by
  intro ok e hm
  obtain ⟨b, -, hb⟩ := List.mem_map.mp hm
  cases hb

theorem requirementsHold_flatMap {α : Type} (f : α → List PackItem) (xs : List α) :
    RequirementsHold (xs.flatMap f) ↔ ∀ x ∈ xs, RequirementsHold (f x) := by
  constructor
  · exact fun h x hx ok e hm => h ok e (List.mem_flatMap.mpr ⟨x, hx, hm⟩)
  · intro h ok e hm
    obtain ⟨x, hx, hm⟩ := List.mem_flatMap.mp hm
    exact h x hx ok e hm

theorem requirementsHold_deviceItems {s : State} (hv : s.params.Valid) (p d : Nat) :
    RequirementsHold (deviceItems s p d) ↔ (sameTransfer s p d = true →
      sentField s p d 2 ≤ min 16 (2 ^ s.params.wWc - 1) ∧ sentField s p d 3 ≤ min 16 (2 ^ s.params.wRc - 1)) := by
  unfold deviceItems
  simp only [requirementsHold_byteField, requirementsHold_field, sameTransfer_eq hv]
  by_cases h : sameTransfer s p d = true
  · rw [if_pos h]
    simp only [requirementsHold_require, requirementsHold_byteField, requirementsHold_fields, and_true, h, true_implies,
      Bool.and_eq_true, decide_eq_true_eq, sentField_wc, sentField_rc]
    rfl
  · rw [if_neg h]
    exact ⟨fun _ h' => absurd h' h, fun _ _ _ hm => absurd hm List.not_mem_nil⟩

/-- Every condition of a port's block holds exactly when its counts fit. -/
theorem requirementsHold_portItems {s : State} (hv : s.params.Valid) (p : Nat) :
    RequirementsHold (portItems s p) ↔ CountsFit s p := by
  unfold portItems CountsFit
  rw [effectiveType_eq]
  by_cases h : sentType s p ∈ s.params.i2cFamily
  · rw [if_pos h, requirementsHold_byteField, requirementsHold_field, requirementsHold_flatMap, effectiveCount_eq]
    simp only [requirementsHold_deviceItems hv, List.mem_range, h, true_implies]
  · rw [if_neg h]
    exact ⟨fun _ h' => absurd h' h, fun _ _ _ hm => absurd hm List.not_mem_nil⟩

/-- Every condition of SCFG's build holds exactly when the counts of both ports fit. -/
theorem requirementsHold_pairItems {s : State} (hv : s.params.Valid) (i : BoardPair) :
    RequirementsHold (pairItems s i) ↔ CountsFit s (2 * pairIndex i) ∧ CountsFit s (2 * pairIndex i + 1) := by
  unfold pairItems
  rw [requirementsHold_byteField, requirementsHold_byteField, requirementsHold_byteField, requirementsHold_append,
    requirementsHold_portItems hv, requirementsHold_portItems hv, portOf_zero, portOf_one]

end Sys2Proof.Machine
end

