-- ==== Sys2Proof/Tests/Slice0.lean ====
section
/-! SUPPORT. Tests: ill-formed terms, command words written out from the spec's encodings, one-step tests whose expected
values are the vectors of 95_test_vectors.md, and for every statement with hypotheses a state and operands that meet them. -/

namespace Sys2Proof.Tests

open Sys2Proof.Machine Sys2Proof.Config Sys2Proof.Safety

/-! The kernel evaluates these theorems one at a time: many at once, each with a thread that waits, pass the memory limit. -/

set_option Elab.async false

/-! ### Helpers -/

/-- What comes next, if anything does. -/
def next? {α : Type} : Host.Outcome α Fault Refusal → Option α
  | .next t => some t
  | .fault _ | .refused _ => none

/-- A next state with a property that can be computed. -/
theorem next_of {α : Type} {o : Host.Outcome α Fault Refusal} (p : α → Bool) (h : (next? o).any p = true) :
    ∃ t, o = .next t ∧ p t = true := by
  cases o with
  | next t => exact ⟨t, rfl, h⟩
  | fault _ => cases h
  | refused _ => cases h

/-- These bytes from address `a` on. -/
def put (a : Nat) (vs : List Byte) (m : List Host.Cell) : List Host.Cell := Memory.writeBytes m a vs

/-- The `n` bytes from address `a` on. -/
def get (s : State) (a n : Nat) : List Byte := (List.range n).map fun k => Memory.read s.mem (a + k)

/-- A word about to be written to `CMD`. -/
def issued (w : Word) (s : State) : State := s.withFetchWord 32 w.toNat

/-- `PB` holds these bytes and `WCUR` is `w`. -/
def packed (w : Nat) (vs : List Byte) : State := { State.reset with mem := put 0x000 vs [], wcur := BitVec.ofNat 12 w }

/-- `RXB` holds these bytes and `RXLEN` is their number. -/
def received (vs : List Byte) : State :=
  { State.reset with mem := put 0x400 vs [], rxlen := BitVec.ofNat 9 vs.length }

/-- After V-FC1 and V-FC11: one frame encoded and one decoded. -/
def busy : State :=
  { State.reset with
    mem := put 0x000 [2] (put 0x200 [1, 3, 2, 6] (put 0x400 [1, 3, 2, 6] []))
    wcur := 8, txlen := 4, txvalid := true, rxlen := 4, rxvalid := true, rxDest := 1, rxCount := 3, rxType := 2, rxPlen := 1 }

/-- The configuration of V-SC2: ports touch, raw, ultrasonic-continuous at speed 10, raw. -/
def setup : State := { State.reset with mem := put 0x800 [32] (put 0xA00 [33, 10] []) }

/-- Ports 0 and 1 of type 41 with one same-transfer device for each write count. -/
def writeCounts (p q : List Nat) : State :=
  let port (base : Nat) (wcs : List Nat) (m : List Host.Cell) :=
    put base [41, 0, BitVec.ofNat 8 wcs.length]
      ((List.range wcs.length).foldl (fun m d => put (base + 0x10 + 0x18 * d) [2, 2, BitVec.ofNat 8 (wcs.getD d 0)] m) m)
  { State.reset with mem := port 0x800 p (port 0x900 q []) }

/-! ### Ill-formed terms -/

theorem test_width_64_is_ill_formed : (Instr.addb 64).wellFormed = false ∧ (Instr.addb 63).wellFormed = true := by decide
theorem test_rdb_width_64_is_ill_formed :
    (Instr.rdb 64 .rxPayload).wellFormed = false ∧ (Instr.rdb 0 .packBuffer).wellFormed = true := by decide

/-! ### Words written out from the patterns of 30_encoding.md R90 -/

theorem test_decode_nop : decode 0b00000000000000000000000000000000 = .instr .nop := by decide
theorem test_decode_rstw : decode 0b00000000000000000000000000000001 = .instr .rstw := by decide
theorem test_decode_addb : decode 0b00000000000000000000001000000010 = .instr (.addb 32) := by decide
theorem test_decode_rstr : decode 0b00000000000000000000000000000011 = .instr .rstr := by decide
theorem test_decode_rdb : decode 0b00000000000000000000010010000100 = .instr (.rdb 8 .rxPayload) := by decide
theorem test_decode_fenc : decode 0b00000000000010110001000000000101 = .instr (.fenc 0xB1) := by decide
theorem test_decode_fdec : decode 0b00000000000000000000000000000110 = .instr .fdec := by decide
theorem test_decode_scfg : decode 0b00000000000000000000100000000111 = .instr (.scfg .one) := by decide
theorem test_decode_clrs : decode 0b00000000000000000000000000001000 = .instr .clrs := by decide
/-- V-CT1, V-CT3, V-CT5, V-CT6, V-CT7, V-CT9. -/
theorem test_decode_illegal :
    [0x00000009#32, 0x00100002, 0x00000401, 0x00001002, 0x00000802, 0x00000018].all
      (fun w => decide (decodeTableWord 32 w.toNat = none)) = true := by decide

/-! ### One step -/

/-- V-CT12. -/
theorem test_nop : (next? (step (issued 0x00000000 busy))).map (·.err) = some 0 := by decide +kernel
/-- V-BP20. -/
theorem test_rstw : (next? (step (issued 0x00000001 (packed 37 [0xAB])))).map (fun t => (t.wcur, get t 0 1)) =
    some (0, [0xAB]) := by decide +kernel
/-- V-BP3. -/
theorem test_addb : (next? (step (issued 0x00000202 { packed 10 [0xFD, 0x03] with dataIn := 0xDEADBEEF }))).map
    (fun t => (t.wcur, get t 0 6)) = some (42, [0xFD, 0xBF, 0xFB, 0xB6, 0x7A, 0x03]) := by decide +kernel
/-- V-BP12: zero bits are written. -/
theorem test_addb_zeros : (next? (step (issued 0x00000042 (packed 0 [0xFF])))).map (fun t => get t 0 1) = some [0xF0] := by
  decide +kernel
/-- 40_bitpacker.md R123, its example. -/
theorem test_rstr : (next? (step (issued 0x00000003 { packed 8 [2] with rcur := 24 }))).map (fun t => (t.rcur, t.wcur)) =
    some (0, 8) := by decide +kernel
/-- V-BP5, its third read. -/
theorem test_rdb : (next? (step (issued 0x00000204 { packed 46 [0xFD, 0xBF, 0xFB, 0xB6, 0x7A, 0x0F] with rcur := 10 }))).map
    (fun t => (t.rcur, t.dataOut)) = some (42, 0xDEADBEEF) := by decide +kernel
/-- V-BP18. -/
theorem test_rdb_no_frame : (next? (step (issued 0x00000414 State.reset))).map (·.err) = some 2 := by decide +kernel
/-- V-FC4: the padding bits are sent as 0. -/
theorem test_fenc : (next? (step (issued 0x00002005 (packed 12 [0x03, 0xFF])))).map (fun t => (t.txlen, get t 0x200 6)) =
    some (5, [0x02, 0x04, 0x03, 0x0F, 0x18, 0x00]) := by decide +kernel
/-- V-FC8. -/
theorem test_fenc_empty : (next? (step (issued 0x00007005 { busy with wcur := 0 }))).map
    (fun t => (t.err, t.txvalid, get t 0x200 4)) = some (5, false, [0x01, 0x03, 0x02, 0x06]) := by decide +kernel
/-- V-FC11. -/
theorem test_fdec : (next? (step (issued 0x00000006 (received [0x01, 0x03, 0x02, 0x06])))).map
    (fun t => (t.rxDest, t.rxCount, t.rxType, t.rxPlen, statusWord t)) = some (1, 3, 2, 1, 0x20) := by decide +kernel
/-- V-FC14. -/
theorem test_fdec_count : (next? (step (issued 0x00000006 (received [0x01, 0x04, 0x02, 0x07])))).map statusWord =
    some 0x13 := by decide +kernel
/-- V-SC2. -/
theorem test_scfg : (next? (step (issued 0x00000807 setup))).map (fun t => (t.wcur, get t 0x200 11, get t 0xA00 1)) =
    some (60, [0x02, 0x0A, 0x02, 0x29, 0x00, 0x0A, 0x08, 0x1C, 0x21, 0x04, 0x8A], [33]) := by decide +kernel
/-- V-SC6. -/
theorem test_scfg_config_error : (next? (step (issued 0x00000007 (writeCounts [16] [])))).map
    (fun t => (t.err, t.wcur, t.txvalid)) = some (4, 44, false) := by decide +kernel
/-- V-CT13. -/
theorem test_clrs : (next? (step (issued 0x00000008 { State.reset with lenbad := true }))).map (·.lenbad) = some false := by
  decide +kernel
/-- V-CT10. -/
theorem test_clrs_with_a_field : (next? (step (issued 0x00000018 { State.reset with err := 7 }))).map (·.err) = some 7 := by
  decide +kernel

/-! ### What meets the hypotheses of the statements -/

theorem host_issued (w : Word) (s : State) : (issued w s).host = .store32 0x700 w :: s.host := by
  simp [issued, State.withFetchWord, withCommandWord, Nat.mod_eq_of_lt w.isLt]

theorem defaults_valid : Params.defaults.Valid := by constructor <;> decide

theorem witness_DecodeOfEncode : (Instr.rdb 63 .rxPayload).wellFormed = true := by decide
theorem witness_EncodeOfDecode : decode 0x000FF005 = .instr (.fenc 0xFF) := by decide

/-- One word for each way to be illegal, at the edge of each: issued after reset with `ERR` = 0. -/
theorem witness_IllegalWordsRaiseIllegalCommand :
    9 ≤ ((0x00000009 : Word).extractLsb' 0 4).toNat ∧ (0x00100002 : Word).extractLsb' 20 12 ≠ 0 ∧
    (0x80000000 : Word).extractLsb' 20 12 ≠ 0 ∧
    ((0x00000010 : Word).extractLsb' 4 6 ≠ 0 ∧ ((0x00000010 : Word).extractLsb' 0 4).toNat ≠ 2 ∧
      ((0x00000010 : Word).extractLsb' 0 4).toNat ≠ 4) ∧
    ((0x00000402 : Word).extractLsb' 10 1 ≠ 0 ∧ ((0x00000402 : Word).extractLsb' 0 4).toNat ≠ 4) ∧
    ((0x00000804 : Word).extractLsb' 11 1 ≠ 0 ∧ ((0x00000804 : Word).extractLsb' 0 4).toNat ≠ 7) ∧
    ((0x00001007 : Word).extractLsb' 12 8 ≠ 0 ∧ ((0x00001007 : Word).extractLsb' 0 4).toNat ≠ 5) ∧
    (issued 0x00000009 State.reset).host = [.store32 0x700 0x00000009] ∧ (issued 0x00000009 State.reset).err = 0 := by
  decide +kernel

theorem witness_StepRunsTheDecodedCommand :
    (issued 0x00000082 busy).host = [.store32 0x700 0x00000082] ∧ decode 0x00000082 = .instr (.addb 8) ∧ busy.err = 0 ∧
    (issued 0x00000008 { busy with err := 7 }).host = [.store32 0x700 0x00000008] ∧ decode 0x00000008 = .instr .clrs ∧
    (issued 0x00000018 { busy with err := 7 }).host = [.store32 0x700 0x00000018] ∧ (7 : BitVec 4) ≠ 0 ∧
    (0x00000018 : Word) ≠ 0x00000008 := by decide +kernel

theorem witness_StepWaitsForTheHost : State.reset.host = [] := rfl

/-- The last byte of each byte window and the last register are accepted; one byte further is not, nor is the other width. -/
theorem witness_BusErrorExactlyOnRejectedAccesses :
    (Accepted (.load8 0x0FF) ∧ Accepted (.store8 0x2FF 1) ∧ Accepted (.load8 0x4FF) ∧ Accepted (.store8 0xBCB 1) ∧
      Accepted (.load8 0x802) ∧ Accepted (.load32 0x734) ∧ Accepted (.store32 0x700 0) ∧ Accepted .resetInput) ∧
    (¬ Accepted (.load8 0x100) ∧ ¬ Accepted (.store8 0x300 1) ∧ ¬ Accepted (.load8 0x500) ∧ ¬ Accepted (.store8 0xBCC 1) ∧
      ¬ Accepted (.load8 0x803) ∧ ¬ Accepted (.load32 0x738) ∧ ¬ Accepted (.store32 0x702 0) ∧ ¬ Accepted (.load8 0x700) ∧
      ¬ Accepted (.load32 0x000)) := by
  refine ⟨⟨?_, ?_, ?_, ?_, ?_, ?_, ?_, trivial⟩, ?_, ?_, ?_, ?_, ?_, ?_, ?_, ?_, ?_⟩
  all_goals first
    | exact (byteMapped_iff _).mp (by decide)
    | exact fun h => absurd ((byteMapped_iff _).mpr h) (by decide)
    | (unfold Accepted IsRegisterAddress; decide)

theorem witness_HostReadsHaveNoSideEffect :
    ({ busy with host := [.load8 0x4FF] } : State).host = [.load8 0x4FF] ∧ IsByteAddress (0x4FF : Addr).toNat ∧
    ({ busy with host := [.load32 0x734] } : State).host = [.load32 0x734] ∧ IsRegisterAddress (0x734 : Addr).toNat :=
  ⟨rfl, (byteMapped_iff _).mp (by decide), rfl, by unfold IsRegisterAddress; decide⟩

theorem witness_RegisterWindowReads :
    ({ busy with host := [.load32 0x700] } : State).host = [.load32 0x700] ∧
    ({ busy with host := [.load32 0x704] } : State).host = [.load32 0x704] ∧
    ({ busy with host := [.load32 0x734] } : State).host = [.load32 0x734] := ⟨rfl, rfl, rfl⟩

theorem witness_ReadOnlyWritesAreIgnored :
    (0x704#12 ∈ [0x704#12, 0x70C, 0x710, 0x714, 0x718, 0x720, 0x724, 0x728, 0x72C] ∧
      0x72C#12 ∈ [0x704#12, 0x70C, 0x710, 0x714, 0x718, 0x720, 0x724, 0x728, 0x72C] ∧
      ({ busy with host := [.store32 0x72C 9] } : State).host = [.store32 0x72C 9]) ∧
    (0x200 ≤ (0x200 : Addr).toNat ∧ (0x2FF : Addr).toNat ≤ 0x2FF ∧
      ({ busy with host := [.store8 0x2FF 9] } : State).host = [.store8 0x2FF 9]) := by decide

theorem witness_RegisterWindowWrites :
    ({ busy with host := [.store32 0x708 5] } : State).host = [.store32 0x708 5] ∧
    ({ busy with host := [.store32 0x71C 0xFFFFFFFF] } : State).host = [.store32 0x71C 0xFFFFFFFF] ∧
    ({ busy with host := [.store32 0x730 5] } : State).host = [.store32 0x730 5] ∧
    ({ busy with host := [.store32 0x734 5] } : State).host = [.store32 0x734 5] := ⟨rfl, rfl, rfl, rfl⟩

theorem witness_HostByteWriteSetsOneByte :
    Memory.wf busy.mem = true ∧ ({ busy with host := [.store8 0x400 7] } : State).host = [.store8 0x400 7] ∧
    IsByteAddress (0x000 : Addr).toNat ∧ IsByteAddress (0x400 : Addr).toNat ∧ IsByteAddress (0xBCB : Addr).toNat ∧
    ¬ (0x200 ≤ (0x400 : Addr).toNat ∧ (0x400 : Addr).toNat ≤ 0x2FF) :=
  ⟨by decide, rfl, (byteMapped_iff _).mp (by decide), (byteMapped_iff _).mp (by decide), (byteMapped_iff _).mp (by decide),
    by decide⟩

theorem witness_ResetPutsEveryElementAtItsValue :
    ({ busy with host := [.resetInput] } : State).host = [.resetInput] := rfl

/-- The same, with an FDEC to run. -/
def busyNext : State := { busy with host := [.store32 0x700 0x00000006] }

/-- A state with a frame in `TXF` and a decoded frame in `RXB` is legal. -/
theorem busyNext_legal : Inv busyNext where
  memWf := by decide
  memMapped := by decide
  params := defaults_valid
  wcur := by decide
  rcur := by decide
  txlen := by decide
  err := by decide
  lenbad := by decide
  rxFailed := by decide
  txFailed := by decide
  rxFrame := fun _ => ⟨by decide, by decide, by decide, by decide⟩
  rxRegs := by decide
  txFrame := .inr ⟨by decide, by decide, by decide, by decide⟩
  txRest := by
    have h : ∀ k, k < 256 → busyNext.txlen.toNat ≤ k → txfByte busyNext k = 0 := by decide +kernel
    exact fun k h₁ h₂ => h k h₂ h₁
  txHeld := by decide

theorem witness_StepKeepsStatesLegal : Inv busyNext ∧ ∃ t, step busyNext = .next t ∧ t.rxvalid = true :=
  ⟨busyNext_legal, next_of _ (by decide +kernel)⟩

theorem witness_ParametersAreFixed : step State.reset = .next State.reset := rfl

/-- For each clause: an error that stays, an error that CLRS clears, an error that a command sets, a command that is ignored. -/
theorem witness_ErrIsStickyUntilClrsOrReset :
    (∃ t, step { busy with err := 7, host := [.load8 0] } = .next t ∧ (t.err == 7) = true) ∧
    (∃ t, step (issued 0x00000008 { busy with err := 1 }) = .next t ∧ (t.err == 0) = true) ∧
    (∃ t, step (issued 0x00000002 busy) = .next t ∧ (t.err == 1) = true) ∧
    (issued 0x00000018 { busy with err := 7 }).host = [.store32 0x700 0x00000018] :=
  ⟨next_of _ (by decide +kernel), next_of _ (by decide +kernel), next_of _ (by decide +kernel), by decide +kernel⟩

/-- An FDEC with `ERR` = 0, each event that clears `RXVALID` at the edges of its range, an event that keeps it, and RDB with no
frame at both ends of its widths. -/
theorem witness_RxvalidRule :
    (∃ t, step (issued 0x00000006 busy) = .next t ∧ t.rxvalid = true) ∧
    (∃ t, step { busy with host := [.store8 0x400 1] } = .next t ∧ (!t.rxvalid) = true) ∧
    (∃ t, step { busy with host := [.store8 0x4FF 1] } = .next t ∧ (!t.rxvalid) = true) ∧
    (∃ t, step { busy with host := [.store32 0x71C 4] } = .next t ∧ (!t.rxvalid) = true) ∧
    (∃ t, step { busy with host := [.resetInput] } = .next t ∧ (!t.rxvalid) = true) ∧
    (∃ t, step { busy with host := [.store8 0x0FF 1] } = .next t ∧ t.rxvalid = true) ∧
    State.reset.rxvalid = false ∧ 1 ≤ 1 ∧ 32 ≤ 32 :=
  ⟨next_of _ (by decide +kernel), next_of _ (by decide +kernel), next_of _ (by decide +kernel), next_of _ (by decide +kernel),
    next_of _ (by decide +kernel), next_of _ (by decide +kernel), rfl, by decide, by decide⟩

/-- A successful and a failing FENC, reset, and a step that is none of these. -/
theorem witness_TxvalidRule :
    (∃ t, step (issued 0x00001005 (packed 8 [2])) = .next t ∧ t.txvalid = true) ∧
    (∃ t, step (issued 0x00001005 (packed 7 [2])) = .next t ∧ (!t.txvalid) = true) ∧
    decode 0x00001005 = .instr (.fenc 1) ∧ decode 0x00000807 = .instr (.scfg .one) ∧
    (∃ t, step { busy with host := [.resetInput] } = .next t ∧ (!t.txvalid) = true) ∧
    (∃ t, step { busy with host := [.load8 0] } = .next t ∧ t.txvalid = true) :=
  ⟨next_of _ (by decide +kernel), next_of _ (by decide +kernel), by decide, by decide, next_of _ (by decide +kernel),
    next_of _ (by decide +kernel)⟩

/-- A frame is held, and the next event is RSTW. -/
theorem witness_EncodedFrameIsRetained :
    (issued 0x00000001 busy).host = [.store32 0x700 0x00000001] ∧
    (∃ t, step (issued 0x00000001 busy) = .next t ∧ t.txvalid = true) ∧
    (HostEvent.store32 0x700 0x00000001) ≠ .resetInput ∧
    ¬ ∃ w, HostEvent.store32 0x700 0x00000001 = .store32 0x700 w ∧
      ((∃ dest, decode w = .instr (.fenc dest)) ∨ ∃ i, decode w = .instr (.scfg i)) := by
  refine ⟨by decide +kernel, next_of _ (by decide +kernel), by simp, ?_⟩
  rintro ⟨w, hw, h⟩
  injection hw with _ hw
  subst hw
  rw [show decode 0x00000001 = .instr .rstw by decide] at h
  rcases h with ⟨_, h⟩ | ⟨_, h⟩ <;> cases h

theorem witness_CommandsWriteOnlyTheirBuffers :
    (∃ t, exec (.addb 1) { State.reset with dataIn := 1 } = .next t ∧ (Memory.read t.mem 0 != 0) = true) ∧
    (∃ t, exec (.fenc 1) (packed 8 [2]) = .next t ∧ (Memory.read t.mem 0x203 != 0) = true) :=
  ⟨next_of _ (by decide +kernel), next_of _ (by decide +kernel)⟩

/-- Each command that changes a register does so from some state. -/
theorem witness_CommandsWriteOnlyTheirRegisters :
    (∃ t, exec (.rdb 8 .packBuffer) (packed 8 [2]) = .next t ∧ (t.dataOut != 0 && t.rcur != 0) = true) ∧
    (∃ t, exec .rstw busy = .next t ∧ (t.wcur != 8) = true) ∧ (∃ t, exec (.fenc 1) (packed 8 [2]) = .next t ∧ (t.txlen != 0) = true) ∧
    (∃ t, exec .fdec (received [0x01, 0x03, 0x02, 0x06]) = .next t ∧ (t.rxDest != 0) = true) ∧
    (∃ t, exec .fdec State.reset = .next t ∧ t.lenbad = true) :=
  ⟨next_of _ (by decide +kernel), next_of _ (by decide +kernel), next_of _ (by decide +kernel), next_of _ (by decide +kernel),
    next_of _ (by decide +kernel)⟩

theorem witness_NopDoesNothing : (issued 0x00000000 busy).host = [.store32 0x700 0x00000000] := by decide +kernel

/-- ADDB at the edges of its clauses: widths 0 and 33, one bit past the end, and the exact fit. -/
theorem witness_AddbAppendsTheLowBits :
    ¬ (1 ≤ 0 ∧ 0 ≤ 32) ∧ ¬ (1 ≤ 33 ∧ 33 ≤ 32) ∧ (packed 2047 []).wcur.toNat + 2 > 2048 ∧
    (packed 2016 []).wcur.toNat + 32 ≤ 2048 ∧ (packed 2048 []).wcur.toNat + 1 > 2048 ∧
    Memory.wf (packed 2016 [5]).mem = true ∧ 63 < 64 := by decide

/-- RDB at the edges of its clauses, for both sources. -/
theorem witness_RdbReadsTheField :
    ¬ (1 ≤ 0 ∧ 0 ≤ 32) ∧ ¬ (1 ≤ 33 ∧ 33 ≤ 32) ∧ ({ busy with rcur := 2017 } : State).rcur.toNat + 32 > 2048 ∧
    ({ busy with rcur := 2016 } : State).rcur.toNat + 32 ≤ 2048 ∧ busy.rxvalid = true ∧
    busy.rcur.toNat + 8 ≤ 8 * busy.rxPlen.toNat ∧ busy.rcur.toNat + 9 > 8 * busy.rxPlen.toNat ∧
    State.reset.rxvalid = false ∧ State.reset.rcur.toNat + 1 > 0 := by decide

/-- Fields that cross bytes, and fields that fill `PB` exactly. -/
theorem witness_PackedFieldsReadBack :
    Memory.wf State.reset.mem = true ∧ State.reset.err = 0 ∧
    (∀ f ∈ [((3 : Nat), (5 : Word)), (7, 0x7F), (32, 0xDEADBEEF)], 1 ≤ f.1 ∧ f.1 ≤ 32 ∧ f.2.toNat < 2 ^ f.1) ∧
    (∀ f ∈ List.replicate 64 ((32 : Nat), (0xFFFFFFFF : Word)), 1 ≤ f.1 ∧ f.1 ≤ 32 ∧ f.2.toNat < 2 ^ f.1) ∧
    ((List.replicate 64 ((32 : Nat), (0xFFFFFFFF : Word))).map Prod.fst).sum ≤ 2048 := by decide +kernel

/-- FENC at the edges of its clauses: 7 and 8 bits, and the byte counts 255 and 256. -/
theorem witness_FencBuildsTheFrame :
    Params.defaults.Valid ∧ (packed 7 []).wcur.toNat < 8 ∧ 8 ≤ (packed 8 []).wcur.toNat ∧
    ((packed 2024 []).wcur.toNat + 7) / 8 + (packed 2024 []).params.frameOverhead ≤ 255 ∧
    ((packed 2025 []).wcur.toNat + 7) / 8 + (packed 2025 []).params.frameOverhead > 255 ∧
    Memory.wf (packed 8 [2]).mem = true :=
  ⟨defaults_valid, by decide⟩

/-- FDEC at the edges of its clauses: lengths 3 and 257, a wrong checksum, a wrong byte count, and accepted frames of 4 and 256
bytes. -/
theorem witness_FdecChecksInOrder :
    let checked (s : State) := checksum s.params ((List.range (s.rxlen.toNat - 1)).map (rxbByte s)) = rxbByte s (s.rxlen.toNat - 1)
    let counted (s : State) := (rxbByte s 1).toNat = (s.rxlen.toNat - 3) + s.params.frameOverhead
    let long := { received [0x01, 0xFF] with rxlen := 256 }
    (received [1, 2, 3]).rxlen.toNat < 4 ∧ ({ busy with rxlen := 257 } : State).rxlen.toNat > 256 ∧
    ¬ checked (received [0x01, 0x02, 0x02, 0x06]) ∧
    (checked (received [0x01, 0x04, 0x02, 0x07]) ∧ ¬ counted (received [0x01, 0x04, 0x02, 0x07])) ∧
    (checked busy ∧ counted busy ∧ busy.rxlen.toNat = 4) ∧ (checked long ∧ counted long ∧ long.rxlen.toNat = 256) := by
  decide +kernel

/-- The frame of V-FC1, encoded and copied into `RXB`. -/
theorem witness_EncodedFrameDecodes :
    (packed 8 [2]).params.Valid ∧ Memory.wf (packed 8 [2]).mem = true ∧
    ∃ t, exec (.fenc 1) (packed 8 [2]) = .next t ∧
      (t.txvalid && decide ((received [1, 3, 2, 6]).params = t.params) && decide ((received [1, 3, 2, 6]).rxlen = t.txlen) &&
        (List.range t.txlen.toNat).all (fun k => rxbByte (received [1, 3, 2, 6]) k == txfByte t k) &&
        decide (0 + 8 ≤ (packed 8 [2]).wcur.toNat)) = true :=
  ⟨defaults_valid, by decide, next_of _ (by decide +kernel)⟩

/-- The frame of V-FC11 with bit 0 of its payload byte flipped, and with bit 7 of its destination flipped. -/
theorem witness_SingleBitCorruptionIsDetected :
    (∃ v, exec .fdec (received [1, 3, 2, 6]) = .next v ∧ v.rxvalid = true) ∧
    (received [1, 3, 3, 6]).rxlen = (received [1, 3, 2, 6]).rxlen ∧ 2 + 1 < (received [1, 3, 2, 6]).rxlen.toNat ∧
    rxbByte (received [1, 3, 3, 6]) 2 = rxbByte (received [1, 3, 2, 6]) 2 ^^^ BitVec.twoPow 8 0 ∧
    (∀ m, m < 256 → m ≠ 2 → rxbByte (received [1, 3, 3, 6]) m = rxbByte (received [1, 3, 2, 6]) m) ∧
    rxbByte (received [0x81, 3, 2, 6]) 0 = rxbByte (received [1, 3, 2, 6]) 0 ^^^ BitVec.twoPow 8 7 ∧
    (∀ m, m < 256 → m ≠ 0 → rxbByte (received [0x81, 3, 2, 6]) m = rxbByte (received [1, 3, 2, 6]) m) ∧
    (received [1, 3, 2, 6]).params.checksum = .sum8 :=
  ⟨next_of _ (by decide +kernel), by decide +kernel⟩

/-- Two byte lists that differ in one bit of one byte. -/
theorem witness_Sum8DetectsSingleBitChanges : FlippedAt [1, 3, 2] [1, 3, 3] 2 0 ∧ 1 ≤ 2 ∧ [1, 3, 2].length ≤ 255 := by
  refine ⟨⟨rfl, by decide, by decide, by decide, fun m hm => ?_⟩, by decide, by decide⟩
  match m with
  | 0 => rfl
  | 1 => rfl
  | 2 => exact absurd rfl hm
  | _ + 3 => rfl

/-- Sixteen devices whose payload is 2022 bits, the longest such payload that a frame holds. -/
def longest : State := writeCounts [15, 15, 15, 15, 15, 15, 15, 15] [15, 15, 15, 15, 15, 15, 3, 0]

/-- The widest counts, and the ultrasonic configuration of V-SC2. -/
theorem witness_ScfgSendsTheConfiguredPayload :
    Params.defaults.Valid ∧ Memory.wf longest.mem = true ∧ CountsFit longest 0 ∧ CountsFit longest 1 ∧
    ((payloadBits longest 0).length + 7) / 8 + longest.params.frameOverhead = 255 ∧
    Memory.wf setup.mem = true ∧ CountsFit setup 2 ∧ CountsFit setup 3 ∧
    ((payloadBits setup 1).length + 7) / 8 + setup.params.frameOverhead ≤ 255 := by
  refine ⟨defaults_valid, by decide +kernel, ?_, ?_, by decide +kernel, by decide +kernel, ?_, ?_, by decide +kernel⟩
  all_goals unfold CountsFit; decide +kernel

/-- A build that stops at a count check, one that is too long for a frame, and one that succeeds. -/
theorem witness_ScfgLeavesAPrefixOfThePayload :
    Params.defaults.Valid ∧ Memory.wf (writeCounts [16] []).mem = true ∧
    (∃ t, exec (.scfg .zero) (writeCounts [16] []) = .next t ∧ (!t.txvalid && t.err == 4) = true) ∧
    (∃ t, exec (.scfg .zero) (writeCounts [15, 15, 15, 15, 15, 15, 15, 15] [15, 15, 15, 15, 15, 15, 6]) = .next t ∧
      (!t.txvalid && t.err == 6) = true) ∧
    (∃ t, exec (.scfg .one) setup = .next t ∧ t.txvalid = true) :=
  ⟨defaults_valid, by decide +kernel, next_of _ (by decide +kernel), next_of _ (by decide +kernel), next_of _ (by decide +kernel)⟩

/-- A list at one of its places. -/
theorem split_at {α : Type} {l : List α} {k : Nat} {a : α} (h : l[k]? = some a) : l = l.take k ++ a :: l.drop (k + 1) := by
  obtain ⟨hk, rfl⟩ := List.getElem?_eq_some_iff.mp h
  rw [← List.drop_eq_getElem_cons hk, List.take_append_drop]

/-- The step at place `k` of pair 0's build is `step`, it is the first that fails, and the steps before it append `n` bits. -/
def StopsAt (s : State) (k : Nat) (step : PayloadStep) (code : BitVec 4) (n : Nat) : Prop :=
  let steps := payloadSteps s 0
  steps[k]? = some step ∧ AllPass (steps.take k) ∧ FailsAfter (steps.take k) step code ∧ (stepBits (steps.take k)).length = n

/-- A payload of 2029 bits, the shortest of such devices that is too long for a frame. -/
def pastFrame : State := writeCounts [15, 15, 15, 15, 15, 15, 15, 15] [15, 15, 15, 15, 15, 15, 6]
/-- A payload of 2046 bits, the longest of such devices that fits `PB`. -/
def fullBuffer : State := writeCounts [15, 15, 15, 15, 15, 15, 15, 15] [15, 15, 15, 15, 15, 15, 6, 0]

/-- V-SC6 with a payload past 2048 bits after its bad count; V-SC8 with a bad count after its field with no room; and the edges of
a frame that is too long. -/
theorem witness_ScfgErrors :
    Params.defaults.Valid ∧
    StopsAt (writeCounts [16, 15, 15, 15, 15, 15, 15, 15] [15, 15, 15, 15, 15, 15, 15, 15]) 7 (.check false) 4 44 ∧
    StopsAt (writeCounts [15, 15, 15, 15, 15, 15, 15, 15] [15, 15, 15, 15, 15, 15, 15, 16]) 300
      (.append (fieldBits 8 0)) 2 2045 ∧
    (AllPass (payloadSteps pastFrame 0) ∧ (payloadBits pastFrame 0).length = 2029) ∧
    (AllPass (payloadSteps fullBuffer 0) ∧ (payloadBits fullBuffer 0).length = 2046) := by
  refine ⟨defaults_valid, ?_, ?_, ⟨?_, ?_⟩, ?_, ?_⟩
  all_goals (try unfold StopsAt); (try unfold AllPass); (try unfold FailsAfter); decide +kernel

theorem witness_ScfgPayloadLength :
    Params.defaults.Valid ∧ ∃ t, exec (.scfg .one) setup = .next t ∧ t.txvalid = true :=
  ⟨defaults_valid, next_of _ (by decide +kernel)⟩

/-- A first port, a second port beside one with devices, and both ports (V-SC2, V-SC11 on port 1, V-SC10). -/
theorem witness_ScfgUltrasonicSubstitution :
    let second := { State.reset with mem := put 0x800 [41, 7, 1] (put 0x900 [33, 0, 5] (put 0x910 [0xFE] [])) }
    let both := { State.reset with mem := put 0xA00 [33, 10] (put 0xB00 [33, 10] []), boardAddr1 := 5 }
    Params.defaults.Valid ∧
    (Memory.wf setup.mem = true ∧ Memory.read setup.mem 0xA00 = 33 ∧ Memory.read setup.mem 0xB00 ≠ 33 ∧ CountsFit setup 3 ∧
      (payloadBits setup 1).length = 60) ∧
    (Memory.wf second.mem = true ∧ Memory.read second.mem 0x800 = 41 ∧ CountsFit second 0 ∧ Memory.read second.mem 0x900 = 33 ∧
      (payloadBits second 0).length = 80) ∧
    (Memory.wf both.mem = true ∧ Memory.read both.mem 0xA00 = 33 ∧ Memory.read both.mem 0xB00 = 33 ∧
      (payloadBits both 1).length = 96) := by
  refine ⟨defaults_valid, ?_, ?_, ?_⟩
  all_goals (try unfold CountsFit); decide +kernel

/-- V-SC4: a configured count of 12, and what SCFG answers with it and with the clamped count. -/
theorem witness_ScfgClampsTheDeviceCount :
    let s := { State.reset with mem := put 0x800 [41, 0, 12] [] }
    Memory.wf s.mem = true ∧ (Memory.read s.mem 0x802).toNat = 12 ∧ (∃ t, exec (.scfg .zero) s = .next t ∧ t.txvalid = true) ∧
      ∃ t, exec (.scfg .zero) { s with mem := Memory.write s.mem 0x802 8 } = .next t ∧ t.txvalid = true :=
  ⟨by decide, by decide, next_of _ (by decide +kernel), next_of _ (by decide +kernel)⟩

/-- V-SC2 with another byte in `RXB` and another type of port 0. -/
theorem witness_ScfgReadsOnlyTheRequiredConfiguration :
    let mem' := Memory.write (Memory.write setup.mem 0x400 9) 0x800 41
    Memory.wf setup.mem = true ∧ Memory.wf mem' = true ∧
    (∀ a ∈ configRead setup 2 ++ configRead setup 3, Memory.read mem' a = Memory.read setup.mem a) ∧
    (∀ a, a ≤ 0xFF ∨ 0x200 ≤ a ∧ a ≤ 0x2FF → Memory.read mem' a = Memory.read setup.mem a) ∧
    (∃ t, exec (.scfg .one) setup = .next t ∧ t.txvalid = true) ∧
      ∃ t, exec (.scfg .one) { setup with mem := mem' } = .next t ∧ t.txvalid = true := by
  refine ⟨by decide, by decide, by decide +kernel, fun a ha => ?_, next_of _ (by decide +kernel), next_of _ (by decide +kernel)⟩
  rw [read_write_other _ (by omega), read_write_other _ (by omega)]

/-- CLRS and a CLRS word with another bit set, with and without an error. -/
theorem witness_ClrsClearsTheError :
    (issued 0x00000008 { busy with err := 3 }).host = [.store32 0x700 0x00000008] ∧
    (issued 0x00000018 { busy with err := 3 }).host = [.store32 0x700 0x00000018] ∧
    (0x00000018 : Word).extractLsb' 0 4 = 8 ∧ (0x00000018 : Word) ≠ 0x00000008 ∧ busy.err = 0 ∧
    ({ busy with err := 3 } : State).err ≠ 0 := by decide +kernel

theorem witness_ByteReadAfterWrite : Memory.wf busy.mem = true := by decide

/-! ### Sessions of the careful host -/

/-- A frame is sent and the reply awaited, its bytes in `RXB` from an earlier exchange. -/
def talking : Session :=
  { block := busy
    host := { HostRecord.initial with message := .encoded, exchangeOpen := true, replyAwaited := true } }

/-- The reply has come and is loaded. -/
def replied : Session :=
  { block := busy
    host := { talking.host with
      replyAwaited := false, received := some [1, 3, 2, 6], written := [0x71C, 0x400, 0x401, 0x402, 0x403], statusRead := true } }

/-- No exchange is open, and the configuration of V-SC2 is written. -/
def configured : Session :=
  { block := setup, host := { HostRecord.initial with written := [0xA00, 0xA01, 0xB00] } }

/-- A message is being built while `TXF` holds the frame of an earlier one. -/
def rebuilding : Session := { block := busy, host := { HostRecord.initial with message := .building } }

/-- A reply of 300 bytes, of which `RXB` holds the first 256. -/
def overlong : Session :=
  { block := { State.reset with rxlen := 300 }
    host := { HostRecord.initial with
      received := some (List.replicate 300 0), written := 0x71C :: (List.range 256).map (0x400 + ·) } }

/-- Each duty broken: by RSTW and SCFG within a message and within an exchange, ADDB and FENC within an exchange, a send without a
frame, a send, an end of an exchange and an FDEC with a reply awaited, a receive without a send, an FDEC with `RXLEN`, the last
byte of a reply or byte 255 of an over-long one not written, with another last byte or another count, an outcome not read, and an
SCFG with the last byte it reads not written. -/
theorem witness_CarefulHostBreaksNoDuty :
    rebuilding.host.message ≠ .none ∧ talking.host.exchangeOpen = true ∧ decode 0x00000001 = .instr .rstw ∧
    decode 0x00000807 = .instr (.scfg .one) ∧ decode 0x00000082 = .instr (.addb 8) ∧ decode 0x00001005 = .instr (.fenc 1) ∧
    Session.reset.block.txvalid = false ∧ talking.host.replyAwaited = true ∧ replied.host.replyAwaited = false ∧
    decode 0x00000006 = .instr .fdec ∧ 0x71C ∉ talking.host.written ∧
    (3 < busy.rxlen.toNat ∧ 0x400 + 3 ∉ [0x71C, 0x400, 0x401, 0x402]) ∧
    (255 < overlong.block.rxlen.toNat ∧ 0x400 + 255 ∉ 0x71C :: (List.range 255).map (0x400 + ·)) ∧
    (([1, 3, 2, 7] : List Byte).getD 3 0 ≠ rxbByte busy 3 ∧ [1, 3, 2, 6, 0].length ≠ busy.rxlen.toNat) ∧
    talking.host.statusRead = false ∧ (0xB00 ∈ configRead setup 2 ++ configRead setup 3 ∧ 0xB00 ∉ [0xA00, 0xA01]) := by
  decide +kernel

/-- The reset input; an illegal word; ADDB, FENC, RSTW and SCFG outside an exchange with no message open; FDEC of a loaded reply and
of an over-long one; a send, a retry, a receive, the end of an exchange, an outcome read. -/
theorem witness_CarefulHostMay :
    Accepted .resetInput ∧ decode 0x00000009 = .illegal .reservedOpcode ∧
    (configured.host.exchangeOpen = false ∧ configured.host.message = .none) ∧
    (∀ a ∈ configRead setup 2 ++ configRead setup 3, a ∈ configured.host.written) ∧
    (replied.host.replyAwaited = false ∧ replied.block.txvalid = true) ∧ talking.host.replyAwaited = true ∧
    replied.host.exchangeOpen = true ∧ replied.host.statusRead = true ∧
    replyLoaded replied = true ∧ replyLoaded overlong = true ∧
    ∃ y, sessionStep (.access (.store32 0x700 0x00000006)) overlong = .next y ∧ (y.block.err == 3 && y.block.lenbad) = true :=
  ⟨trivial, by decide, by decide, by decide +kernel, by decide, rfl, rfl, rfl, by decide +kernel, by decide +kernel,
    next_of _ (by decide +kernel)⟩

/-- A configured SCFG and its send. -/
theorem witness_CarefulSessionIsARunOfTheBlock :
    (∃ y, sessionRun [.access (.store32 0x700 0x00000807), .send] configured = .next y ∧
      (y.host.exchangeOpen && y.block.wcur == 60) = true) ∧
    accesses [.access (.store32 0x700 0x00000807), .send] = [.store32 0x700 0x00000807] :=
  ⟨next_of _ (by decide +kernel), rfl⟩

theorem busy_legal : Inv busy := { busyNext_legal with }

theorem witness_CarefulSessionKeepsStatesLegal :
    Inv talking.block ∧ talking.block.txvalid = true ∧ talking.host.exchangeOpen = true ∧ talking.host.message = .encoded ∧
    ∃ y, sessionRun [.receive none, .send] talking = .next y ∧ y.host.replyAwaited = true :=
  ⟨busy_legal, rfl, rfl, rfl, next_of _ (by decide +kernel)⟩

/-- A timeout, a read of the frame, the start of an unpack and a retry, all within the exchange. -/
theorem witness_FrameIsHeldThroughTheExchange :
    (∃ y, sessionRun [.receive none, .access (.load8 0x200), .access (.store32 0x700 0x00000003), .send] talking = .next y ∧
      y.host.exchangeOpen = true) ∧
    .endExchange ∉ [HostMove.receive none, .access (.load8 0x200), .access (.store32 0x700 0x00000003), .send] ∧
    Inv replied.block ∧ ∃ y, sessionStep .send replied = .next y ∧ y.host.replyAwaited = true :=
  ⟨next_of _ (by decide +kernel), by decide, busy_legal, next_of _ (by decide +kernel)⟩

theorem witness_CarefulDecodeIsOfTheReply :
    replied.host.received = some [1, 3, 2, 6] ∧ decode 0x00000006 = .instr .fdec ∧ replied.block.err = 0 ∧
    ∃ y, sessionStep (.access (.store32 0x700 0x00000006)) replied = .next y ∧ y.block.rxvalid = true :=
  ⟨rfl, by decide, rfl, next_of _ (by decide +kernel)⟩

/-- A message opened by RSTW, by ADDB, encoded by FENC and by SCFG; one that ends with its exchange and one that FENC finds too long. -/
theorem witness_MessageStaysOpenUntilItsExchangeEnds :
    let command (w : Word) : HostMove := .access (.store32 0x700 w)
    (∃ y, sessionStep (command 0x00000001) Session.reset = .next y ∧ (y.host.message == .building && y.block.err == 0) = true) ∧
    (∃ y, sessionStep (command 0x00000082) rebuilding = .next y ∧ (y.host.message == .building && y.block.err == 0) = true) ∧
    (∃ y, sessionStep (command 0x00001005) rebuilding = .next y ∧ (y.host.message == .encoded && y.block.err == 0) = true) ∧
    (∃ y, sessionStep (command 0x00000807) configured = .next y ∧ (y.host.message == .encoded && y.block.err == 0) = true) ∧
    (∃ y, sessionStep .endExchange replied = .next y ∧ (y.host.message == .none) = true) ∧
    ∃ y, sessionStep (command 0x00001005) { rebuilding with block := packed 2025 [] } = .next y ∧
      (y.host.message == .none && y.block.err == 6) = true :=
  ⟨next_of _ (by decide +kernel), next_of _ (by decide +kernel), next_of _ (by decide +kernel), next_of _ (by decide +kernel),
    next_of _ (by decide +kernel), next_of _ (by decide +kernel)⟩

/-- The old frame's exchange within the build of another message, and an ADDB of width 0, which fails. -/
def oldExchange : List HostMove := [.send, .receive none, .endExchange, .access (.store32 0x700 0x00000002)]

theorem witness_NoOtherMessageBeforeItsExchangeEnds :
    rebuilding.host.message ≠ .none ∧
    (∃ y, sessionRun oldExchange rebuilding = .next y ∧ (y.block.err == 1 && y.host.message == .building) = true) ∧
    .access .resetInput ∉ oldExchange ∧
    (∀ before rest u, oldExchange = before ++ .endExchange :: rest → sessionRun before rebuilding = .next u →
      u.host.message ≠ .encoded) ∧
    (∀ v, .access (.store32 0x700 v) ∈ oldExchange → decode v = .instr (.addb 0)) ∧ decode 0x00000001 = .instr .rstw := by
  refine ⟨by decide, next_of _ (by decide +kernel), by decide, ?_, ?_, by decide⟩
  · intro before rest u h hu
    obtain _ | ⟨a, _ | ⟨b, _ | ⟨c, _ | ⟨d, before⟩⟩⟩⟩ := before <;> simp [oldExchange] at h
    obtain ⟨rfl, rfl, -⟩ := h
    injection hu with hu
    subst hu
    decide
  · intro v hv
    simp only [oldExchange, List.mem_cons, List.not_mem_nil, or_false] at hv
    rcases hv with hv | hv | hv | hv <;> cases hv
    decide

end Sys2Proof.Tests
end

section
/-! What a command, a write to `CMD` and a host event leave in `CMD` and in `STATUS` (10_state.md R31, R33, R34). -/

namespace Sys2Proof

/-- The commands that build a frame in `TXF`. -/
def Instr.buildsFrame : Instr → Bool
  | .fenc _ | .scfg _ => true
  | .nop | .rstw | .addb _ | .rstr | .rdb _ _ | .fdec | .clrs => false

theorem Instr.buildsFrame_iff (i : Instr) : i.buildsFrame = true ↔ (∃ dest, i = .fenc dest) ∨ ∃ pair, i = .scfg pair := by
  cases i <;> simp [Instr.buildsFrame]

/-- FENC and SCFG words, in terms of the command a word decodes to. -/
theorem buildsFrame_iff_of_decode {w : Word} {i : Instr} (h : decode w = .instr i) :
    i.buildsFrame = true ↔ (∃ dest, decode w = .instr (.fenc dest)) ∨ ∃ pair, decode w = .instr (.scfg pair) := by
  simp [h, Instr.buildsFrame_iff]

/-- FDEC has one word: it uses no field. -/
theorem decode_eq_fdec {w : Word} : decode w = .instr .fdec ↔ w = 0x00000006 := by
  constructor
  · intro h
    obtain ⟨hop, hreserved, hunused⟩ := decode_eq_instr.mp h
    have hop : opField w = 6 := by
      unfold commandOf at hop
      split at hop <;> cases hop
      exact BitVec.eq_of_toNat_eq ‹_›
    simp only [unusedFieldsZero, Bool.and_eq_true, beq_iff_eq] at hunused
    obtain ⟨⟨⟨hn, hsrc⟩, hpair⟩, hdest⟩ := hunused
    rw [← wordOf_fields hreserved, hop, hn, hsrc, hpair, hdest]
    rfl
  · rintro rfl
    decide

end Sys2Proof

namespace Sys2Proof.Machine

/-! ### The codes of the errors -/

theorem BlockError.code_ne_zero (e : BlockError) : e.code ≠ 0 := by cases e <;> simp [BlockError.code]

theorem BlockError.code_le_seven (e : BlockError) : e.code.toNat ≤ 7 := by cases e <;> simp [BlockError.code]

/-! ### The commands -/

/-- A command that succeeds: only CLRS changes `ERR`, FDEC sets `RXVALID`, FENC and SCFG set `TXVALID`. -/
structure Succeeded (i : Instr) (s t : State) : Prop where
  cmd : t.cmd = s.cmd
  err : t.err = if i = .clrs then 0 else s.err
  rxvalid : t.rxvalid = (decide (i = .fdec) || s.rxvalid)
  txvalid : t.txvalid = (i.buildsFrame || s.txvalid)

/-- A command that fails: `ERR` is an error's code, FDEC clears `RXVALID`, FENC and SCFG clear `TXVALID`. -/
structure Failed (i : Instr) (s t : State) : Prop where
  cmd : t.cmd = s.cmd
  err : ∃ e : BlockError, t.err = e.code
  rxvalid : t.rxvalid = (!decide (i = .fdec) && s.rxvalid)
  txvalid : t.txvalid = (!i.buildsFrame && s.txvalid)

theorem Succeeded.err_eq_zero {i : Instr} {s t : State} (h : Succeeded i s t) (hs : s.err = 0) : t.err = 0 := by
  rw [h.err, hs, ite_self]

theorem Failed.err_ne_zero {i : Instr} {s t : State} (h : Failed i s t) : t.err ≠ 0 := by
  obtain ⟨e, he⟩ := h.err
  exact he ▸ e.code_ne_zero

/-- A command that touches neither valid bit and raises an error. -/
theorem failed_raise {i : Instr} (hi : i ≠ .fdec) (hb : i.buildsFrame = false) (e : BlockError) (s : State) :
    Failed i s (raise e s) :=
  ⟨rfl, ⟨e, rfl⟩, by simp [hi], by simp [hb]⟩

theorem failed_failEncode {i : Instr} (hi : i.buildsFrame = true) (hd : i ≠ .fdec) (e : BlockError) (s : State) :
    Failed i s (failEncode e s) :=
  ⟨rfl, ⟨e, rfl⟩, by simp [hd], by simp [hi]⟩

theorem failed_failDecode (lenbad : Bool) (len : Nat) (s : State) : Failed .fdec s (failDecode lenbad len s) :=
  ⟨rfl, ⟨.checksumError len, rfl⟩, rfl, rfl⟩

theorem execAddb_status {n : Nat} {s t : State} (h : execAddb n s = .next t) :
    Succeeded (.addb n) s t ∨ Failed (.addb n) s t := by
  rcases execAddb_cases n s with ⟨-, h'⟩ | ⟨-, -, -, h'⟩ | ⟨-, -, -, h'⟩ <;> cases h.symm.trans h'
  · exact .inr (failed_raise (i := .addb n) nofun rfl _ s)
  · exact .inr (failed_raise (i := .addb n) nofun rfl _ s)
  · exact .inl ⟨rfl, rfl, rfl, rfl⟩

theorem execRdb_status {n : Nat} {src : ReadSource} {s t : State} (h : execRdb n src s = .next t) :
    Succeeded (.rdb n src) s t ∨ Failed (.rdb n src) s t := by
  rcases execRdb_cases n src s with ⟨-, h'⟩ | ⟨-, -, -, h'⟩ | ⟨-, -, -, h'⟩ <;> cases h.symm.trans h'
  · exact .inr (failed_raise (i := .rdb n src) nofun rfl _ s)
  · exact .inr (failed_raise (i := .rdb n src) nofun rfl _ s)
  · exact .inl ⟨rfl, rfl, rfl, rfl⟩

theorem execFdec_status {s t : State} (h : execFdec s = .next t) : Succeeded .fdec s t ∨ Failed .fdec s t := by
  rcases execFdec_cases s with ⟨-, h'⟩ | ⟨-, -, -, h'⟩ | ⟨-, -, -, -, h'⟩ | ⟨-, h'⟩ <;> cases h.symm.trans h'
  · exact .inr (failed_failDecode true _ s)
  · exact .inr (failed_failDecode false _ s)
  · exact .inr (failed_failDecode true _ s)
  · exact .inl ⟨rfl, rfl, rfl, rfl⟩

/-- The framing that FENC and SCFG share. -/
theorem frameTo_status {i : Instr} (hb : i.buildsFrame = true) (dest : Byte) (s : State) :
    Succeeded i s (frameTo dest s) ∨ Failed i s (frameTo dest s) := by
  have hd : i ≠ .fdec := by rintro rfl; cases hb
  have hc : i ≠ .clrs := by rintro rfl; cases hb
  rcases frameTo_cases dest s with ⟨-, h⟩ | ⟨-, -, h⟩ | ⟨-, -, h⟩ <;> rw [h]
  · exact .inr (failed_failEncode hb hd _ s)
  · exact .inr (failed_failEncode hb hd _ s)
  · exact .inl ⟨by simp, by simp [hc], by simp [hd], by simp [hb]⟩

/-- A build that an error ends has changed no field but the memory and the write cursor. -/
theorem packAll_failed_others {items : List PackItem} {s t : State} {e : BlockError} (h : packAll items s = .failed e t) :
    t = { s with mem := t.mem, wcur := t.wcur } := by
  obtain ⟨before, -, -, -, hbefore, -⟩ := packAll_failed h
  obtain ⟨-, happended, -⟩ := packAll_ok hbefore
  exact happended.others

theorem execScfg_status {pair : BoardPair} {s t : State} (h : execScfg pair s = .next t) :
    Succeeded (.scfg pair) s t ∨ Failed (.scfg pair) s t := by
  rcases execScfg_cases pair s with ⟨e, u, hp, h'⟩ | ⟨u, hp, h'⟩ <;> cases h.symm.trans h'
  · have hf := failed_failEncode (i := .scfg pair) rfl nofun e u
    rw [packAll_failed_others hp] at hf ⊢
    exact .inr ⟨hf.cmd, hf.err, hf.rxvalid, hf.txvalid⟩
  · obtain ⟨-, happended, -⟩ := packAll_ok hp
    have hf := frameTo_status (i := .scfg pair) rfl (boardAddr pair u) u
    rw [happended.others] at hf ⊢
    exact hf.imp (fun h => ⟨h.cmd, h.err, h.rxvalid, h.txvalid⟩) (fun h => ⟨h.cmd, h.err, h.rxvalid, h.txvalid⟩)

/-- Everything a command can do to `CMD` and `STATUS`: it succeeds or it fails. -/
theorem exec_status {i : Instr} {s t : State} (h : exec i s = .next t) : Succeeded i s t ∨ Failed i s t := by
  cases i with
  | nop => cases h; exact .inl ⟨rfl, rfl, rfl, rfl⟩
  | rstw => cases h; exact .inl ⟨rfl, rfl, rfl, rfl⟩
  | rstr => cases h; exact .inl ⟨rfl, rfl, rfl, rfl⟩
  | clrs => cases h; exact .inl ⟨rfl, rfl, rfl, rfl⟩
  | addb n => exact execAddb_status h
  | rdb n src => exact execRdb_status h
  | fenc dest => cases h; exact frameTo_status rfl dest s
  | fdec => exact execFdec_status h
  | scfg pair => exact execScfg_status h

/-! ### A write to `CMD` -/

theorem decode_clrsWord : decode clrsWord = .instr .clrs := by decide

/-- Everything a write to `CMD` can do to `CMD` and `STATUS`: with the gate closed the word is ignored or it is CLRS's; with the
gate open a command succeeds or fails, or the word is illegal. -/
theorem issueCommand_status {w : Word} {s t : State} (h : issueCommand w s = .next t) :
    (s.err ≠ 0 ∧ w ≠ clrsWord ∧ t = { s with cmd := w }) ∨
    (s.err ≠ 0 ∧ w = clrsWord ∧ t = clearError { s with cmd := w }) ∨
    (s.err = 0 ∧ ∃ i, decode w = .instr i ∧ (Succeeded i { s with cmd := w } t ∨ Failed i { s with cmd := w } t)) ∨
    (s.err = 0 ∧ (∃ why, decode w = .illegal why) ∧ t = raise (.illegalCommand w) { s with cmd := w }) := by
  rcases issueCommand_cases w s with ⟨herr, hw, h'⟩ | ⟨hgate, i, hd, h'⟩ | ⟨herr, hillegal, h'⟩ <;> rw [h'] at h
  · cases h; exact .inl ⟨herr, hw, rfl⟩
  · by_cases herr : s.err = 0
    · exact .inr (.inr (.inl ⟨herr, i, hd, exec_status h⟩))
    · obtain rfl := hgate.resolve_left herr
      cases decode_clrsWord.symm.trans hd
      cases h; exact .inr (.inl ⟨herr, rfl, rfl⟩)
  · cases h; exact .inr (.inr (.inr ⟨herr, hillegal, rfl⟩))

/-- While `ERR` is not 0, every word but CLRS's is stored and does nothing else. -/
theorem issueCommand_of_gate_closed {w : Word} {s : State} (herr : s.err ≠ 0) (hw : w ≠ clrsWord) :
    issueCommand w s = .next { s with cmd := w } :=
  if_pos ⟨herr, hw⟩

theorem issueCommand_cmd {w : Word} {s t : State} (h : issueCommand w s = .next t) : t.cmd = w := by
  rcases issueCommand_status h with ⟨-, -, rfl⟩ | ⟨-, -, rfl⟩ | ⟨-, i, -, hr | hr⟩ | ⟨-, -, rfl⟩
  · rfl
  · rfl
  · exact hr.cmd
  · exact hr.cmd
  · rfl

theorem issueCommand_err_sticky {w : Word} {s t : State} (h : issueCommand w s = .next t) (herr : s.err ≠ 0) :
    t.err = s.err ∨ (t.err = 0 ∧ w = clrsWord) := by
  rcases issueCommand_status h with ⟨-, -, rfl⟩ | ⟨-, hw, rfl⟩ | ⟨herr', -⟩ | ⟨herr', -⟩
  · exact .inl rfl
  · exact .inr ⟨rfl, hw⟩
  · exact absurd herr' herr
  · exact absurd herr' herr

theorem issueCommand_err_le_seven {w : Word} {s t : State} (h : issueCommand w s = .next t) (hs : s.err.toNat ≤ 7) :
    t.err.toNat ≤ 7 := by
  rcases issueCommand_status h with ⟨-, -, rfl⟩ | ⟨-, -, rfl⟩ | ⟨herr, i, -, hr | hr⟩ | ⟨-, -, rfl⟩
  · exact hs
  · exact Nat.zero_le 7
  · rw [hr.err_eq_zero herr]; exact Nat.zero_le 7
  · obtain ⟨e, he⟩ := hr.err
    rw [he]; exact e.code_le_seven
  · exact BlockError.code_le_seven _

/-- An FDEC that runs sets `RXVALID` exactly when it succeeds. -/
theorem issueCommand_fdec_rxvalid {s t : State} (h : issueCommand 0x00000006 s = .next t) (herr : s.err = 0) :
    t.rxvalid = decide (t.err = 0) := by
  have hfdec := decode_eq_fdec.mpr rfl
  rcases issueCommand_status h with ⟨herr', -⟩ | ⟨herr', -⟩ | ⟨-, i, hd, hr⟩ | ⟨-, ⟨why, hd⟩, -⟩
  · exact absurd herr herr'
  · exact absurd herr herr'
  · cases hfdec.symm.trans hd
    rcases hr with hr | hr
    · simp [hr.rxvalid, hr.err_eq_zero herr]
    · rw [hr.rxvalid, decide_eq_false hr.err_ne_zero]; rfl
  · cases hfdec.symm.trans hd

theorem issueCommand_rxvalid_kept {w : Word} {s t : State} (h : issueCommand w s = .next t)
    (hw : ¬ (s.err = 0 ∧ w = 0x00000006)) : t.rxvalid = s.rxvalid := by
  rcases issueCommand_status h with ⟨-, -, rfl⟩ | ⟨-, -, rfl⟩ | ⟨herr, i, hd, hr⟩ | ⟨-, -, rfl⟩
  · rfl
  · rfl
  · have hi : i ≠ .fdec := by
      rintro rfl
      exact hw ⟨herr, decode_eq_fdec.mp hd⟩
    rcases hr with hr | hr <;> simp [hr.rxvalid, hi]
  · rfl

/-- An FENC or SCFG that runs sets `TXVALID` exactly when it succeeds. -/
theorem issueCommand_builds_txvalid {w : Word} {s t : State} (h : issueCommand w s = .next t) (herr : s.err = 0)
    (hw : (∃ dest, decode w = .instr (.fenc dest)) ∨ ∃ pair, decode w = .instr (.scfg pair)) :
    t.txvalid = decide (t.err = 0) := by
  rcases issueCommand_status h with ⟨herr', -⟩ | ⟨herr', -⟩ | ⟨-, i, hd, hr⟩ | ⟨-, ⟨why, hd⟩, -⟩
  · exact absurd herr herr'
  · exact absurd herr herr'
  · have hi := (buildsFrame_iff_of_decode hd).mpr hw
    rcases hr with hr | hr
    · simp [hr.txvalid, hr.err_eq_zero herr, hi]
    · rw [hr.txvalid, hi, decide_eq_false hr.err_ne_zero]; rfl
  · simp [hd] at hw

theorem issueCommand_txvalid_kept {w : Word} {s t : State} (h : issueCommand w s = .next t)
    (hw : ¬ (s.err = 0 ∧ ((∃ dest, decode w = .instr (.fenc dest)) ∨ ∃ pair, decode w = .instr (.scfg pair)))) :
    t.txvalid = s.txvalid := by
  rcases issueCommand_status h with ⟨-, -, rfl⟩ | ⟨-, -, rfl⟩ | ⟨herr, i, hd, hr⟩ | ⟨-, -, rfl⟩
  · rfl
  · rfl
  · have hi : i.buildsFrame ≠ true := fun hi => hw ⟨herr, (buildsFrame_iff_of_decode hd).mp hi⟩
    rcases hr with hr | hr <;> simp [hr.txvalid, hi]
  · rfl

/-! ### RDB with no received frame -/

/-- With `RXVALID` = 0 the received payload offers no bit, so every legal width overflows (10_state.md R33). -/
theorem execRdb_rxPayload_of_not_rxvalid {s : State} {n : Nat} (hrx : s.rxvalid = false) (h₁ : 1 ≤ n) (h₃₂ : n ≤ 32) :
    execRdb n .rxPayload s = .next { s with err := 2 } := by
  have hlimit : readLimit .rxPayload s = 0 := by simp [readLimit, hrx]
  rcases execRdb_cases n .rxPayload s with ⟨hn, -⟩ | ⟨-, -, -, h⟩ | ⟨-, -, hfits, -⟩
  · exact absurd ⟨h₁, h₃₂⟩ hn
  · exact h
  · omega

/-! ### The other host events -/

/-- The host writes that end the received frame's validity: to a byte of `RXB` or to `RXLEN` (10_state.md R33). -/
def EndsRxView (e : HostEvent) : Prop :=
  (∃ a v, e = .store8 a v ∧ 0x400 ≤ a.toNat ∧ a.toNat ≤ 0x4FF) ∨ ∃ v, e = .store32 0x71C v

/-- An event that is no write to `CMD` and no reset: of `STATUS` it can only clear `RXVALID`, and does so exactly as a write that
ends the received frame's validity. -/
structure StatusKept (e : HostEvent) (s t : State) : Prop where
  err : t.err = s.err
  txvalid : t.txvalid = s.txvalid
  rxvalid : ¬ EndsRxView e → t.rxvalid = s.rxvalid
  rxvalid_ended : EndsRxView e → t.rxvalid = false

theorem StatusKept.of_not_ends {e : HostEvent} {s t : State} (he : ¬ EndsRxView e) (herr : t.err = s.err)
    (htx : t.txvalid = s.txvalid) (hrx : t.rxvalid = s.rxvalid) : StatusKept e s t :=
  ⟨herr, htx, fun _ => hrx, fun he' => absurd he' he⟩

theorem StatusKept.of_ends {e : HostEvent} {s t : State} (he : EndsRxView e) (herr : t.err = s.err)
    (htx : t.txvalid = s.txvalid) (hrx : t.rxvalid = false) : StatusKept e s t :=
  ⟨herr, htx, fun he' => absurd he he', fun _ => hrx⟩

theorem endsRxView_store8 (a : Addr) (v : Byte) : EndsRxView (.store8 a v) ↔ 0x400 ≤ a.toNat ∧ a.toNat ≤ 0x4FF := by
  simp [EndsRxView]

theorem endsRxView_store32 (a : Addr) (v : Word) : EndsRxView (.store32 a v) ↔ a = 0x71C := by
  simp [EndsRxView]

theorem storeByte_status {a : Addr} (v : Byte) (s : State) (hm : byteMapped a.toNat = true) :
    StatusKept (.store8 a v) s (storeByte a.toNat v s) := by
  have hends := endsRxView_store8 a v
  rcases storeByte_cases a.toNat v s with ⟨h, htxf | hunmapped⟩ | ⟨h, ha, -⟩ | ⟨h, hlo, hhi, -⟩ <;> rw [h]
  · exact .of_not_ends (mt hends.mp (by omega)) rfl rfl rfl
  · cases hm.symm.trans hunmapped
  · exact .of_not_ends (mt hends.mp (by omega)) rfl rfl rfl
  · exact .of_ends (hends.mpr ⟨hlo, hhi⟩) rfl rfl rfl

/-- A write to a register other than `CMD` and `RXLEN`. -/
theorem store32_status {a : Addr} {s t : State} (v : Word) (hcmd : a ≠ 0x700) (hlen : a ≠ 0x71C) (herr : t.err = s.err)
    (htx : t.txvalid = s.txvalid) (hrx : t.rxvalid = s.rxvalid) :
    (∀ w, HostEvent.store32 a v ≠ .store32 0x700 w) ∧ HostEvent.store32 a v ≠ .resetInput ∧ StatusKept (.store32 a v) s t :=
  ⟨fun _ he => hcmd (HostEvent.store32.inj he).1, nofun,
    .of_not_ends (mt (endsRxView_store32 a v).mp hlen) herr htx hrx⟩

/-- Everything a host event that gives a next state can do to `STATUS`: a command word is issued, the block is reset, or the
event is neither. -/
theorem hostEvent_status {e : HostEvent} {s t : State} (h : hostEvent e s = .next t) :
    (∃ w, e = .store32 0x700 w ∧ issueCommand w s = .next t) ∨ (e = .resetInput ∧ t = resetBlock s) ∨
    ((∀ w, e ≠ .store32 0x700 w) ∧ e ≠ .resetInput ∧ StatusKept e s t) := by
  rcases hostEvent_cases h with ⟨r, rfl, ⟨a, rfl⟩ | ⟨a, rfl⟩⟩ | ⟨a, v, rfl, hm, rfl⟩ | hcmd | ⟨v, rfl, rfl⟩ | ⟨v, rfl, rfl⟩ |
    ⟨v, rfl, rfl⟩ | ⟨v, rfl, rfl⟩ | ⟨a, v, rfl, ha, rfl⟩ | hreset
  · exact .inr (.inr ⟨nofun, nofun, .of_not_ends (by simp [EndsRxView]) rfl rfl rfl⟩)
  · exact .inr (.inr ⟨nofun, nofun, .of_not_ends (by simp [EndsRxView]) rfl rfl rfl⟩)
  · exact .inr (.inr ⟨nofun, nofun, storeByte_status v s hm⟩)
  · exact .inl hcmd
  · exact .inr (.inr (store32_status v (by decide) (by decide) rfl rfl rfl))
  · exact .inr (.inr ⟨by simp, nofun, .of_ends ((endsRxView_store32 _ v).mpr rfl) rfl rfl rfl⟩)
  · exact .inr (.inr (store32_status v (by decide) (by decide) rfl rfl rfl))
  · exact .inr (.inr (store32_status v (by decide) (by decide) rfl rfl rfl))
  · have hne : a ≠ 0x700 ∧ a ≠ 0x71C := by
      clear h
      revert a
      decide
    exact .inr (.inr (store32_status v hne.1 hne.2 rfl rfl rfl))
  · exact .inr (.inl hreset)

/-! ### One step -/

/-- Everything a step can do to `ERR`. -/
theorem step_err_cases {s t : State} (h : step s = .next t) :
    t.err = s.err ∨ (t.err = 0 ∧ ∃ rest, s.host = .resetInput :: rest) ∨
    ∃ w rest, s.host = .store32 0x700 w :: rest ∧ issueCommand w (s.begin rest) = .next t := by
  rcases step_cases h with ⟨-, rfl⟩ | ⟨e, rest, hs, he⟩
  · exact .inl rfl
  · rcases hostEvent_status he with ⟨w, rfl, hw⟩ | ⟨rfl, rfl⟩ | ⟨-, -, hkept⟩
    · exact .inr (.inr ⟨w, rest, hs, hw⟩)
    · exact .inr (.inl ⟨rfl, rest, hs⟩)
    · exact .inl hkept.err

theorem step_err_sticky {s t : State} (h : step s = .next t) (herr : s.err ≠ 0) :
    t.err = s.err ∨ (t.err = 0 ∧ ∃ rest, s.host = .store32 0x700 clrsWord :: rest ∨ s.host = .resetInput :: rest) := by
  rcases step_err_cases h with hkept | ⟨hzero, rest, hs⟩ | ⟨w, rest, hs, hw⟩
  · exact .inl hkept
  · exact .inr ⟨hzero, rest, .inr hs⟩
  · rcases issueCommand_err_sticky hw herr with hkept | ⟨hzero, rfl⟩
    · exact .inl hkept
    · exact .inr ⟨hzero, rest, .inl hs⟩

/-- `ERR` is set only by a write to `CMD`. -/
theorem step_err_set {s t : State} (h : step s = .next t) (hs : s.err = 0) (ht : t.err ≠ 0) :
    ∃ w rest, s.host = .store32 0x700 w :: rest ∧ t.cmd = w := by
  rcases step_err_cases h with hkept | ⟨hzero, -⟩ | ⟨w, rest, hhost, hw⟩
  · exact absurd (hkept.trans hs) ht
  · exact absurd hzero ht
  · exact ⟨w, rest, hhost, issueCommand_cmd hw⟩

theorem step_err_le_seven {s t : State} (h : step s = .next t) (hs : s.err.toNat ≤ 7) : t.err.toNat ≤ 7 := by
  rcases step_err_cases h with hkept | ⟨hzero, -⟩ | ⟨w, rest, -, hw⟩
  · rw [hkept]; exact hs
  · rw [hzero]; exact Nat.zero_le 7
  · exact issueCommand_err_le_seven hw hs

/-- A step with the gate closed and a word other than CLRS's. -/
theorem step_of_gate_closed {s : State} {w : Word} {rest : List HostEvent} (hs : s.host = .store32 0x700 w :: rest)
    (herr : s.err ≠ 0) (hw : w ≠ clrsWord) : step s = .next { s with host := rest, reply := .nothing, cmd := w } := by
  rw [step_event hs, hostEvent_cmd]
  exact issueCommand_of_gate_closed herr hw

/-! ### The statements -/

/-- Settles O17, by everything a step can do to `ERR`. -/
theorem errIsStickyUntilClrsOrReset : Obligations.ErrIsStickyUntilClrsOrReset := by
  intro s t h
  refine ⟨step_err_sticky h, step_err_set h, step_err_le_seven h, fun w rest herr hs hw => ?_⟩
  cases h.symm.trans (step_of_gate_closed hs herr hw)
  rfl

/-- Settles O18, by the kind of the host event. -/
theorem rxvalidRule : Obligations.RxvalidRule := by
  refine ⟨fun s t e rest hs h => ?_, fun s n hrx h₁ h₃₂ => execRdb_rxPayload_of_not_rxvalid hrx h₁ h₃₂⟩
  rw [step_event hs] at h
  rcases hostEvent_status h with ⟨w, rfl, hw⟩ | ⟨rfl, rfl⟩ | ⟨hcmd, hreset, hkept⟩
  · refine ⟨fun herr he => ?_, fun he => ?_, fun hfdec _ _ _ => ?_⟩
    · cases he
      exact issueCommand_fdec_rxvalid hw herr
    · simp at he
    · exact issueCommand_rxvalid_kept (s := s.begin rest) hw fun ⟨herr, hw⟩ => hfdec ⟨herr, by rw [hw]⟩
  · exact ⟨fun _ => nofun, fun _ => rfl, fun _ _ _ hne => absurd rfl hne⟩
  · refine ⟨fun _ he => absurd he (hcmd _), fun he => ?_, fun _ hbyte hlen _ => hkept.rxvalid fun he => ?_⟩
    · rcases he with hbyte | hlen | he
      · exact hkept.rxvalid_ended (.inl hbyte)
      · exact hkept.rxvalid_ended (.inr hlen)
      · exact absurd he hreset
    · exact he.elim hbyte hlen

/-- Settles O19, by the kind of the host event. -/
theorem txvalidRule : Obligations.TxvalidRule := by
  intro s t e rest hs h
  rw [step_event hs] at h
  rcases hostEvent_status h with ⟨w, rfl, hw⟩ | ⟨rfl, rfl⟩ | ⟨hcmd, hreset, hkept⟩
  · refine ⟨fun ⟨herr, w', he, hbuilds⟩ => ?_, nofun, fun hnot _ => ?_⟩
    · cases he
      exact issueCommand_builds_txvalid hw herr hbuilds
    · exact issueCommand_txvalid_kept (s := s.begin rest) hw fun ⟨herr, hbuilds⟩ => hnot ⟨herr, w, rfl, hbuilds⟩
  · exact ⟨fun ⟨_, _, he, _⟩ => (nomatch he), fun _ => rfl, fun _ hne => absurd rfl hne⟩
  · exact ⟨fun ⟨_, w, he, _⟩ => absurd he (hcmd w), fun he => absurd he hreset, fun _ _ => hkept.txvalid⟩

end Sys2Proof.Machine
end

section
/-! What the host port answers to every event: which ones are rejected, and which stores are ignored (20_memory.md R64, R71). -/

namespace Sys2Proof.Machine

open Sys2Proof.Safety

/-! ### Commands never fault -/

/-- Every command gives a next state: its errors are recorded in `STATUS` and are no faults (60_exceptions.md R231). -/
theorem exec_gives_next (i : Instr) (s : State) : ∃ t, exec i s = .next t := by
  cases i with
  | nop | rstw | rstr | clrs => exact ⟨_, rfl⟩
  | fenc dest => exact ⟨_, rfl⟩
  | addb n => rcases execAddb_cases n s with ⟨-, h⟩ | ⟨-, -, -, h⟩ | ⟨-, -, -, h⟩ <;> exact ⟨_, h⟩
  | rdb n src => rcases execRdb_cases n src s with ⟨-, h⟩ | ⟨-, -, -, h⟩ | ⟨-, -, -, h⟩ <;> exact ⟨_, h⟩
  | fdec => rcases execFdec_cases s with ⟨-, h⟩ | ⟨-, -, -, h⟩ | ⟨-, -, -, -, h⟩ | ⟨-, h⟩ <;> exact ⟨_, h⟩
  | scfg pair => rcases execScfg_cases pair s with ⟨_, _, -, h⟩ | ⟨_, -, h⟩ <;> exact ⟨_, h⟩

theorem issueCommand_gives_next (w : Word) (s : State) : ∃ t, issueCommand w s = .next t := by
  rcases issueCommand_cases w s with ⟨-, -, h⟩ | ⟨-, i, -, h⟩ | ⟨-, -, h⟩
  · exact ⟨_, h⟩
  · rw [h]; exact exec_gives_next i _
  · exact ⟨_, h⟩

/-! ### The register window -/

theorem writeReg_gives_next (r : Reg) (v : Word) (s : State) : ∃ t, writeReg r v s = .next t := by
  cases r with
  | cmd => exact issueCommand_gives_next v s
  | _ => exact ⟨_, rfl⟩

theorem regAt_eq_none {a : Nat} (h : ¬ IsRegisterAddress a) : regAt a = none :=
  Option.eq_none_iff_forall_ne_some.mpr fun r hr => h ((regAt_iff a).mp ⟨r, hr⟩)

/-- The registers that a host write leaves alone (20_memory.md R71). -/
def Reg.readOnly : Reg → Bool
  | .status | .dataOut | .wcur | .rcur | .txlen | .rxDest | .rxCount | .rxType | .rxPlen => true
  | .cmd | .dataIn | .rxlen | .boardAddr0 | .boardAddr1 => false

theorem writeReg_of_readOnly {r : Reg} (h : r.readOnly = true) (v : Word) (s : State) : writeReg r v s = .next s := by
  cases r with
  | cmd | dataIn | rxlen | boardAddr0 | boardAddr1 => cases h
  | _ => rfl

/-- The nine addresses that R71 makes read-only hold read-only registers. -/
theorem regAt_readOnly {a : Addr} (ha : a ∈ [0x704#12, 0x70C, 0x710, 0x714, 0x718, 0x720, 0x724, 0x728, 0x72C]) :
    ∃ r, regAt a.toNat = some r ∧ r.readOnly = true := by
  refine (Option.any_eq_true _ _).mp ?_
  revert a
  decide

/-! ### The four accesses -/

theorem hostEvent_load32 {a : Addr} {r : Reg} (h : regAt a.toNat = some r) (s : State) :
    hostEvent (.load32 a) s = .next { s with reply := .word (readReg r s) } := by
  simp only [hostEvent, h]

theorem hostEvent_store32 {a : Addr} {r : Reg} (h : regAt a.toNat = some r) (v : Word) (s : State) :
    hostEvent (.store32 a v) s = writeReg r v s := by
  simp only [hostEvent, h]

theorem hostEvent_load8 {a : Addr} (h : IsByteAddress a.toNat) (s : State) :
    hostEvent (.load8 a) s = .next { s with reply := .byte (Memory.read s.mem a.toNat) } :=
  if_pos ((byteMapped_iff _).mpr h)

theorem hostEvent_store8 {a : Addr} (h : IsByteAddress a.toNat) (v : Byte) (s : State) :
    hostEvent (.store8 a v) s = .next (storeByte a.toNat v s) :=
  if_pos ((byteMapped_iff _).mpr h)

/-- Every event the map accepts gives a next state. -/
theorem hostEvent_of_accepted {e : HostEvent} (h : Accepted e) (s : State) : ∃ t, hostEvent e s = .next t := by
  cases e with
  | load8 a => exact ⟨_, hostEvent_load8 h s⟩
  | store8 a v => exact ⟨_, hostEvent_store8 h v s⟩
  | load32 a =>
    obtain ⟨r, hr⟩ := (regAt_iff _).mpr h
    exact ⟨_, hostEvent_load32 hr s⟩
  | store32 a v =>
    obtain ⟨r, hr⟩ := (regAt_iff _).mpr h
    rw [hostEvent_store32 hr]
    exact writeReg_gives_next r v s
  | resetInput => exact ⟨_, rfl⟩

/-- Every event the map rejects is answered by BusError, at any state. -/
theorem hostEvent_of_not_accepted {e : HostEvent} (h : ¬ Accepted e) (s : State) :
    ∃ a, hostEvent e s = .fault (.busError a) := by
  cases e with
  | load8 a => exact ⟨a, if_neg (mt (byteMapped_iff _).mp h)⟩
  | store8 a v => exact ⟨a, if_neg (mt (byteMapped_iff _).mp h)⟩
  | load32 a => exact ⟨a, by simp only [hostEvent, regAt_eq_none h]⟩
  | store32 a v => exact ⟨a, by simp only [hostEvent, regAt_eq_none h]⟩
  | resetInput => exact absurd trivial h

/-- A store to a byte of `TXF` changes nothing. -/
theorem storeByte_txf {a : Nat} (hlo : 0x200 ≤ a) (hhi : a ≤ 0x2FF) (v : Byte) (s : State) : storeByte a v s = s := by
  rcases storeByte_cases a v s with ⟨h, -⟩ | ⟨-, hout, -⟩ | ⟨-, hrxb, -⟩
  · exact h
  · omega
  · omega

/-! ### The statements -/

/-- Settles O7, by the kind of the event and the address map. -/
theorem busErrorExactlyOnRejectedAccesses : Obligations.BusErrorExactlyOnRejectedAccesses := by
  intro s e rest hs
  rw [step_event hs]
  exact ⟨fun h => hostEvent_of_not_accepted h _, fun h => hostEvent_of_accepted h _⟩

/-- Settles O10, by the register at each read-only address and the window of a `TXF` byte. -/
theorem readOnlyWritesAreIgnored : Obligations.ReadOnlyWritesAreIgnored := by
  refine fun s rest => ⟨fun a v ha hs => ?_, fun a v hlo hhi hs => ?_⟩
  · obtain ⟨r, hr, hreadOnly⟩ := regAt_readOnly ha
    rw [step_event hs, hostEvent_store32 hr]
    exact writeReg_of_readOnly hreadOnly v _
  · rw [step_event hs, hostEvent_store8 (.inr (.inl ⟨hlo, hhi⟩)), storeByte_txf hlo hhi]
    rfl

end Sys2Proof.Machine
end

section
/-! Which command words are legal, by field, by the opcode table and by the decoder, and what a write of each kind of word to
`CMD` does (30_encoding.md R92, R93). -/

namespace Sys2Proof

/-! ### Legality by field -/

/-- Every field that the opcode does not use is 0: `N` is ADDB's and RDB's, `SRC` is RDB's, `PAIR` is SCFG's and `DEST` is
FENC's (30_encoding.md R93). -/
def OnlyUsedFields (w : Word) : Prop :=
  (nField w = 0 ∨ (opField w).toNat = 2 ∨ (opField w).toNat = 4) ∧ (srcField w = 0 ∨ (opField w).toNat = 4) ∧
  (pairField w = 0 ∨ (opField w).toNat = 7) ∧ (destField w = 0 ∨ (opField w).toNat = 5)

/-- A word that R93 makes legal. -/
def LegalWord (w : Word) : Prop := reservedField w = 0 ∧ (opField w).toNat < 9 ∧ OnlyUsedFields w

/-! ### Legality by the decoder -/

theorem commandOf_isSome_iff {w : Word} : (∃ i, commandOf w = some i) ↔ (opField w).toNat < 9 := by
  unfold commandOf
  split
  case h_10 =>
    simp only [imp_false] at *
    exact iff_of_false nofun (by omega)
  all_goals simp [*]

/-- The decoder's test of the unused fields is R93's. -/
theorem unusedFieldsZero_iff {w : Word} {i : Instr} (h : commandOf w = some i) :
    unusedFieldsZero i w = true ↔ OnlyUsedFields w := by
  unfold commandOf at h
  split at h <;> cases h <;> simp [unusedFieldsZero, OnlyUsedFields, and_assoc, *]

theorem legalWord_iff_decode {w : Word} : LegalWord w ↔ ∃ i, decode w = .instr i := by
  constructor
  · rintro ⟨hreserved, hop, hfields⟩
    obtain ⟨i, hi⟩ := commandOf_isSome_iff.mpr hop
    exact ⟨i, decode_eq_instr.mpr ⟨hi, hreserved, (unusedFieldsZero_iff hi).mpr hfields⟩⟩
  · rintro ⟨i, hd⟩
    obtain ⟨hi, hreserved, hunused⟩ := decode_eq_instr.mp hd
    exact ⟨hreserved, commandOf_isSome_iff.mp ⟨i, hi⟩, (unusedFieldsZero_iff hi).mp hunused⟩

/-! ### Legality by the opcode table -/

/-- Two words with their reserved bits 0 are equal exactly when their fields are. -/
theorem word_eq_iff_fields {v w : Word} (hv : reservedField v = 0) (hw : reservedField w = 0) :
    v = w ↔ opField v = opField w ∧ nField v = nField w ∧ srcField v = srcField w ∧ pairField v = pairField w ∧
      destField v = destField w := by
  constructor
  · rintro rfl
    exact ⟨rfl, rfl, rfl, rfl, rfl⟩
  · rintro ⟨hop, hn, hsrc, hpair, hdest⟩
    rw [← wordOf_fields hv, ← wordOf_fields hw, hop, hn, hsrc, hpair, hdest]

/-- Row `k` of the table matches opcode `k`, with every other bit 0. -/
theorem opcodeTable_match : ∀ k : Fin opcodeTable.length,
    (opcodeTable.get k).1 = wordOf 0 0 0 0 (BitVec.ofNat 4 k) := by
  decide

/-- Row `k` of the table masks out exactly the fields that opcode `k` uses. -/
theorem opcodeTable_mask : ∀ k : Fin opcodeTable.length,
    reservedField (opcodeTable.get k).2 = BitVec.allOnes 12 ∧ opField (opcodeTable.get k).2 = BitVec.allOnes 4 ∧
    nField (opcodeTable.get k).2 = (if (k : Nat) = 2 ∨ (k : Nat) = 4 then 0 else BitVec.allOnes 6) ∧
    srcField (opcodeTable.get k).2 = (if (k : Nat) = 4 then 0 else BitVec.allOnes 1) ∧
    pairField (opcodeTable.get k).2 = (if (k : Nat) = 7 then 0 else BitVec.allOnes 1) ∧
    destField (opcodeTable.get k).2 = (if (k : Nat) = 5 then 0 else BitVec.allOnes 8) := by
  decide

/-- A mask that keeps the reserved bits matches field by field. -/
theorem and_mask_eq_iff_fields {w mask bits : Word} (hmask : reservedField mask = BitVec.allOnes 12)
    (hbits : reservedField bits = 0) :
    w &&& mask = bits ↔ reservedField w = 0 ∧ opField w &&& opField mask = opField bits ∧
      nField w &&& nField mask = nField bits ∧ srcField w &&& srcField mask = srcField bits ∧
      pairField w &&& pairField mask = pairField bits ∧ destField w &&& destField mask = destField bits := by
  have hreserved : reservedField (w &&& mask) = reservedField w := by
    calc reservedField (w &&& mask) = reservedField w &&& reservedField mask := BitVec.extractLsb'_and
      _ = reservedField w := by rw [hmask, BitVec.and_allOnes]
  have hfields (hw : reservedField w = 0) := word_eq_iff_fields (hreserved.trans hw) hbits
  simp only [opField, nField, srcField, pairField, destField, BitVec.extractLsb'_and] at hfields
  constructor
  · intro h
    have hw : reservedField w = 0 := by rw [← hreserved, h, hbits]
    exact ⟨hw, (hfields hw).mp h⟩
  · rintro ⟨hw, h⟩
    exact (hfields hw).mpr h

/-- A mask that is all zeros or all ones. -/
theorem and_ite_allOnes {n : Nat} (x : BitVec n) (p : Prop) [Decidable p] :
    x &&& (if p then 0 else BitVec.allOnes n) = 0 ↔ x = 0 ∨ p := by
  split <;> simp [*]

/-- A word matches row `k` exactly when its opcode is `k` and R93 finds nothing else wrong with it. -/
theorem matches_row_iff (k : Fin opcodeTable.length) (w : Word) :
    w &&& (opcodeTable.get k).2 = (opcodeTable.get k).1 ↔
      reservedField w = 0 ∧ (opField w).toNat = k ∧ OnlyUsedFields w := by
  have hk : (k : Nat) < 9 := k.isLt
  have hop : opField w = BitVec.ofNat 4 k ↔ (opField w).toNat = k := by
    rw [← BitVec.toNat_inj, BitVec.toNat_ofNat, Nat.mod_eq_of_lt (by omega)]
  obtain ⟨hreserved, hopMask, hn, hsrc, hpair, hdest⟩ := opcodeTable_mask k
  rw [opcodeTable_match, and_mask_eq_iff_fields hreserved (reservedField_wordOf ..), hopMask, hn, hsrc, hpair, hdest,
    opField_wordOf, nField_wordOf, srcField_wordOf, pairField_wordOf, destField_wordOf, BitVec.and_allOnes, hop]
  simp only [and_ite_allOnes]
  refine and_congr_right fun _ => and_congr_right fun heq => ?_
  rw [OnlyUsedFields, heq]

theorem legalWord_iff_opcodeTable {w : Word} : LegalWord w ↔ ∃ row ∈ opcodeTable, w &&& row.2 = row.1 := by
  rw [List.exists_mem_iff_get]
  simp only [matches_row_iff]
  exact ⟨fun ⟨hreserved, hop, h⟩ => ⟨⟨_, hop⟩, hreserved, rfl, h⟩,
    fun ⟨k, hreserved, hop, h⟩ => ⟨hreserved, hop ▸ k.isLt, h⟩⟩

/-- The ways to be illegal, one by one, as R93 lists them. -/
theorem not_legalWord_iff {w : Word} : ¬ LegalWord w ↔
    9 ≤ (opField w).toNat ∨ reservedField w ≠ 0 ∨ (nField w ≠ 0 ∧ (opField w).toNat ≠ 2 ∧ (opField w).toNat ≠ 4) ∨
      (srcField w ≠ 0 ∧ (opField w).toNat ≠ 4) ∨ (pairField w ≠ 0 ∧ (opField w).toNat ≠ 7) ∨
      (destField w ≠ 0 ∧ (opField w).toNat ≠ 5) := by
  simp only [LegalWord, OnlyUsedFields, not_and_or, not_or, not_lt, ne_eq]
  exact or_left_comm

end Sys2Proof

namespace Sys2Proof.Machine

/-! ### A step with a write to `CMD` -/

/-- A step whose event is a write to `CMD` issues the word. -/
theorem step_cmd {s : State} {w : Word} {rest : List HostEvent} (hs : s.host = .store32 0x700 w :: rest) :
    step s = issueCommand w (s.begin rest) := by
  rw [step_event hs, hostEvent_cmd]

/-- With the gate open a command's word runs the command. -/
theorem issueCommand_of_command {w : Word} {i : Instr} {s : State} (hd : decode w = .instr i)
    (hgate : s.err = 0 ∨ w = clrsWord) : issueCommand w s = exec i { s with cmd := w } := by
  rcases issueCommand_cases w s with ⟨herr, hw, -⟩ | ⟨-, j, hj, h⟩ | ⟨-, ⟨why, hillegal⟩, -⟩
  · exact absurd hgate (not_or.mpr ⟨herr, hw⟩)
  · cases hd.symm.trans hj
    exact h
  · cases hd.symm.trans hillegal

/-- With `ERR` = 0 an illegal word raises ILLEGAL_COMMAND and does nothing else. -/
theorem issueCommand_of_not_legalWord {w : Word} {s : State} (hw : ¬ LegalWord w) (herr : s.err = 0) :
    issueCommand w s = .next { s with cmd := w, err := 7 } := by
  rcases issueCommand_cases w s with ⟨herr', -, -⟩ | ⟨-, i, hd, -⟩ | ⟨-, -, h⟩
  · exact absurd herr herr'
  · exact absurd (legalWord_iff_decode.mpr ⟨i, hd⟩) hw
  · exact h

/-! ### The statements -/

/-- Settles O3, by the three ways to say that a word is legal. -/
theorem illegalWordsRaiseIllegalCommand : Obligations.IllegalWordsRaiseIllegalCommand := by
  intro w op bad
  have hbad : ¬ LegalWord w ↔ bad := not_legalWord_iff
  have hlegal : ¬ bad ↔ LegalWord w := by rw [← hbad, not_not]
  refine ⟨hlegal.trans legalWord_iff_opcodeTable, hlegal.trans legalWord_iff_decode, fun s rest hs herr h => ?_⟩
  rw [step_cmd hs]
  exact issueCommand_of_not_legalWord (hbad.mpr h) herr

/-- Settles O5, by the error gate. -/
theorem stepRunsTheDecodedCommand : Obligations.StepRunsTheDecodedCommand := by
  intro s w rest hs
  refine ⟨fun i hd hgate => ?_, step_of_gate_closed hs⟩
  rw [step_cmd hs]
  exact issueCommand_of_command hd hgate

end Sys2Proof.Machine
end

section
/-! The bit-packing shifter's commands: the words they have, and what each one does (40_bitpacker.md R120 to R124). -/

namespace Sys2Proof

/-! ### The words with a width -/

/-- A word with only an opcode, a width and a source: its three fields side by side (30_encoding.md R90). -/
theorem wordOf_width_source {n : Nat} (hn : n < 64) (src : BitVec 1) (op : BitVec 4) :
    wordOf 0 0 src (BitVec.ofNat 6 n) op = op.setWidth 32 ||| src.setWidth 32 <<< 10 ||| BitVec.ofNat 32 n <<< 4 := by
  refine BitVec.eq_of_getLsbD_eq fun k hk => ?_
  have hop (h : 4 ≤ k) : op.getLsbD k = false := BitVec.getLsbD_of_ge _ _ h
  have hsrc (h : 11 ≤ k) : src.getLsbD (k - 10) = false := BitVec.getLsbD_of_ge _ _ (by omega)
  have hwidth (h : 10 ≤ k) : n.testBit (k - 4) = false :=
    Nat.testBit_lt_two_pow (hn.trans_le (Nat.pow_le_pow_right (n := 2) (by decide) (by omega : 6 ≤ k - 4)))
  simp only [getLsbD_wordOf, BitVec.getLsbD_or, BitVec.getLsbD_shiftLeft, BitVec.getLsbD_setWidth, BitVec.getLsbD_ofNat,
    hk, decide_true, Bool.true_and]
  by_cases h₄ : k < 4
  · simp [h₄, show k < 10 by omega]
  · by_cases h₁₀ : k < 10
    · simp [h₄, h₁₀, hop (by omega), show k - 4 < 6 by omega, show k - 4 < 32 by omega]
    · by_cases h₁₁ : k < 11
      · simp [h₄, h₁₀, h₁₁, hop (by omega), hwidth (by omega), show k - 10 < 32 by omega]
      · simp [h₄, h₁₀, h₁₁, hop (by omega), hsrc (by omega), hwidth (by omega)]

theorem encode_addb_eq {n : Nat} (hn : n < 64) : encode (.addb n) = 0x2 ||| BitVec.ofNat 32 n <<< 4 :=
  wordOf_width_source hn 0 0x2

theorem encode_rdb_packBuffer_eq {n : Nat} (hn : n < 64) :
    encode (.rdb n .packBuffer) = 0x4 ||| BitVec.ofNat 32 n <<< 4 :=
  wordOf_width_source hn 0 0x4

theorem encode_rdb_rxPayload_eq {n : Nat} (hn : n < 64) :
    encode (.rdb n .rxPayload) = 0x404 ||| BitVec.ofNat 32 n <<< 4 :=
  wordOf_width_source hn 1 0x4

theorem decode_addbWord {n : Nat} (hn : n < 64) : decode (0x2 ||| BitVec.ofNat 32 n <<< 4) = .instr (.addb n) := by
  rw [← encode_addb_eq hn]
  exact decode_eq_instr.mpr (Laws.Encodes.addb n (decide_eq_true hn))

theorem decode_rdbWord_packBuffer {n : Nat} (hn : n < 64) :
    decode (0x4 ||| BitVec.ofNat 32 n <<< 4) = .instr (.rdb n .packBuffer) := by
  rw [← encode_rdb_packBuffer_eq hn]
  exact decode_eq_instr.mpr (Laws.Encodes.rdb n .packBuffer (decide_eq_true hn))

theorem decode_rdbWord_rxPayload {n : Nat} (hn : n < 64) :
    decode (0x404 ||| BitVec.ofNat 32 n <<< 4) = .instr (.rdb n .rxPayload) := by
  rw [← encode_rdb_rxPayload_eq hn]
  exact decode_eq_instr.mpr (Laws.Encodes.rdb n .rxPayload (decide_eq_true hn))

end Sys2Proof

namespace Sys2Proof.Machine

section
variable {n : Nat} {src : ReadSource} {s : State}

/-! ### ADDB, by its two checks -/

theorem execAddb_of_illegal_width (hn : ¬ (1 ≤ n ∧ n ≤ 32)) : execAddb n s = .next { s with err := 1 } := by
  rcases execAddb_cases n s with ⟨-, h⟩ | ⟨h₁, h₃₂, -⟩ | ⟨h₁, h₃₂, -⟩
  · exact h
  · exact absurd ⟨h₁, h₃₂⟩ hn
  · exact absurd ⟨h₁, h₃₂⟩ hn

theorem execAddb_of_full (h₁ : 1 ≤ n) (h₃₂ : n ≤ 32) (hfull : 2048 < s.wcur.toNat + n) :
    execAddb n s = .next { s with err := 2 } := by
  rcases execAddb_cases n s with ⟨hn, -⟩ | ⟨-, -, -, h⟩ | ⟨-, -, hfits, -⟩
  · exact absurd ⟨h₁, h₃₂⟩ hn
  · exact h
  · omega

theorem execAddb_of_fits (h₁ : 1 ≤ n) (h₃₂ : n ≤ 32) (hfits : s.wcur.toNat + n ≤ 2048) :
    execAddb n s = .next { s with
      mem := writeField s.mem pbBase s.wcur.toNat s.dataIn n
      wcur := BitVec.ofNat 12 (s.wcur.toNat + n) } := by
  rcases execAddb_cases n s with ⟨hn, -⟩ | ⟨-, -, hfull, -⟩ | ⟨-, -, -, h⟩
  · exact absurd ⟨h₁, h₃₂⟩ hn
  · omega
  · exact h

/-! ### RDB, by its two checks -/

theorem execRdb_of_illegal_width (hn : ¬ (1 ≤ n ∧ n ≤ 32)) : execRdb n src s = .next { s with err := 1 } := by
  rcases execRdb_cases n src s with ⟨-, h⟩ | ⟨h₁, h₃₂, -⟩ | ⟨h₁, h₃₂, -⟩
  · exact h
  · exact absurd ⟨h₁, h₃₂⟩ hn
  · exact absurd ⟨h₁, h₃₂⟩ hn

theorem execRdb_of_past_limit (h₁ : 1 ≤ n) (h₃₂ : n ≤ 32) (hpast : readLimit src s < s.rcur.toNat + n) :
    execRdb n src s = .next { s with err := 2 } := by
  rcases execRdb_cases n src s with ⟨hn, -⟩ | ⟨-, -, -, h⟩ | ⟨-, -, hfits, -⟩
  · exact absurd ⟨h₁, h₃₂⟩ hn
  · exact h
  · omega

theorem execRdb_of_fits (h₁ : 1 ≤ n) (h₃₂ : n ≤ 32) (hfits : s.rcur.toNat + n ≤ readLimit src s) :
    execRdb n src s = .next { s with
      dataOut := readField (sourceBit src s) s.rcur.toNat n
      rcur := BitVec.ofNat 12 (s.rcur.toNat + n) } := by
  rcases execRdb_cases n src s with ⟨hn, -⟩ | ⟨-, -, hpast, -⟩ | ⟨-, -, -, h⟩
  · exact absurd ⟨h₁, h₃₂⟩ hn
  · omega
  · exact h

end

/-! ### The statements -/

/-- Settles O24: with the gate open the word 0 runs NOP, and with the gate closed it is ignored. -/
theorem nopDoesNothing : Obligations.NopDoesNothing := by
  have hd : decode 0x00000000 = .instr .nop := by decide
  refine ⟨hd, rfl, fun _ => rfl, fun s rest hs => ?_⟩
  by_cases herr : s.err = 0
  · rw [step_cmd hs]
    exact issueCommand_of_command hd (.inl herr)
  · exact step_of_gate_closed hs herr (by decide)

/-- Settles O25: RSTW's word, and its meaning. -/
theorem rstwResetsTheWriteCursor : Obligations.RstwResetsTheWriteCursor :=
  ⟨by decide, fun _ => rfl⟩

/-- Settles O26: RSTR's word and its meaning, and everything FDEC can do. -/
theorem rstrResetsTheReadCursor : Obligations.RstrResetsTheReadCursor := by
  refine ⟨by decide, fun _ => rfl, fun s => ?_⟩
  rcases execFdec_cases s with ⟨-, h⟩ | ⟨-, -, -, h⟩ | ⟨-, -, -, -, h⟩ | ⟨-, h⟩ <;> exact ⟨_, h, rfl⟩

/-- Settles O27, by ADDB's two checks and what writing a field does to bits and bytes. -/
theorem addbAppendsTheLowBits : Obligations.AddbAppendsTheLowBits := by
  refine ⟨fun _ => decode_addbWord, fun s n => ⟨execAddb_of_illegal_width, execAddb_of_full,
    fun hwf h₁ h₃₂ hfits => ⟨_, execAddb_of_fits h₁ h₃₂ hfits, rfl, toNat_cursor hfits, fun j hj => ?_, fun q hq => ?_,
      fun a ha => read_writeField_other s.mem s.dataIn n ha⟩⟩⟩
  · rw [bufBit_writeField _ _ _ hwf, if_pos (by omega), Nat.add_sub_cancel_left]
  · rw [bufBit_writeField _ _ _ hwf, if_neg (by omega)]

/-- Settles O28, by RDB's two checks and the bits of a field that is read. -/
theorem rdbReadsTheField : Obligations.RdbReadsTheField := by
  refine ⟨fun _ hn => ⟨decode_rdbWord_packBuffer hn, decode_rdbWord_rxPayload hn⟩, ?_⟩
  intro s n src limit bit
  have hlimit : readLimit src s = limit := by cases src <;> rfl
  have hbit : sourceBit src s = bit := by cases src <;> rfl
  rw [← hlimit, ← hbit]
  exact ⟨execRdb_of_illegal_width, execRdb_of_past_limit, fun h₁ h₃₂ hfits =>
    ⟨_, execRdb_of_fits h₁ h₃₂ hfits, rfl, toNat_cursor (hfits.trans (readLimit_le src s)),
      fun j => getLsbD_readField _ _ j n h₃₂⟩⟩

end Sys2Proof.Machine
end

section
/-! The frame codec's commands: their words, and what each of their checks answers (41_framecodec.md R150 to R161). -/

namespace Sys2Proof

/-! ### The words with a destination -/

/-- A word with only an opcode and a destination: its two fields side by side (30_encoding.md R90). -/
theorem wordOf_dest (dest : Byte) (op : BitVec 4) :
    wordOf dest 0 0 0 op = op.setWidth 32 ||| dest.setWidth 32 <<< 12 := by
  refine BitVec.eq_of_getLsbD_eq fun k hk => ?_
  have hop (h : 4 ≤ k) : op.getLsbD k = false := BitVec.getLsbD_of_ge _ _ h
  have hdest (h : 20 ≤ k) : dest.getLsbD (k - 12) = false := BitVec.getLsbD_of_ge _ _ (by omega)
  simp only [getLsbD_wordOf, BitVec.getLsbD_or, BitVec.getLsbD_shiftLeft, BitVec.getLsbD_setWidth, hk, decide_true,
    Bool.true_and]
  by_cases h₄ : k < 4
  · simp [h₄, show k < 12 by omega]
  · by_cases h₁₂ : k < 12
    · simp [h₄, h₁₂, hop (by omega)]
    · by_cases h₂₀ : k < 20
      · simp [h₄, h₁₂, h₂₀, hop (by omega), show ¬ k < 10 by omega, show ¬ k < 11 by omega, show k - 12 < 32 by omega]
      · simp [h₄, h₁₂, h₂₀, hop (by omega), hdest (by omega), show ¬ k < 10 by omega, show ¬ k < 11 by omega]

theorem encode_fenc_eq (dest : Byte) : encode (.fenc dest) = 0x5 ||| dest.setWidth 32 <<< 12 :=
  wordOf_dest dest 0x5

theorem decode_fencWord (dest : Byte) : decode (0x5 ||| dest.setWidth 32 <<< 12) = .instr (.fenc dest) := by
  rw [← encode_fenc_eq]
  exact decode_eq_instr.mpr (Laws.Encodes.fenc dest rfl)

end Sys2Proof

namespace Sys2Proof.Machine

section
variable {s : State} {dest : Byte}

/-! ### FENC, by its two checks -/

theorem execFenc_of_empty (h : s.wcur.toNat < 8) : execFenc dest s = .next { s with err := 5, txvalid := false } := by
  rw [execFenc, frameTo_empty h]
  rfl

theorem execFenc_of_long (h₈ : 8 ≤ s.wcur.toNat) (hlong : 255 < ceil8 s.wcur.toNat + s.params.frameOverhead) :
    execFenc dest s = .next { s with err := 6, txvalid := false } := by
  rw [execFenc, frameTo_long h₈ hlong]
  rfl

theorem execFenc_of_fits (h₈ : 8 ≤ s.wcur.toNat) (hfits : ceil8 s.wcur.toNat + s.params.frameOverhead ≤ 255) :
    execFenc dest s = .next (framed dest s) := by
  rw [execFenc, frameTo_built h₈ hfits]

/-- A frame that is built touches nothing but `TXF`, `TXLEN` and `TXVALID`. -/
theorem framed_others (dest : Byte) (s : State) :
    framed dest s =
      { s with mem := (framed dest s).mem, txlen := (framed dest s).txlen, txvalid := (framed dest s).txvalid } := by
  rw [framed]

/-! ### FDEC, by its three checks -/

theorem execFdec_of_bad_length (hlen : ¬ (4 ≤ s.rxlen.toNat ∧ s.rxlen.toNat ≤ 256)) :
    execFdec s = .next { s with err := 3, lenbad := true, rxvalid := false } := by
  rcases execFdec_cases s with ⟨-, h⟩ | ⟨h₄, h₂₅₆, -⟩ | ⟨h₄, h₂₅₆, -⟩ | ⟨hframe, -⟩
  · exact h
  · exact absurd ⟨h₄, h₂₅₆⟩ hlen
  · exact absurd ⟨h₄, h₂₅₆⟩ hlen
  · exact absurd ⟨hframe.atLeast, hframe.atMost⟩ hlen

theorem execFdec_of_bad_checksum (h₄ : 4 ≤ s.rxlen.toNat) (h₂₅₆ : s.rxlen.toNat ≤ 256)
    (hsum : checksum s.params (rxBytes s (s.rxlen.toNat - 1)) ≠ rxbByte s (s.rxlen.toNat - 1)) :
    execFdec s = .next { s with err := 3, lenbad := false, rxvalid := false } := by
  rcases execFdec_cases s with ⟨hlen, -⟩ | ⟨-, -, -, h⟩ | ⟨-, -, hsum', -⟩ | ⟨hframe, -⟩
  · exact absurd ⟨h₄, h₂₅₆⟩ hlen
  · exact h
  · exact absurd hsum' hsum
  · exact absurd hframe.check.symm hsum

theorem execFdec_of_bad_count (h₄ : 4 ≤ s.rxlen.toNat) (h₂₅₆ : s.rxlen.toNat ≤ 256)
    (hsum : checksum s.params (rxBytes s (s.rxlen.toNat - 1)) = rxbByte s (s.rxlen.toNat - 1))
    (hcount : (rxbByte s 1).toNat ≠ (s.rxlen.toNat - 3) + s.params.frameOverhead) :
    execFdec s = .next { s with err := 3, lenbad := true, rxvalid := false } := by
  rcases execFdec_cases s with ⟨hlen, -⟩ | ⟨-, -, hsum', -⟩ | ⟨-, -, -, -, h⟩ | ⟨hframe, -⟩
  · exact absurd ⟨h₄, h₂₅₆⟩ hlen
  · exact absurd hsum hsum'
  · exact h
  · exact absurd hframe.count hcount

end

/-! ### The statements -/

/-- Settles O30, by FENC's two checks and the frame it builds. -/
theorem fencBuildsTheFrame : Obligations.FencBuildsTheFrame := by
  refine ⟨decode_fencWord, fun s dest hvalid => ⟨execFenc_of_empty, execFenc_of_long, fun hwf h₈ hfits => ?_⟩⟩
  have hoverhead : 2 ≤ s.params.frameOverhead := by
    rcases hvalid.overhead with h | h <;> omega
  exact ⟨framed dest s, execFenc_of_fits h₈ hfits, framed_others dest s, sentFrame_framed dest hwf hoverhead hfits,
    fun _ => read_framed_other dest s⟩

/-- Settles O31, by FDEC's three checks in order; what passes all three is a frame. -/
theorem fdecChecksInOrder : Obligations.FdecChecksInOrder :=
  ⟨by decide, fun _ => ⟨execFdec_of_bad_length, execFdec_of_bad_checksum, execFdec_of_bad_count,
    fun h₄ h₂₅₆ hsum hcount => execFdec_of_isFrame ⟨h₄, h₂₅₆, hcount, hsum.symm⟩⟩⟩

end Sys2Proof.Machine
end

section
/-! The sensor-config serializer's command: everything SCFG can answer, in the words of its build as steps and bits
(42_sensorconfig.md R180 to R196). -/

namespace Sys2Proof.Machine

open Sys2Proof.Config Sys2Proof.Safety

/-! ### The pair's number and destination -/

theorem pairIndex_eq (i : BoardPair) : pairIndex i = pairNumber i := by cases i <;> rfl

theorem boardAddr_eq (i : BoardPair) (s : State) : boardAddr i s = pairAddress s i := by cases i <;> rfl

/-! ### Steps that all pass, and the first that fails -/

/-- Steps pass exactly when their items' conditions hold and their items' bits fit `PB`. -/
theorem allPass_map_step (items : List PackItem) :
    AllPass (items.map PackItem.step) ↔ RequirementsHold items ∧ (itemBits items).length ≤ 2048 := by
  rw [AllPass, requirementsHold_iff, itemBits_eq]

/-- SCFG's steps pass exactly when the counts of both ports fit and the payload fits `PB`. -/
theorem allPass_payloadSteps {s : State} (hv : s.params.Valid) (i : BoardPair) :
    AllPass (payloadSteps s (pairNumber i)) ↔
      (CountsFit s (2 * pairNumber i) ∧ CountsFit s (2 * pairNumber i + 1)) ∧
        (payloadBits s (pairNumber i)).length ≤ 2048 := by
  rw [← pairIndex_eq, ← pairItems_steps hv, allPass_map_step, requirementsHold_pairItems hv, itemBits_pairItems hv]

/-- Of steps that all pass none fails. -/
theorem not_failsAfter_of_allPass {before rest : List PayloadStep} {step : PayloadStep} {code : BitVec 4}
    (h : AllPass (before ++ step :: rest)) : ¬ FailsAfter before step code := by
  obtain ⟨hchecks, hlen⟩ := h
  cases step with
  | append bits =>
    rintro ⟨hfull, -⟩
    simp only [stepBits_append, stepBits_cons, bits_append, List.length_append] at hlen
    omega
  | check ok =>
    rintro ⟨hok, -⟩
    have hpasses : ok = true := hchecks ok (by simp)
    simp [hok] at hpasses

/-! ### The only condition of SCFG's build is the count check -/

/-- Every condition of these items raises CONFIG_ERROR. -/
def RaisesConfigError (items : List PackItem) : Prop := ∀ ok e, PackItem.require ok e ∈ items → e.code = 4

theorem raisesConfigError_deviceItems (s : State) (p d : Nat) : RaisesConfigError (deviceItems s p d) := by
  intro ok e hm
  unfold deviceItems at hm
  by_cases h : (effectiveDevice s p d).set.getLsbD s.params.sameBit = true
  · simp only [h, if_true, byteField, List.mem_cons, reduceCtorEq, false_or, PackItem.require.injEq] at hm
    rcases hm with ⟨-, rfl⟩ | hout
    · rfl
    · obtain ⟨b, -, hb⟩ := List.mem_map.mp hout
      cases hb
  · simp [h, byteField] at hm

theorem raisesConfigError_portItems (s : State) (p : Nat) : RaisesConfigError (portItems s p) := by
  intro ok e hm
  unfold portItems at hm
  by_cases h : effectiveType s p ∈ s.params.i2cFamily
  · obtain ⟨d, -, hd⟩ : ∃ d, d < effectiveCount s p ∧ _ := by simpa [h, byteField] using hm
    exact raisesConfigError_deviceItems s p d ok e hd
  · simp [h] at hm

theorem raisesConfigError_pairItems (s : State) (i : BoardPair) : RaisesConfigError (pairItems s i) := by
  intro ok e hm
  have hports : .require ok e ∈ portItems s (portOf i 0) ∨ .require ok e ∈ portItems s (portOf i 1) := by
    simpa [pairItems, byteField] using hm
  rcases hports with hm | hm
  · exact raisesConfigError_portItems s _ ok e hm
  · exact raisesConfigError_portItems s _ ok e hm

/-! ### A build from `WCUR` = 0, as steps -/

section
variable {items : List PackItem} {s t : State} {e : BlockError}

theorem allPass_of_packAll_ok (h : packAll items { s with wcur := 0 } = .ok t) : AllPass (items.map PackItem.step) := by
  obtain ⟨hrequired, happended, hcursor⟩ := packAll_ok h
  have hlen : t.wcur.toNat = (itemBits items).length := by simpa using happended.wcur
  exact (allPass_map_step items).mpr ⟨hrequired, hlen ▸ hcursor (by simp)⟩

/-- An item that fails behind items that were built is a step that fails behind their steps. -/
theorem failsAfter_of_packItem_failed {before : List PackItem} {item : PackItem}
    (hlen : t.wcur.toNat = (itemBits before).length) (hcode : ∀ ok e, item = .require ok e → e.code = 4)
    (h : packItem item t = .failed e t) : FailsAfter (before.map PackItem.step) item.step e.code := by
  rcases packItem_failed h with ⟨n, v, rfl, hfull, rfl⟩ | rfl
  · rw [hlen, itemBits_eq] at hfull
    exact ⟨by simpa using hfull, rfl⟩
  · exact ⟨rfl, hcode false e rfl⟩

/-- A build that fails: the steps before the first that fails pass and are appended. -/
theorem failsAfter_of_packAll_failed (hcode : RaisesConfigError items)
    (h : packAll items { s with wcur := 0 } = .failed e t) :
    ∃ before step rest, items.map PackItem.step = before ++ step :: rest ∧ AllPass before ∧
      FailsAfter before step e.code ∧ Appended { s with wcur := 0 } t (stepBits before) := by
  obtain ⟨before, item, rest, rfl, hbefore, hitem⟩ := packAll_failed h
  obtain ⟨-, happended, -⟩ := packAll_ok hbefore
  have hlen : t.wcur.toNat = (itemBits before).length := by simpa using happended.wcur
  have hfails := failsAfter_of_packItem_failed hlen (fun ok e he => hcode ok e (by simp [he])) hitem
  refine ⟨before.map PackItem.step, item.step, rest.map PackItem.step, by simp, allPass_of_packAll_ok hbefore, hfails, ?_⟩
  rwa [← itemBits_eq]

end

/-! ### What a build leaves in `PB` -/

/-- `WCUR` is the number of these bits, `PB` holds them from bit 0, and the bits of `PB` above them stay. -/
structure PackBufferHolds (s t : State) (bits : List Bool) : Prop where
  wcur : t.wcur.toNat = bits.length
  below : Memory.wf s.mem = true → ∀ q, q < bits.length → bufBit t.mem pbBase q = bits.getD q false
  above : Memory.wf s.mem = true → ∀ q, bits.length ≤ q → q < 2048 → bufBit t.mem pbBase q = bufBit s.mem pbBase q

/-- A built payload whose frame is in `TXF`: every other byte and every register but `WCUR`, `TXLEN` and `TXVALID` stay. -/
structure SentBuild (s t : State) (dest : Byte) (bits : List Bool) : Prop where
  others : t = { s with mem := t.mem, wcur := t.wcur, txlen := t.txlen, txvalid := t.txvalid }
  holds : PackBufferHolds s t bits
  valid : t.txvalid = true
  frame : Memory.wf s.mem = true → SentFrame t dest bits.length (fun q => bits.getD q false)
  outside : ∀ a, 0x100 ≤ a → ¬ (0x200 ≤ a ∧ a ≤ 0x2FF) → Memory.read t.mem a = Memory.read s.mem a

/-- A frame is the same for bits that agree below its length. -/
theorem sentFrame_congr {t : State} {dest : Byte} {w : Nat} {bit bit' : Nat → Bool} (h : SentFrame t dest w bit)
    (hbits : ∀ q, q < w → bit q = bit' q) : SentFrame t dest w bit' := by
  refine ⟨h.len, h.dest, h.count, fun q hq => ?_, h.check, h.rest, h.valid⟩
  rw [h.payload q hq]
  by_cases hw : q < w
  · rw [hbits q hw]
  · simp [hw]

/-- A frame that is built leaves `PB`. -/
theorem bufBit_framed_packBuffer (dest : Byte) (s : State) {q : Nat} (hq : q < 2048) :
    bufBit (framed dest s).mem pbBase q = bufBit s.mem pbBase q :=
  bufBit_congr (read_framed_other dest s (by unfold bitAddr pbBase; omega))

theorem packBufferHolds_of_stoppedBuild {s t : State} {bits : List Bool} {code : BitVec 4} (h : StoppedBuild s t bits code) :
    PackBufferHolds s t bits := ⟨h.wcur, h.below, h.above⟩

section
variable {s t : State} {bits : List Bool}

theorem Appended.packBufferHolds (h : Appended { s with wcur := 0 } t bits) : PackBufferHolds s t bits where
  wcur := by simpa using h.wcur
  below := fun hwf q hq => by simpa [hq] using h.bit hwf q
  above := fun hwf q hq _ => by simpa [Nat.not_lt.mpr hq] using h.bit hwf q

/-- A failed SCFG keeps what was built. -/
theorem Appended.stoppedBuild (h : Appended { s with wcur := 0 } t bits) (e : BlockError) :
    StoppedBuild s (failEncode e t) bits e.code where
  others := by rw [h.others]; rfl
  wcur := h.packBufferHolds.wcur
  below := h.packBufferHolds.below
  above := h.packBufferHolds.above
  outside := h.outside

/-- A built payload that is not too long is framed, and stays in `PB`. -/
theorem Appended.sentBuild (h : Appended { s with wcur := 0 } t bits) (hv : s.params.Valid)
    (hfits : ceil8 bits.length + s.params.frameOverhead ≤ 255) (dest : Byte) :
    SentBuild s (framed dest t) dest bits := by
  have hholds := h.packBufferHolds
  have hparams : t.params = s.params := by rw [h.others]
  have hoverhead : 2 ≤ s.params.frameOverhead := by
    rcases hv.overhead with h | h <;> omega
  have hroom : bits.length ≤ 2048 := by unfold ceil8 at hfits; omega
  refine ⟨?_, ⟨?_, fun hwf q hq => ?_, fun hwf q hq hq' => ?_⟩, framed_txvalid dest t, fun hwf => ?_, fun a hpb htxf => ?_⟩
  · rw [framed_others, h.others]
  · rw [framed_wcur, hholds.wcur]
  · rw [bufBit_framed_packBuffer dest t (by omega), hholds.below hwf q hq]
  · rw [bufBit_framed_packBuffer dest t hq', hholds.above hwf q hq hq']
  · rw [← hparams, ← hholds.wcur] at hfits
    have hframe := sentFrame_framed dest (h.wf hwf) (hparams ▸ hoverhead) hfits
    rw [hholds.wcur] at hframe
    exact sentFrame_congr hframe (hholds.below hwf)
  · rw [read_framed_other dest t htxf, h.outside a hpb]

end

/-! ### Everything SCFG can answer -/

/-- The answers of SCFG: its build stopped at the first step that fails; or every step passed and the payload is too long for a
frame; or the payload was framed (42_sensorconfig.md R194 to R196). -/
inductive ScfgAnswer (s : State) (i : BoardPair) (t : State) : Prop
  | stopped {before : List PayloadStep} {step : PayloadStep} {rest : List PayloadStep} {code : BitVec 4}
      (steps : payloadSteps s (pairNumber i) = before ++ step :: rest) (pass : AllPass before)
      (fails : FailsAfter before step code) (left : StoppedBuild s t (stepBits before) code)
  | tooLong (pass : AllPass (payloadSteps s (pairNumber i)))
      (long : 255 < ceil8 (payloadBits s (pairNumber i)).length + s.params.frameOverhead)
      (left : StoppedBuild s t (payloadBits s (pairNumber i)) 6)
  | sent (pass : AllPass (payloadSteps s (pairNumber i)))
      (fits : ceil8 (payloadBits s (pairNumber i)).length + s.params.frameOverhead ≤ 255)
      (left : SentBuild s t (pairAddress s i) (payloadBits s (pairNumber i)))

/-- The message type and the two type bytes alone are three bytes (42_sensorconfig.md R182). -/
theorem length_payloadBits_ge (s : State) (k : Nat) : 24 ≤ (payloadBits s k).length := by
  simp only [payloadBits_eq, List.length_append, length_fieldBits]
  omega

/-- Framing a whole payload that was built. -/
theorem scfgAnswer_frameTo {s u : State} {i : BoardPair} (hv : s.params.Valid)
    (pass : AllPass (payloadSteps s (pairNumber i)))
    (h : Appended { s with wcur := 0 } u (payloadBits s (pairNumber i))) :
    ScfgAnswer s i (frameTo (boardAddr i u) u) := by
  have hparams : u.params = s.params := by rw [h.others]
  have hdest : boardAddr i u = pairAddress s i := by rw [boardAddr_eq, h.others]; cases i <;> rfl
  have hlen := length_payloadBits_ge s (pairNumber i)
  rw [hdest]
  rcases frameTo_cases (pairAddress s i) u with ⟨hempty, -⟩ | ⟨-, hlong, hframe⟩ | ⟨-, hfits, hframe⟩
  · rw [h.packBufferHolds.wcur] at hempty
    omega
  · rw [hframe]
    rw [h.packBufferHolds.wcur, hparams] at hlong
    exact .tooLong pass hlong (h.stoppedBuild _)
  · rw [hframe]
    rw [h.packBufferHolds.wcur, hparams] at hfits
    exact .sent pass hfits (h.sentBuild hv hfits _)

/-- SCFG has no other answer. -/
theorem execScfg_answer {s t : State} {i : BoardPair} (hv : s.params.Valid) (h : execScfg i s = .next t) :
    ScfgAnswer s i t := by
  have hsteps : (pairItems s i).map PackItem.step = payloadSteps s (pairNumber i) := by
    rw [pairItems_steps hv, pairIndex_eq]
  rcases execScfg_cases i s with ⟨e, u, hpack, h'⟩ | ⟨u, hpack, h'⟩ <;> cases h.symm.trans h'
  · obtain ⟨before, step, rest, hsplit, pass, fails, happended⟩ :=
      failsAfter_of_packAll_failed (raisesConfigError_pairItems s i) hpack
    exact .stopped (hsteps.symm.trans hsplit) pass fails (happended.stoppedBuild e)
  · obtain ⟨-, happended, -⟩ := packAll_ok hpack
    rw [itemBits_pairItems hv, pairIndex_eq] at happended
    exact scfgAnswer_frameTo hv (hsteps ▸ allPass_of_packAll_ok hpack) happended

/-- Every answer of SCFG has in `PB` the bits of the steps that were built, with which the payload begins. -/
theorem ScfgAnswer.holds_prefix {s t : State} {i : BoardPair} (h : ScfgAnswer s i t) :
    ∃ bits, bits <+: payloadBits s (pairNumber i) ∧ PackBufferHolds s t bits := by
  cases h with
  | stopped steps _ _ left =>
    refine ⟨_, ?_, packBufferHolds_of_stoppedBuild left⟩
    rw [payloadBits, steps, stepBits_append]
    exact List.prefix_append ..
  | tooLong _ _ left => exact ⟨_, List.prefix_rfl, packBufferHolds_of_stoppedBuild left⟩
  | sent _ _ left => exact ⟨_, List.prefix_rfl, left.holds⟩

theorem txvalid_of_stoppedBuild {s t : State} {bits : List Bool} {code : BitVec 4} (h : StoppedBuild s t bits code) :
    t.txvalid = false := by rw [h.others]

/-- When every step passes and the payload is not too long, SCFG sends it. -/
theorem ScfgAnswer.sentBuild {s t : State} {i : BoardPair} (h : ScfgAnswer s i t)
    (hpass : AllPass (payloadSteps s (pairNumber i)))
    (hfits : ceil8 (payloadBits s (pairNumber i)).length + s.params.frameOverhead ≤ 255) :
    SentBuild s t (pairAddress s i) (payloadBits s (pairNumber i)) := by
  cases h with
  | stopped steps _ fails _ => exact absurd fails (not_failsAfter_of_allPass (steps ▸ hpass))
  | tooLong _ long _ => omega
  | sent _ _ left => exact left

/-! ### The statements -/

/-- Settles O35: every step of the build passes, so SCFG's one answer is the framed payload. -/
theorem scfgSendsTheConfiguredPayload : Obligations.ScfgSendsTheConfiguredPayload := by
  intro s i hv hwf k bits hlow hhigh hfits
  obtain ⟨t, ht⟩ := exec_gives_next (.scfg i) s
  have hroom : bits.length ≤ 2048 := by omega
  have hpass : AllPass (payloadSteps s k) := (allPass_payloadSteps hv i).mpr ⟨⟨hlow, hhigh⟩, hroom⟩
  obtain ⟨hothers, hholds, -, hframe, houtside⟩ := (execScfg_answer hv ht).sentBuild hpass hfits
  exact ⟨t, ht, hothers, hholds.wcur, hholds.below hwf, hholds.above hwf, hframe hwf, houtside⟩

/-- Settles O36, by everything SCFG can answer. -/
theorem scfgLeavesAPrefixOfThePayload : Obligations.ScfgLeavesAPrefixOfThePayload := by
  intro s t i hv ht steps bits tooLong
  have hanswer := execScfg_answer hv ht
  obtain ⟨built, hprefix, hholds⟩ := hanswer.holds_prefix
  refine ⟨hholds.wcur ▸ hprefix.length_le, fun hwf q hq => ?_, fun hwf q hq => ?_, fun htx => ?_, fun htx => ?_⟩
  · rw [hholds.wcur] at hq
    rw [hholds.below hwf q hq]
    obtain ⟨above, hbits⟩ := hprefix
    rw [← List.getD_append _ above _ _ hq, hbits]
  · exact hholds.above hwf q (hholds.wcur ▸ hq)
  · cases hanswer with
    | stopped _ _ _ left => simp [txvalid_of_stoppedBuild left] at htx
    | tooLong _ _ left => simp [txvalid_of_stoppedBuild left] at htx
    | sent pass fits left => exact ⟨pass, Nat.not_lt.mpr fits, left.holds.wcur, by rw [left.others]⟩
  · cases hanswer with
    | stopped steps pass fails left => exact .inl ⟨_, _, _, _, steps, pass, fails, left⟩
    | tooLong pass long left => exact .inr ⟨pass, long, left⟩
    | sent _ _ left => simp [left.valid] at htx

end Sys2Proof.Machine
end

section
/-! CLRS: its one word and what that word does (43_control.md R220). -/

namespace Sys2Proof

/-- The opcode table's row of CLRS masks no field out, so no other word of its opcode is legal. -/
theorem eq_clrsWord_of_legalWord {w : Word} (hw : LegalWord w) (hop : opField w = 8) : w = Machine.clrsWord := by
  obtain ⟨hreserved, -, hfields⟩ := hw
  have hrow : w &&& BitVec.allOnes 32 = Machine.clrsWord :=
    (matches_row_iff ⟨8, by decide⟩ w).mpr ⟨hreserved, congrArg BitVec.toNat hop, hfields⟩
  rwa [BitVec.and_allOnes] at hrow

end Sys2Proof

namespace Sys2Proof.Machine

theorem exec_clrs (s : State) : exec .clrs s = .next (clearError s) := rfl

/-- The word of CLRS passes the error gate whatever `ERR` is. -/
theorem issueCommand_clrsWord (s : State) : issueCommand clrsWord s = .next (clearError { s with cmd := clrsWord }) := by
  rw [issueCommand_of_command decode_clrsWord (.inr rfl), exec_clrs]

/-- Settles O42: CLRS's word passes the gate, and any other word of its opcode is stopped there or is illegal. -/
theorem clrsClearsTheError : Obligations.ClrsClearsTheError := by
  refine ⟨decode_clrsWord, exec_clrs, fun s rest hs => ?_, fun s w rest hs hop hne => ⟨fun herr => ?_, fun herr => ?_⟩⟩
  · rw [step_cmd hs]
    exact issueCommand_clrsWord (s.begin rest)
  · exact step_of_gate_closed hs herr hne
  · have hillegal : ¬ LegalWord w := fun hw => hne (eq_clrsWord_of_legalWord hw hop)
    rw [step_cmd hs]
    exact issueCommand_of_not_legalWord hillegal herr

end Sys2Proof.Machine
end

section
/-! Reset: every element of the state at its reset value (70_reset_and_hazards.md R270, R272). -/

namespace Sys2Proof.Machine

/-- A byte nothing has written reads as the reset value of every buffer and configuration byte. -/
@[simp] theorem Memory.read_nil (a : Nat) : Memory.read [] a = 0 := rfl

theorem statusWord_eq_zero {s : State} (herr : s.err = 0) (hlen : s.lenbad = false) (hrx : s.rxvalid = false)
    (htx : s.txvalid = false) : statusWord s = 0 := by
  rw [statusWord, herr, hlen, hrx, htx]
  rfl

/-- The state the model starts in is the one the reset input gives: it is reset already. -/
theorem resetBlock_reset : resetBlock State.reset = State.reset := rfl

theorem step_resetInput {s : State} {rest : List HostEvent} (hs : s.host = .resetInput :: rest) :
    step s = .next (resetBlock (s.begin rest)) :=
  step_event hs

/-- Settles O13, by the values after the reset input: they name nothing of the state before, so they hold of `State.reset`,
which the reset input leaves as it is. -/
theorem resetPutsEveryElementAtItsValue : Obligations.ResetPutsEveryElementAtItsValue := by
  unfold Obligations.ResetPutsEveryElementAtItsValue
  intro atReset
  have hreset (s : State) : atReset (resetBlock s) :=
    ⟨rfl, rfl, rfl, rfl, rfl, rfl, rfl, rfl, rfl, rfl, rfl, statusWord_eq_zero rfl rfl rfl rfl, rfl, rfl, Memory.read_nil⟩
  refine ⟨?_, fun s rest hs => ⟨_, step_resetInput hs, hreset _⟩⟩
  rw [← resetBlock_reset]
  exact hreset State.reset

end Sys2Proof.Machine
end

section
/-! Encoding and decoding are inverse (30_encoding.md sections 1 and 4). -/

namespace Sys2Proof

/-- Every well-formed command's word has that command's opcode and no field it does not use. -/
theorem Laws.encodes : ∀ i : Instr, Laws.Encodes.Statement i
  | .nop => Laws.Encodes.nop
  | .rstw => Laws.Encodes.rstw
  | .addb n => Laws.Encodes.addb n
  | .rstr => Laws.Encodes.rstr
  | .rdb n src => Laws.Encodes.rdb n src
  | .fenc dest => Laws.Encodes.fenc dest
  | .fdec => Laws.Encodes.fdec
  | .scfg pair => Laws.Encodes.scfg pair
  | .clrs => Laws.Encodes.clrs

theorem decode_encode {i : Instr} (h : i.wellFormed = true) : decode (encode i) = .instr i :=
  decode_eq_instr.mpr (Laws.encodes i h)

/-- The operands that the decoder reads fit their fields. -/
theorem wellFormed_of_commandOf {w : Word} {i : Instr} (h : commandOf w = some i) : i.wellFormed = true := by
  unfold commandOf at h
  split at h <;> cases h
  case h_3 => exact decide_eq_true (nField w).isLt
  case h_5 => exact decide_eq_true (nField w).isLt
  all_goals rfl

/-- A command's word is its opcode and operands put together, with 0 in the fields it does not use. -/
theorem encode_eq_wordOf_fields {w : Word} {i : Instr} (h : commandOf w = some i)
    (hunused : unusedFieldsZero i w = true) :
    encode i = wordOf (destField w) (pairField w) (srcField w) (nField w) (opField w) := by
  unfold commandOf at h
  split at h <;> cases h
  all_goals
    rename_i hop
    simp only [unusedFieldsZero, Bool.and_eq_true, beq_iff_eq] at hunused
    simp only [encode, hunused, BitVec.ofNat_toNat, BitVec.setWidth_eq, ReadSource.bit_ofBit, BoardPair.bit_ofBit]
    congr 1
    exact BitVec.eq_of_toNat_eq hop.symm

/-! ### The statements -/

/-- Settles O1, by the opcode and the fields of each command's word. -/
theorem decodeOfEncode : Obligations.DecodeOfEncode := fun _ => decode_encode

/-- Settles O2: with the reserved bits 0 a word is its fields put together, and those are the command's. -/
theorem encodeOfDecode : Obligations.EncodeOfDecode := by
  intro w i hd
  obtain ⟨hi, hreserved, hunused⟩ := decode_eq_instr.mp hd
  exact ⟨wellFormed_of_commandOf hi, (encode_eq_wordOf_fields hi hunused).trans (wordOf_fields hreserved)⟩

/-- Settles O4: the decoder on each of the seven words. -/
theorem sampleWordsDecode : Obligations.SampleWordsDecode := by
  unfold Obligations.SampleWordsDecode
  decide

end Sys2Proof
end

section
/-! The host port: what each accepted read hands back and what each accepted write stores (20_memory.md sections 1 and 3,
10_state.md R37). -/

namespace Sys2Proof.Machine

open Sys2Proof.Safety

/-! ### Reads -/

theorem step_load8 {s : State} {a : Addr} {rest : List HostEvent} (hs : s.host = .load8 a :: rest)
    (ha : IsByteAddress a.toNat) :
    step s = .next { s with host := rest, reply := .byte (Memory.read s.mem a.toNat) } := by
  rw [step_event hs, hostEvent_load8 ha]
  rfl

theorem step_load32 {s : State} {a : Addr} {r : Reg} {rest : List HostEvent} (hs : s.host = .load32 a :: rest)
    (hr : regAt a.toNat = some r) : step s = .next { s with host := rest, reply := .word (readReg r s) } := by
  rw [step_event hs, hostEvent_load32 hr]
  cases r <;> rfl

/-- The number that the fields of `STATUS` make at their places (10_state.md R30). -/
theorem statusWord_eq (s : State) :
    statusWord s =
      BitVec.ofNat 32 (s.err.toNat + 16 * s.lenbad.toNat + 32 * s.rxvalid.toNat + 64 * s.txvalid.toNat) := by
  unfold statusWord
  generalize s.err = err, s.lenbad = lenbad, s.rxvalid = rxvalid, s.txvalid = txvalid
  revert err lenbad rxvalid txvalid
  decide

/-! ### Writes -/

/-- Reading after writing, at every address. -/
theorem read_write {m : List Host.Cell} (hwf : Memory.wf m = true) (a b : Nat) (v : Byte) :
    Memory.read (Memory.write m a v) b = if b = a then v else Memory.read m b := by
  split
  · rename_i hb
    rw [hb, read_write_same _ _ _ hwf]
  · exact read_write_other v ‹_› m

/-- A host write of a byte outside `TXF`: the byte is stored, and the received frame's validity ends if it is in `RXB`. -/
theorem storeByte_outside_txf {a : Nat} (hbyte : IsByteAddress a) (htxf : ¬ (0x200 ≤ a ∧ a ≤ 0x2FF)) (v : Byte)
    (s : State) : storeByte a v s = { s with
      mem := Memory.write s.mem a v
      rxvalid := s.rxvalid && !(decide (0x400 ≤ a) && decide (a ≤ 0x4FF)) } := by
  rcases storeByte_cases a v s with ⟨-, hin | hunmapped⟩ | ⟨h, hout, -⟩ | ⟨h, hlo, hhi, -⟩
  · exact absurd hin htxf
  · cases ((byteMapped_iff a).mpr hbyte).symm.trans hunmapped
  · have hnot : (decide (0x400 ≤ a) && decide (a ≤ 0x4FF)) = false := by
      rw [← Bool.decide_and, decide_eq_false_iff_not]
      omega
    rw [h, hnot, Bool.not_false, Bool.and_true]
  · rw [h, decide_eq_true hlo, decide_eq_true hhi, Bool.and_self, Bool.not_true, Bool.and_false]
    rfl

/-! ### The statements -/

/-- Settles O6. -/
theorem stepWaitsForTheHost : Obligations.StepWaitsForTheHost := fun _ => step_idle

/-- Settles O8: a register read replies with the word of the register at the address. -/
theorem hostReadsHaveNoSideEffect : Obligations.HostReadsHaveNoSideEffect := by
  refine fun s a rest => ⟨step_load8, fun hs ha => ?_⟩
  obtain ⟨r, hr⟩ := (regAt_iff _).mpr ha
  exact ⟨_, step_load32 hs hr⟩

/-- Settles O9, by the register at each address. -/
theorem registerWindowReads : Obligations.RegisterWindowReads := by
  intro s rest reads
  have hreads {a : Addr} {v : Nat} (r : Reg) (hr : regAt a.toNat = some r) (hv : readReg r s = BitVec.ofNat 32 v) :
      reads a v := fun hs => by rw [step_load32 hs hr, hv]
  have hword (w : Word) : w = BitVec.ofNat 32 w.toNat := by rw [BitVec.ofNat_toNat, BitVec.setWidth_eq]
  have hshort {n : Nat} (b : BitVec n) : b.setWidth 32 = BitVec.ofNat 32 b.toNat := by rw [BitVec.ofNat_toNat]
  exact ⟨hreads .cmd rfl (hword _), hreads .status rfl (statusWord_eq s), hreads .dataIn rfl (hword _),
    hreads .dataOut rfl (hword _), hreads .wcur rfl (hshort _), hreads .rcur rfl (hshort _), hreads .txlen rfl (hshort _),
    hreads .rxlen rfl (hshort _), hreads .rxDest rfl (hshort _), hreads .rxCount rfl (hshort _),
    hreads .rxType rfl (hshort _), hreads .rxPlen rfl (hshort _), hreads .boardAddr0 rfl (hshort _),
    hreads .boardAddr1 rfl (hshort _)⟩

/-- Settles O11, by the register at each address. -/
theorem registerWindowWrites : Obligations.RegisterWindowWrites := by
  intro s v rest
  simp only [BitVec.ofNat_toNat]
  exact ⟨fun hs => step_event hs, fun hs => step_event hs, fun hs => step_event hs, fun hs => step_event hs⟩

/-- Settles O12, by reading after writing in canonical memory. -/
theorem hostByteWriteSetsOneByte : Obligations.HostByteWriteSetsOneByte := by
  intro s a v rest hs hwf hbyte htxf
  refine ⟨_, (step_event hs).trans (hostEvent_store8 hbyte v _), ?_⟩
  rw [storeByte_outside_txf hbyte htxf]
  exact ⟨fun b => read_write hwf a.toNat b v, rfl⟩

/-- Settles O23: each error's code in the table. -/
theorem raiseRecordsTheErrorCode : Obligations.RaiseRecordsTheErrorCode :=
  fun _ _ _ _ _ _ _ _ _ => ⟨rfl, rfl, rfl, rfl, rfl, rfl, rfl⟩

/-- Settles O43, by the two cases of the address read. -/
theorem byteReadAfterWrite : Obligations.ByteReadAfterWrite := fun _ a b v hwf => read_write hwf a b v

end Sys2Proof.Machine
end

section
/-! What a command can change: which fields, which bytes of memory, and when the encoded frame (10_state.md sections 2
to 9, 41_framecodec.md R156). -/

namespace Sys2Proof

/-- The commands that append to `PB`. -/
def Instr.packs : Instr → Bool
  | .addb _ | .scfg _ => true
  | .nop | .rstw | .rstr | .rdb _ _ | .fenc _ | .fdec | .clrs => false

theorem Instr.packs_iff (i : Instr) : i.packs = true ↔ (∃ n, i = .addb n) ∨ ∃ pair, i = .scfg pair := by
  cases i <;> simp [Instr.packs]

end Sys2Proof

namespace Sys2Proof.Machine

/-! ### Which fields each command can change -/

section
variable {s t : State}

theorem execAddb_others {n : Nat} (h : execAddb n s = .next t) :
    t = { s with mem := t.mem, wcur := t.wcur, err := t.err } := by
  rcases execAddb_cases n s with ⟨-, h'⟩ | ⟨-, -, -, h'⟩ | ⟨-, -, -, h'⟩ <;> cases h.symm.trans h' <;> rfl

theorem execRdb_others {n : Nat} {src : ReadSource} (h : execRdb n src s = .next t) :
    t = { s with dataOut := t.dataOut, rcur := t.rcur, err := t.err } := by
  rcases execRdb_cases n src s with ⟨-, h'⟩ | ⟨-, -, -, h'⟩ | ⟨-, -, -, h'⟩ <;> cases h.symm.trans h' <;> rfl

theorem frameTo_others (dest : Byte) (s : State) :
    frameTo dest s = { s with
      mem := (frameTo dest s).mem, txlen := (frameTo dest s).txlen, err := (frameTo dest s).err
      txvalid := (frameTo dest s).txvalid } := by
  rcases frameTo_cases dest s with ⟨-, h⟩ | ⟨-, -, h⟩ | ⟨-, -, h⟩ <;> rw [h]
  · rfl
  · rfl
  · rw [framed_err]
    exact framed_others dest s

/-- FDEC changes no field but the decoded-frame registers and three of `STATUS`'s, and those registers only as it
succeeds. -/
theorem execFdec_others (h : execFdec s = .next t) :
    t = { s with
      rxDest := t.rxDest, rxCount := t.rxCount, rxType := t.rxType, rxPlen := t.rxPlen
      err := t.err, lenbad := t.lenbad, rxvalid := t.rxvalid } ∧
    (t.rxvalid = true ∨ t.rxDest = s.rxDest ∧ t.rxCount = s.rxCount ∧ t.rxType = s.rxType ∧ t.rxPlen = s.rxPlen) := by
  rcases execFdec_cases s with ⟨-, h'⟩ | ⟨-, -, -, h'⟩ | ⟨-, -, -, -, h'⟩ | ⟨-, h'⟩ <;> cases h.symm.trans h'
  · exact ⟨rfl, .inr ⟨rfl, rfl, rfl, rfl⟩⟩
  · exact ⟨rfl, .inr ⟨rfl, rfl, rfl, rfl⟩⟩
  · exact ⟨rfl, .inr ⟨rfl, rfl, rfl, rfl⟩⟩
  · exact ⟨rfl, .inl rfl⟩

/-- SCFG packs some bits from `WCUR` = 0, within `PB`; then it fails, with no code of FDEC's, or frames what it packed. -/
theorem execScfg_packs {i : BoardPair} (h : execScfg i s = .next t) :
    ∃ u bits, Appended { s with wcur := 0 } u bits ∧ u.wcur.toNat ≤ 2048 ∧
      ((∃ e : BlockError, e.code ≠ 3 ∧ t = failEncode e u) ∨ t = frameTo (boardAddr i u) u) := by
  rcases execScfg_cases i s with ⟨e, u, hpack, h'⟩ | ⟨u, hpack, h'⟩ <;> cases h.symm.trans h'
  · obtain ⟨before, item, rest, hitems, hbefore, hitem⟩ := packAll_failed hpack
    obtain ⟨-, happended, hcursor⟩ := packAll_ok hbefore
    refine ⟨u, _, happended, hcursor (Nat.zero_le _), .inl ⟨e, ?_, rfl⟩⟩
    rcases packItem_failed hitem with ⟨n, v, -, -, rfl⟩ | rfl
    · exact nofun
    · rw [raisesConfigError_pairItems s i false e (by simp [hitems])]
      decide
  · obtain ⟨-, happended, hcursor⟩ := packAll_ok hpack
    exact ⟨u, _, happended, hcursor (Nat.zero_le _), .inr rfl⟩

theorem execScfg_others {i : BoardPair} (h : execScfg i s = .next t) :
    t = { s with mem := t.mem, wcur := t.wcur, txlen := t.txlen, err := t.err, txvalid := t.txvalid } := by
  obtain ⟨u, bits, happended, -, ⟨e, -, rfl⟩ | rfl⟩ := execScfg_packs h
  · rw [happended.others]
    rfl
  · rw [frameTo_others, happended.others]

end

/-! ### Which bytes of memory each command can change -/

theorem read_frameTo_other (dest : Byte) (s : State) {a : Nat} (ha : ¬ (0x200 ≤ a ∧ a ≤ 0x2FF)) :
    Memory.read (frameTo dest s).mem a = Memory.read s.mem a := by
  rcases frameTo_cases dest s with ⟨-, h⟩ | ⟨-, -, h⟩ | ⟨-, -, h⟩ <;> rw [h]
  · rfl
  · rfl
  · exact read_framed_other dest s ha

theorem read_execAddb_other {n : Nat} {s t : State} (h : execAddb n s = .next t) {a : Nat} (ha : 0x100 ≤ a) :
    Memory.read t.mem a = Memory.read s.mem a := by
  rcases execAddb_cases n s with ⟨-, h'⟩ | ⟨-, -, -, h'⟩ | ⟨-, -, hfits, h'⟩ <;> cases h.symm.trans h'
  · rfl
  · rfl
  · exact (appended_of_fits s.dataIn hfits).outside a ha

theorem read_execScfg_other {i : BoardPair} {s t : State} (h : execScfg i s = .next t) {a : Nat} (hpb : 0x100 ≤ a)
    (htxf : ¬ (0x200 ≤ a ∧ a ≤ 0x2FF)) : Memory.read t.mem a = Memory.read s.mem a := by
  obtain ⟨u, bits, happended, -, ⟨e, -, rfl⟩ | rfl⟩ := execScfg_packs h
  · exact happended.outside a hpb
  · rw [read_frameTo_other _ u htxf]
    exact happended.outside a hpb

/-- A byte that a command changes is one of `PB` and the command packs, or one of `TXF` and the command builds a frame. -/
theorem read_exec_cases {i : Instr} {s t : State} (h : exec i s = .next t) (a : Nat) :
    Memory.read t.mem a = Memory.read s.mem a ∨ (a ≤ 0xFF ∧ i.packs = true) ∨
      (0x200 ≤ a ∧ a ≤ 0x2FF ∧ i.buildsFrame = true) := by
  cases i with
  | nop | rstw | rstr | clrs => cases h; exact .inl rfl
  | rdb n src => left; rw [execRdb_others h]
  | fdec => left; rw [(execFdec_others h).1]
  | addb n =>
    by_cases ha : a ≤ 0xFF
    · exact .inr (.inl ⟨ha, rfl⟩)
    · exact .inl (read_execAddb_other h (by omega))
  | fenc dest =>
    cases h
    by_cases ha : 0x200 ≤ a ∧ a ≤ 0x2FF
    · exact .inr (.inr ⟨ha.1, ha.2, rfl⟩)
    · exact .inl (read_frameTo_other dest s ha)
  | scfg pair =>
    by_cases hpb : a ≤ 0xFF
    · exact .inr (.inl ⟨hpb, rfl⟩)
    · by_cases htxf : 0x200 ≤ a ∧ a ≤ 0x2FF
      · exact .inr (.inr ⟨htxf.1, htxf.2, rfl⟩)
      · exact .inl (read_execScfg_other h (by omega) htxf)

/-! ### The encoded frame -/

/-- `TXLEN` and the bytes of `TXF` stay. -/
structure TxfKept (s t : State) : Prop where
  txlen : t.txlen = s.txlen
  bytes : ∀ k, k < 256 → txfByte t k = txfByte s k

theorem TxfKept.of_mem_eq {s t : State} (hlen : t.txlen = s.txlen) (hmem : t.mem = s.mem) : TxfKept s t :=
  ⟨hlen, fun k _ => by rw [txfByte, txfByte, hmem]⟩

/-- A framing that fails keeps the frame before. -/
theorem frameTo_txfKept {dest : Byte} {s : State} (h : (frameTo dest s).err ≠ s.err) : TxfKept s (frameTo dest s) := by
  rcases frameTo_cases dest s with ⟨-, h'⟩ | ⟨-, -, h'⟩ | ⟨-, -, h'⟩ <;> rw [h'] at h ⊢
  · exact .of_mem_eq rfl rfl
  · exact .of_mem_eq rfl rfl
  · exact absurd (framed_err dest s) h

/-- A build writes `PB` only. -/
theorem Appended.txfKept {s t : State} {bits : List Bool} (h : Appended { s with wcur := 0 } t bits) : TxfKept s t :=
  ⟨by rw [h.others], fun k _ => h.outside (0x200 + k) (by omega)⟩

theorem TxfKept.trans {s t u : State} (h₁ : TxfKept s t) (h₂ : TxfKept t u) : TxfKept s u :=
  ⟨h₂.txlen.trans h₁.txlen, fun k hk => (h₂.bytes k hk).trans (h₁.bytes k hk)⟩

theorem execScfg_txfKept {i : BoardPair} {s t : State} (h : execScfg i s = .next t) (herr : t.err ≠ s.err) :
    TxfKept s t := by
  obtain ⟨u, bits, happended, -, ⟨e, -, rfl⟩ | rfl⟩ := execScfg_packs h
  · have hkept := happended.txfKept
    exact ⟨hkept.txlen, hkept.bytes⟩
  · have hu : u.err = s.err := by rw [happended.others]
    exact happended.txfKept.trans (frameTo_txfKept (hu ▸ herr))

/-! ### The statements on commands -/

/-- Settles O21, by what each command can write. -/
theorem commandsWriteOnlyTheirBuffers : Obligations.CommandsWriteOnlyTheirBuffers := by
  intro i s t a h hne
  rw [← Instr.packs_iff, ← Instr.buildsFrame_iff]
  exact (read_exec_cases h a).resolve_left hne

/-- Settles O22, by the fields each command can change. -/
theorem commandsWriteOnlyTheirRegisters : Obligations.CommandsWriteOnlyTheirRegisters := by
  intro i s t h
  cases i with
  | nop | rstw | rstr | clrs => cases h; simp
  | addb n => rw [execAddb_others h]; simp
  | rdb n src => rw [execRdb_others h]; simp
  | fenc dest => cases h; rw [frameTo_others]; simp
  | scfg pair => rw [execScfg_others h]; simp
  | fdec =>
    obtain ⟨hothers, hregs⟩ := execFdec_others h
    have hregs' : t.rxDest ≠ s.rxDest ∨ t.rxCount ≠ s.rxCount ∨ t.rxType ≠ s.rxType ∨ t.rxPlen ≠ s.rxPlen →
        t.rxvalid = true := fun hne => hregs.resolve_right (by rintro ⟨h₁, h₂, h₃, h₄⟩; simp [h₁, h₂, h₃, h₄] at hne)
    rw [hothers]
    simpa using hregs'

/-- A command keeps the frame in `TXF` unless it is an FENC or SCFG that succeeds. -/
theorem exec_txfKept {i : Instr} {s t : State} (h : exec i s = .next t)
    (hnot : i.buildsFrame = true → t.err ≠ s.err) : TxfKept s t := by
  by_cases hb : i.buildsFrame = true
  · rcases (Instr.buildsFrame_iff i).mp hb with ⟨dest, rfl⟩ | ⟨pair, rfl⟩
    · cases h; exact frameTo_txfKept (hnot hb)
    · exact execScfg_txfKept h (hnot hb)
  · obtain ⟨-, -, -, -, -, -, -, -, -, -, -, htxlen, -⟩ := commandsWriteOnlyTheirRegisters i s t h
    refine ⟨by_contra fun hne => hb ((Instr.buildsFrame_iff i).mpr (htxlen hne)), fun k hk => ?_⟩
    rcases read_exec_cases h (0x200 + k) with hkept | ⟨hpb, -⟩ | ⟨-, -, hb'⟩
    · exact hkept
    · omega
    · exact absurd hb' hb

/-! ### A step -/

/-- A write to `CMD` keeps the frame in `TXF` unless it runs an FENC or SCFG that succeeds. -/
theorem issueCommand_txfKept {w : Word} {s t : State} (h : issueCommand w s = .next t)
    (hnot : ¬ (s.err = 0 ∧ t.err = 0 ∧
      ((∃ dest, decode w = .instr (.fenc dest)) ∨ ∃ i, decode w = .instr (.scfg i)))) : TxfKept s t := by
  rcases issueCommand_cases w s with ⟨-, -, h'⟩ | ⟨hgate, i, hd, h'⟩ | ⟨-, -, h'⟩ <;> rw [h'] at h
  · cases h; exact .of_mem_eq rfl rfl
  · have hkept : TxfKept { s with cmd := w } t := by
      refine exec_txfKept h fun hb herr => ?_
      have herr₀ : s.err = 0 := by
        refine hgate.resolve_right ?_
        rintro rfl
        cases decode_clrsWord.symm.trans hd
        cases hb
      exact hnot ⟨herr₀, herr.trans herr₀, (buildsFrame_iff_of_decode hd).mp hb⟩
    exact ⟨hkept.txlen, hkept.bytes⟩
  · cases h; exact .of_mem_eq rfl rfl

theorem storeByte_txfKept (a : Nat) (v : Byte) (s : State) : TxfKept s (storeByte a v s) := by
  have hwrite (ha : a < 0x200 ∨ 0x300 ≤ a) (k : Nat) (hk : k < 256) :
      Memory.read (Memory.write s.mem a v) (0x200 + k) = txfByte s k :=
    read_write_other v (by omega) s.mem
  rcases storeByte_cases a v s with ⟨h, -⟩ | ⟨h, hout, -⟩ | ⟨h, hlo, hhi, -⟩ <;> rw [h]
  · exact .of_mem_eq rfl rfl
  · exact ⟨rfl, hwrite (by omega)⟩
  · exact ⟨rfl, hwrite (by omega)⟩

/-- A host event but reset keeps the frame in `TXF` unless it runs an FENC or SCFG that succeeds. -/
theorem hostEvent_txfKept {e : HostEvent} {s t : State} (h : hostEvent e s = .next t) (he : e ≠ .resetInput)
    (hnot : ¬ (s.err = 0 ∧ t.err = 0 ∧ ∃ w, e = .store32 0x700 w ∧
      ((∃ dest, decode w = .instr (.fenc dest)) ∨ ∃ i, decode w = .instr (.scfg i)))) : TxfKept s t := by
  rcases hostEvent_cases h with ⟨r, rfl, -⟩ | ⟨a, v, rfl, -, rfl⟩ | ⟨w, rfl, hw⟩ | ⟨v, rfl, rfl⟩ | ⟨v, rfl, rfl⟩ |
    ⟨v, rfl, rfl⟩ | ⟨v, rfl, rfl⟩ | ⟨a, v, rfl, -, rfl⟩ | ⟨rfl, -⟩
  · exact .of_mem_eq rfl rfl
  · exact storeByte_txfKept a.toNat v s
  · exact issueCommand_txfKept hw fun ⟨hs, ht, hd⟩ => hnot ⟨hs, ht, w, rfl, hd⟩
  · exact .of_mem_eq rfl rfl
  · exact .of_mem_eq rfl rfl
  · exact .of_mem_eq rfl rfl
  · exact .of_mem_eq rfl rfl
  · exact .of_mem_eq rfl rfl
  · exact absurd rfl he

theorem exec_params {i : Instr} {s t : State} (h : exec i s = .next t) : t.params = s.params := by
  obtain ⟨-, -, -, -, -, hparams, -⟩ := commandsWriteOnlyTheirRegisters i s t h
  exact hparams

theorem issueCommand_params {w : Word} {s t : State} (h : issueCommand w s = .next t) : t.params = s.params := by
  rcases issueCommand_cases w s with ⟨-, -, h'⟩ | ⟨-, i, -, h'⟩ | ⟨-, -, h'⟩ <;> rw [h'] at h
  · cases h; rfl
  · exact (exec_params h).trans rfl
  · cases h; rfl

theorem storeByte_params (a : Nat) (v : Byte) (s : State) : (storeByte a v s).params = s.params := by
  rcases storeByte_cases a v s with ⟨h, -⟩ | ⟨h, -⟩ | ⟨h, -⟩ <;> rw [h]
  exact endRxView_params _

theorem hostEvent_params {e : HostEvent} {s t : State} (h : hostEvent e s = .next t) : t.params = s.params := by
  rcases hostEvent_cases h with ⟨r, rfl, -⟩ | ⟨a, v, -, -, rfl⟩ | ⟨w, -, hw⟩ | ⟨v, -, rfl⟩ | ⟨v, -, rfl⟩ |
    ⟨v, -, rfl⟩ | ⟨v, -, rfl⟩ | ⟨a, v, -, -, rfl⟩ | ⟨-, rfl⟩
  · rfl
  · exact storeByte_params a.toNat v s
  · exact issueCommand_params hw
  all_goals rfl

/-! ### The statements on steps -/

/-- Settles O16, by the kind of the host event. -/
theorem parametersAreFixed : Obligations.ParametersAreFixed := by
  intro s t h
  rcases step_cases h with ⟨-, rfl⟩ | ⟨e, rest, -, he⟩
  · rfl
  · exact (hostEvent_params he).trans rfl

/-- Settles O20, by the kind of the host event. -/
theorem encodedFrameIsRetained : Obligations.EncodedFrameIsRetained := by
  intro s t e rest hs h he hnot
  rw [step_event hs] at h
  have hkept : TxfKept (s.begin rest) t := hostEvent_txfKept h he hnot
  exact ⟨hkept.txlen, hkept.bytes⟩

end Sys2Proof.Machine
end

section
/-! The legal states: what each update of the state keeps of them, and so every step (10_state.md R24 to R34). -/

namespace Sys2Proof.Config

/-- The byte count counts at least two bytes besides the payload. -/
theorem Params.Valid.two_le_frameOverhead {p : Params} (h : p.Valid) : 2 ≤ p.frameOverhead := by
  rcases h.overhead with ho | ho <;> omega

end Sys2Proof.Config

namespace Sys2Proof.Safety

open Sys2Proof.Config Sys2Proof.Machine

/-- A frame is the same in buffers whose bytes agree below its length. -/
theorem isFrame_congr {p : Params} {buf buf' : Nat → Byte} {n : Nat} (h : IsFrame p buf n)
    (hbytes : ∀ k, k < n → buf' k = buf k) : IsFrame p buf' n where
  atLeast := h.atLeast
  atMost := h.atMost
  count := by
    have hge := h.atLeast
    rw [hbytes 1 (by omega)]
    exact h.count
  check := by
    have hge := h.atLeast
    rw [hbytes (n - 1) (by omega), h.check]
    congr 1
    refine List.map_congr_left fun k hk => (hbytes k ?_).symm
    have := List.mem_range.mp hk
    omega

theorem isFrame_congr_of_buffer {p : Params} {buf buf' : Nat → Byte} {n : Nat} (h : IsFrame p buf n)
    (hbytes : ∀ k, k < 256 → buf' k = buf k) : IsFrame p buf' n :=
  isFrame_congr h fun k hk => hbytes k (hk.trans_le h.atMost)

section
variable {s t : State}

theorem Inv.lenbad_of_err_eq_zero (h : Inv s) (herr : s.err = 0) : s.lenbad = false := by
  by_contra hlen
  have := herr.symm.trans (h.lenbad (Bool.eq_true_of_not_eq_false hlen))
  cases this

/-! ### Updates that keep the memory -/

/-- The registers that no part of a legal state speaks of. -/
theorem Inv.of_free_registers (h : Inv s) (cmd dataIn dataOut : Word) (boardAddr0 boardAddr1 : Byte)
    (host : List HostEvent) (reply : Reply) :
    Inv { s with cmd, dataIn, dataOut, boardAddr0, boardAddr1, host, reply } :=
  { h with }

theorem Inv.of_cursors (h : Inv s) {wcur rcur : Cursor} (hw : wcur.toNat ≤ 2048) (hr : rcur.toNat ≤ 2048) :
    Inv { s with wcur, rcur } :=
  { h with wcur := hw, rcur := hr }

/-- An error that is none of FDEC's, FENC's and SCFG's. -/
theorem Inv.after_raise (h : Inv s) (herr : s.err = 0) {e : BlockError} (hrx : e.code ≠ 3)
    (htx : ¬ (e.code = 4 ∨ e.code = 5 ∨ e.code = 6)) : Inv (raise e s) :=
  { h with
    err := e.code_le_seven
    lenbad := fun hlen => by simp [h.lenbad_of_err_eq_zero herr] at hlen
    rxFailed := fun h3 => absurd h3 hrx
    txFailed := fun h456 => absurd h456 htx }

theorem Inv.after_failEncode (h : Inv s) (herr : s.err = 0) {e : BlockError} (hrx : e.code ≠ 3) : Inv (failEncode e s) :=
  { h with
    err := e.code_le_seven
    lenbad := fun hlen => by simp [h.lenbad_of_err_eq_zero herr] at hlen
    rxFailed := fun h3 => absurd h3 hrx
    txFailed := fun _ => rfl
    txHeld := nofun }

theorem Inv.after_failDecode (h : Inv s) (lenbad : Bool) (len : Nat) : Inv (failDecode lenbad len s) :=
  { h with
    err := by simp
    lenbad := fun _ => rfl
    rxFailed := fun _ => rfl
    txFailed := fun h456 => by simp at h456
    rxFrame := nofun
    rxRegs := nofun }

theorem Inv.after_clearError (h : Inv s) : Inv (clearError s) :=
  { h with
    err := Nat.zero_le 7
    lenbad := nofun
    rxFailed := fun h3 => by simp at h3
    txFailed := fun h456 => by simp at h456 }

theorem Inv.after_endRxView (h : Inv s) (rxlen : FrameLen) : Inv (endRxView { s with rxlen }) :=
  { h with rxFailed := fun _ => rfl, rxFrame := nofun, rxRegs := nofun }

theorem Inv.after_decoded (h : Inv s) (herr : s.err = 0) (hframe : IsFrame s.params (rxbByte s) s.rxlen.toNat) :
    Inv (decoded s) :=
  { h with
    rxFailed := fun h3 => by cases herr.symm.trans h3
    rxFrame := fun _ => hframe
    rxRegs := fun _ => by
      refine ⟨rfl, rfl, rfl, ?_⟩
      have hge := hframe.atLeast
      have hle := hframe.atMost
      show (BitVec.ofNat 8 (s.rxlen.toNat - 3)).toNat + 3 = s.rxlen.toNat
      rw [BitVec.toNat_ofNat, Nat.mod_eq_of_lt (by omega)]
      omega }

theorem Inv.after_resetBlock (h : Inv s) : Inv (resetBlock s) where
  memWf := rfl
  memMapped := nofun
  params := h.params
  wcur := Nat.zero_le _
  rcur := Nat.zero_le _
  txlen := Nat.zero_le _
  err := Nat.zero_le _
  lenbad := nofun
  rxFailed := fun _ => rfl
  txFailed := fun _ => rfl
  rxFrame := nofun
  rxRegs := nofun
  txFrame := .inl rfl
  txRest := fun _ _ _ => rfl
  txHeld := nofun

/-! ### Updates of the memory -/

/-- A canonical memory within the byte windows with the same `TXF` and, while a received frame stands, the same `RXB`. -/
theorem Inv.of_mem (h : Inv s) {m : List Host.Cell} (hwf : Memory.wf m = true) (hmapped : ∀ c ∈ m, byteMapped c.1 = true)
    (htxf : ∀ k, k < 256 → Memory.read m (0x200 + k) = txfByte s k)
    (hrxb : s.rxvalid = true → ∀ k, k < 256 → Memory.read m (0x400 + k) = rxbByte s k) : Inv { s with mem := m } :=
  { h with
    memWf := hwf
    memMapped := hmapped
    rxFrame := fun hv => isFrame_congr_of_buffer (h.rxFrame hv) (hrxb hv)
    rxRegs := fun hv => by
      obtain ⟨hdest, hcount, htype, hplen⟩ := h.rxRegs hv
      have hsame := hrxb hv
      exact ⟨hdest.trans (hsame 0 (by omega)).symm, hcount.trans (hsame 1 (by omega)).symm,
        htype.trans (hsame 2 (by omega)).symm, hplen⟩
    txFrame := h.txFrame.imp_right fun hf => isFrame_congr_of_buffer hf htxf
    txRest := fun k hk hk' => (htxf k hk').trans (h.txRest k hk hk') }

/-- A build within `PB`. -/
theorem Inv.of_appended (h : Inv s) {bits : List Bool} (ha : Appended s t bits) (hw : t.wcur.toNat ≤ 2048) : Inv t := by
  have hmapped : ∀ c ∈ t.mem, byteMapped c.1 = true := by
    intro c hc
    rcases ha.cells c hc with hc | hc
    · exact h.memMapped c hc
    · exact (byteMapped_iff _).mpr (.inl (by omega))
  have hmem : Inv { s with mem := t.mem } :=
    h.of_mem (ha.wf h.memWf) hmapped (fun k _ => ha.outside _ (by omega)) (fun _ k _ => ha.outside _ (by omega))
  rw [ha.others]
  exact hmem.of_cursors hw h.rcur

/-- A byte that the host writes outside `TXF`, and outside `RXB` while a received frame stands. -/
theorem Inv.of_write (h : Inv s) {a : Nat} (v : Byte) (hbyte : byteMapped a = true)
    (htxf : ¬ (0x200 ≤ a ∧ a ≤ 0x2FF)) (hrxb : s.rxvalid = true → ¬ (0x400 ≤ a ∧ a ≤ 0x4FF)) :
    Inv { s with mem := Memory.write s.mem a v } := by
  refine h.of_mem (wf_write _ _ _ h.memWf) (fun c hc => ?_) (fun k _ => read_write_other v (by omega) s.mem)
    (fun hv k _ => read_write_other v (by have := hrxb hv; omega) s.mem)
  rcases mem_write hc with hc | hc
  · exact h.memMapped c hc
  · exact hc ▸ hbyte

theorem Inv.after_framed (h : Inv s) (herr : s.err = 0) (dest : Byte) (h₈ : 8 ≤ s.wcur.toNat)
    (hfits : ceil8 s.wcur.toNat + s.params.frameOverhead ≤ 255) : Inv (framed dest s) := by
  have hoverhead := h.params.two_le_frameOverhead
  have hsent := sentFrame_framed dest h.memWf hoverhead hfits
  have hframe : IsFrame s.params (txfByte (framed dest s)) (framed dest s).txlen.toNat := by
    have := isFrame_of_sentFrame hsent h₈ (by rwa [framed_params])
    rwa [framed_params] at this
  have hrxb (k : Nat) (hk : k < 256) : rxbByte (framed dest s) k = rxbByte s k :=
    read_framed_other dest s (by unfold rxbBase; omega)
  have hge := hframe.atLeast
  refine
    { memWf := wf_framed dest h.memWf, memMapped := fun c hc => ?_, params := by rw [framed_params]; exact h.params
      wcur := by rw [framed_wcur]; exact h.wcur
      rcur := by rw [framed_rcur]; exact h.rcur
      txlen := hframe.atMost
      err := by rw [framed_err]; exact h.err
      lenbad := by rw [framed_lenbad, framed_err]; exact h.lenbad
      rxFailed := by rw [framed_rxvalid, framed_err]; exact h.rxFailed
      txFailed := by rw [framed_err, herr]; simp
      rxFrame := fun hv => ?_
      rxRegs := fun hv => ?_
      txFrame := .inr (by rw [framed_params]; exact hframe)
      txRest := fun k hk hk' => hsent.rest k (by rwa [hsent.len] at hk) hk'
      txHeld := fun _ h0 => by rw [h0] at hge; simp at hge }
  · rcases mem_framed hc with hc | hc
    · exact h.memMapped c hc
    · exact (byteMapped_iff _).mpr (.inr (.inl (by omega)))
  · rw [framed_rxvalid] at hv
    rw [framed_params, framed_rxlen]
    exact isFrame_congr_of_buffer (h.rxFrame hv) hrxb
  · rw [framed_rxvalid] at hv
    rw [framed_rxDest, framed_rxCount, framed_rxType, framed_rxPlen, framed_rxlen, hrxb 0 (by omega), hrxb 1 (by omega),
      hrxb 2 (by omega)]
    exact h.rxRegs hv

/-! ### The commands -/

theorem Inv.after_frameTo (h : Inv s) (herr : s.err = 0) (dest : Byte) : Inv (frameTo dest s) := by
  rcases frameTo_cases dest s with ⟨-, h'⟩ | ⟨-, -, h'⟩ | ⟨h₈, hfits, h'⟩ <;> rw [h']
  · exact h.after_failEncode herr nofun
  · exact h.after_failEncode herr nofun
  · exact h.after_framed herr dest h₈ hfits

theorem Inv.after_execAddb (h : Inv s) (herr : s.err = 0) {n : Nat} (ht : execAddb n s = .next t) : Inv t := by
  rcases execAddb_cases n s with ⟨-, h'⟩ | ⟨-, -, -, h'⟩ | ⟨-, -, hfits, h'⟩ <;> cases ht.symm.trans h'
  · exact h.after_raise herr nofun (by simp [BlockError.code])
  · exact h.after_raise herr nofun (by simp [BlockError.code])
  · exact h.of_appended (appended_of_fits s.dataIn hfits) (by simpa [toNat_cursor hfits] using hfits)

theorem Inv.after_execRdb (h : Inv s) (herr : s.err = 0) {n : Nat} {src : ReadSource} (ht : execRdb n src s = .next t) :
    Inv t := by
  rcases execRdb_cases n src s with ⟨-, h'⟩ | ⟨-, -, -, h'⟩ | ⟨-, -, hfits, h'⟩ <;> cases ht.symm.trans h'
  · exact h.after_raise herr nofun (by simp [BlockError.code])
  · exact h.after_raise herr nofun (by simp [BlockError.code])
  · have hcursor : (BitVec.ofNat 12 (s.rcur.toNat + n)).toNat ≤ 2048 := by
      rw [toNat_cursor (hfits.trans (readLimit_le src s))]
      exact hfits.trans (readLimit_le src s)
    exact (h.of_cursors h.wcur hcursor).of_free_registers _ _ _ _ _ _ _

theorem Inv.after_execFdec (h : Inv s) (herr : s.err = 0) (ht : execFdec s = .next t) : Inv t := by
  rcases execFdec_cases s with ⟨-, h'⟩ | ⟨-, -, -, h'⟩ | ⟨-, -, -, -, h'⟩ | ⟨hframe, h'⟩ <;> cases ht.symm.trans h'
  · exact h.after_failDecode true _
  · exact h.after_failDecode false _
  · exact h.after_failDecode true _
  · exact h.after_decoded herr hframe

theorem Inv.after_execScfg (h : Inv s) (herr : s.err = 0) {i : BoardPair} (ht : execScfg i s = .next t) : Inv t := by
  obtain ⟨u, bits, happended, hcursor, hu⟩ := execScfg_packs ht
  have hinv : Inv u := (h.of_cursors (Nat.zero_le _) h.rcur).of_appended happended hcursor
  have herr' : u.err = 0 := by rw [happended.others]; exact herr
  rcases hu with ⟨e, hcode, rfl⟩ | rfl
  · exact hinv.after_failEncode herr' hcode
  · exact hinv.after_frameTo herr' _

theorem Inv.after_exec (h : Inv s) {i : Instr} (hgate : s.err = 0 ∨ i = .clrs) (ht : exec i s = .next t) : Inv t := by
  cases i with
  | clrs => cases ht; exact h.after_clearError
  | nop => cases ht; exact h
  | rstw => cases ht; exact h.of_cursors (Nat.zero_le _) h.rcur
  | rstr => cases ht; exact h.of_cursors h.wcur (Nat.zero_le _)
  | addb n => exact h.after_execAddb (hgate.resolve_right nofun) ht
  | rdb n src => exact h.after_execRdb (hgate.resolve_right nofun) ht
  | fenc dest => cases ht; exact h.after_frameTo (hgate.resolve_right nofun) dest
  | fdec => exact h.after_execFdec (hgate.resolve_right nofun) ht
  | scfg pair => exact h.after_execScfg (hgate.resolve_right nofun) ht

/-! ### A step -/

theorem Inv.after_issueCommand (h : Inv s) {w : Word} (ht : issueCommand w s = .next t) : Inv t := by
  have hcmd : Inv { s with cmd := w } := h.of_free_registers _ _ _ _ _ _ _
  rcases issueCommand_cases w s with ⟨-, -, h'⟩ | ⟨hgate, i, hd, h'⟩ | ⟨herr, -, h'⟩ <;> rw [h'] at ht
  · cases ht; exact hcmd
  · refine hcmd.after_exec (hgate.imp_right ?_) ht
    rintro rfl
    cases decode_clrsWord.symm.trans hd
    rfl
  · cases ht; exact hcmd.after_raise herr nofun (by simp [BlockError.code])

theorem Inv.after_storeByte (h : Inv s) (a : Nat) (v : Byte) : Inv (storeByte a v s) := by
  rcases storeByte_cases a v s with ⟨h', -⟩ | ⟨h', hout, hbyte⟩ | ⟨h', hlo, hhi, hbyte⟩ <;> rw [h']
  · exact h
  · exact h.of_write v hbyte (by omega) (fun _ => by omega)
  · exact (h.after_endRxView s.rxlen).of_write v hbyte (by omega) nofun

theorem Inv.after_hostEvent (h : Inv s) {e : HostEvent} (ht : hostEvent e s = .next t) : Inv t := by
  rcases hostEvent_cases ht with ⟨r, rfl, -⟩ | ⟨a, v, -, -, rfl⟩ | ⟨w, -, hw⟩ | ⟨v, -, rfl⟩ | ⟨v, -, rfl⟩ |
    ⟨v, -, rfl⟩ | ⟨v, -, rfl⟩ | ⟨a, v, -, -, rfl⟩ | ⟨-, rfl⟩
  · exact h.of_free_registers _ _ _ _ _ _ _
  · exact h.after_storeByte a.toNat v
  · exact h.after_issueCommand hw
  · exact h.of_free_registers _ _ _ _ _ _ _
  · exact h.after_endRxView _
  · exact h.of_free_registers _ _ _ _ _ _ _
  · exact h.of_free_registers _ _ _ _ _ _ _
  · exact h
  · exact h.after_resetBlock

end

/-! ### The statements -/

/-- The default parameters meet their constraints (00_scope.md R8, R10). -/
theorem valid_defaults : Params.defaults.Valid where
  overhead := .inl rfl
  i2cInFamily := by decide
  midBit := by decide
  sameBit := by decide
  bitsDiffer := by decide
  wSpeed := by decide
  wCnt := by decide
  wAddr := by decide
  wSet := by decide
  wWc := by decide
  wRc := by decide
  wOut := by decide

/-- Settles O14. -/
theorem resetStateIsLegal : Obligations.ResetStateIsLegal where
  memWf := rfl
  memMapped := nofun
  params := valid_defaults
  wcur := Nat.zero_le _
  rcur := Nat.zero_le _
  txlen := Nat.zero_le _
  err := Nat.zero_le _
  lenbad := nofun
  rxFailed := fun _ => rfl
  txFailed := fun _ => rfl
  rxFrame := nofun
  rxRegs := nofun
  txFrame := .inl rfl
  txRest := fun _ _ _ => rfl
  txHeld := nofun

/-- Settles O15, by the kind of the host event: each update of the state keeps the legal states. -/
theorem stepKeepsStatesLegal : Obligations.StepKeepsStatesLegal := by
  intro s t h ht
  rcases step_cases ht with ⟨-, rfl⟩ | ⟨e, rest, -, he⟩
  · exact h
  · have hbegin : Inv (s.begin rest) := h.of_free_registers _ _ _ _ _ _ _
    exact hbegin.after_hostEvent he

end Sys2Proof.Safety
end

section
/-! The frame codec's laws: what FENC builds FDEC accepts, and a flipped bit is detected (41_framecodec.md R164, R165,
00_scope.md R9). -/

namespace Sys2Proof.Machine

open Sys2Proof.Config Sys2Proof.Safety

/-! ### A flipped bit changes `sum8` -/

theorem flipBit_ne (b : Byte) {j : Nat} (hj : j < 8) : b ^^^ BitVec.twoPow 8 j ≠ b := by
  intro h
  have hbit := congrArg (fun x : Byte => x.getLsbD j) h
  simp [hj] at hbit

/-- A flip in the first byte leaves the rest of the list. -/
theorem flippedAt_cons_zero {b b' : Byte} {bs bs' : List Byte} {j : Nat} (h : FlippedAt (b :: bs) (b' :: bs') 0 j) :
    b' = b ^^^ BitVec.twoPow 8 j ∧ bs' = bs := by
  obtain ⟨hlen, -, -, hflip, hrest⟩ := h
  refine ⟨hflip, List.ext_getElem (by simpa using hlen) fun k h₁ h₂ => ?_⟩
  have := hrest (k + 1) (by omega)
  rwa [List.getD_cons_succ, List.getD_cons_succ, List.getD_eq_getElem _ _ h₁, List.getD_eq_getElem _ _ h₂] at this

/-- A flip behind the first byte leaves that byte and is a flip in the rest. -/
theorem flippedAt_cons_succ {b b' : Byte} {bs bs' : List Byte} {k j : Nat}
    (h : FlippedAt (b :: bs) (b' :: bs') (k + 1) j) : b' = b ∧ FlippedAt bs bs' k j := by
  obtain ⟨hlen, hk, hj, hflip, hrest⟩ := h
  simp only [List.length_cons, Nat.add_right_cancel_iff] at hlen
  refine ⟨hrest 0 (by omega), hlen, by simpa using hk, hj, by simpa using hflip, fun m hm => ?_⟩
  simpa using hrest (m + 1) (by omega)

/-- `sum8` changes with a flipped bit of any byte, the first one too. -/
theorem sum8_ne_of_flippedAt : ∀ {b b' : List Byte} {k j : Nat}, FlippedAt b b' k j → sum8 b' ≠ sum8 b
  | [], _, _, _, ⟨_, hk, _⟩ => absurd hk (Nat.not_lt_zero _)
  | _ :: _, [], _, _, ⟨hlen, _⟩ => by simp at hlen
  | b :: bs, b' :: bs', 0, j, h => by
    obtain ⟨rfl, rfl⟩ := flippedAt_cons_zero h
    obtain ⟨-, -, hj, -⟩ := h
    rw [sum8, sum8, Ne, BitVec.add_left_inj]
    exact flipBit_ne b hj
  | b :: bs, b' :: bs', k + 1, j, h => by
    obtain ⟨rfl, hflip⟩ := flippedAt_cons_succ h
    rw [sum8, sum8, Ne, BitVec.add_right_inj]
    exact sum8_ne_of_flippedAt hflip

/-! ### A flipped bit of a received frame -/

theorem length_rxBytes (s : State) (n : Nat) : (rxBytes s n).length = n := by simp [rxBytes]

theorem getD_rxBytes (s : State) (n k : Nat) : (rxBytes s n).getD k 0 = if k < n then rxbByte s k else 0 := by
  split
  · rw [List.getD_eq_getElem _ _ (by rwa [length_rxBytes])]
    simp [rxBytes]
  · rw [List.getD_eq_default _ _ (by rw [length_rxBytes]; omega)]

/-- A flipped bit of `RXB` is a flipped bit of the bytes under the checksum. -/
theorem flippedAt_rxBytes {u u' : State} {n k j : Nat} (hn : n ≤ 256) (hk : k < n) (hj : j < 8)
    (hflip : rxbByte u' k = rxbByte u k ^^^ BitVec.twoPow 8 j)
    (hrest : ∀ m, m < 256 → m ≠ k → rxbByte u' m = rxbByte u m) : FlippedAt (rxBytes u n) (rxBytes u' n) k j := by
  refine ⟨by rw [length_rxBytes, length_rxBytes], by rwa [length_rxBytes], hj, ?_, fun m hm => ?_⟩
  · rw [getD_rxBytes, getD_rxBytes, if_pos hk, if_pos hk, hflip]
  · rw [getD_rxBytes, getD_rxBytes]
    split
    · exact hrest m (by omega) hm
    · rfl

/-- FDEC sets `RXVALID` only for a frame, and then loads the decoded-frame registers. -/
theorem isFrame_of_execFdec_rxvalid {u v : State} (h : execFdec u = .next v) (hv : v.rxvalid = true) :
    IsFrame u.params (rxbByte u) u.rxlen.toNat ∧ v = decoded u := by
  rcases execFdec_cases u with ⟨-, h'⟩ | ⟨-, -, -, h'⟩ | ⟨-, -, -, -, h'⟩ | ⟨hframe, h'⟩ <;> cases h.symm.trans h'
  · cases hv
  · cases hv
  · cases hv
  · exact ⟨hframe, rfl⟩

/-! ### A built frame in `RXB` -/

/-- FENC and SCFG set `TXVALID` only as they build the frame. -/
theorem frameTo_of_txvalid {dest : Byte} {s : State} (h : (frameTo dest s).txvalid = true) :
    8 ≤ s.wcur.toNat ∧ ceil8 s.wcur.toNat + s.params.frameOverhead ≤ 255 ∧ frameTo dest s = framed dest s := by
  rcases frameTo_cases dest s with ⟨-, h'⟩ | ⟨-, -, h'⟩ | hbuilt
  · rw [h'] at h; cases h
  · rw [h'] at h; cases h
  · exact hbuilt

/-- A field is the same from bits that agree where it lies. -/
theorem readField_congr {bit bit' : Nat → Bool} {c : Nat} :
    ∀ {n : Nat}, (∀ q, c ≤ q → q < c + n → bit q = bit' q) → readField bit c n = readField bit' c n
  | 0, _ => rfl
  | n + 1, h => by
    rw [readField, readField, h (c + n) (by omega) (by omega),
      readField_congr (n := n) fun q h₁ h₂ => h q h₁ (by omega)]

/-- The bits of two buffers agree where their bytes do. -/
theorem bufBit_eq_of_read_eq {m m' : List Host.Cell} {base base' p : Nat}
    (h : Memory.read m (base + p / 8) = Memory.read m' (base' + p / 8)) : bufBit m base p = bufBit m' base' p := by
  unfold bufBit bitAddr
  rw [h]

/-- The first payload byte of a sent frame is the first byte packed: with at least 8 bits packed none of it is padding. -/
theorem sentFrame_first_payload_byte {s t : State} {dest : Byte} {w : Nat} (h : SentFrame t dest w (bufBit s.mem pbBase))
    (hw : 8 ≤ w) : txfByte t 2 = pbByte s 0 := by
  refine read_eq_of_bufBit fun j hj => ?_
  rw [show 8 * 2 + j = 16 + j by omega, h.payload j (by omega), decide_eq_true (by omega), Bool.true_and, Nat.mul_zero,
    Nat.zero_add]

/-! ### The statements -/

/-- Settles O34, by the place of the flipped byte. -/
theorem sum8DetectsSingleBitChanges : Obligations.Sum8DetectsSingleBitChanges :=
  fun _ _ _ _ _ _ => sum8_ne_of_flippedAt

/-- Settles O33: the flip changes the checksum of the bytes before the checksum byte, which stays. -/
theorem singleBitCorruptionIsDetected : Obligations.SingleBitCorruptionIsDetected := by
  intro u u' v k j h hv hparams hlen hk hj hflip hrest hdetects
  obtain ⟨hframe, -⟩ := isFrame_of_execFdec_rxvalid h hv
  have hge := hframe.atLeast
  have hle := hframe.atMost
  have hflipped := flippedAt_rxBytes (n := u.rxlen.toNat - 1) (by omega) (by omega) hj hflip hrest
  have hchanged : checksum u.params (rxBytes u' (u.rxlen.toNat - 1)) ≠
      checksum u.params (rxBytes u (u.rxlen.toNat - 1)) := by
    rcases hdetects with ⟨hany, hk₁⟩ | hsum8
    · exact hany _ _ k j (by rw [length_rxBytes]; omega) hk₁ hflipped
    · simpa only [checksum, hsum8] using sum8_ne_of_flippedAt hflipped
  refine execFdec_of_bad_checksum (by rwa [hlen]) (by rwa [hlen]) ?_
  rw [hparams, hlen, hrest _ (by omega) (by omega), hframe.check]
  exact hchanged

/-- Settles O32: the bytes copied are a frame, so FDEC accepts it, and its payload bits are the packed ones below
`WCUR`. -/
theorem encodedFrameDecodes : Obligations.EncodedFrameDecodes := by
  intro s t u dest hvalid hwf ht htx hparams hlen hcopy
  cases ht
  obtain ⟨h₈, hfits, hbuilt⟩ := frameTo_of_txvalid htx
  rw [hbuilt] at hparams hlen hcopy
  have hoverhead := hvalid.two_le_frameOverhead
  have hsent := sentFrame_framed dest hwf hoverhead hfits
  have hsize : u.rxlen.toNat = ceil8 s.wcur.toNat + 3 := by rw [hlen]; exact hsent.len
  have hframe : IsFrame u.params (rxbByte u) u.rxlen.toNat := by
    have hbuiltFrame := isFrame_of_sentFrame hsent h₈ (by rwa [framed_params])
    rw [hparams, hlen]
    exact isFrame_congr hbuiltFrame hcopy
  rw [← hlen, hsize] at hcopy
  have hplen : (decoded u).rxPlen.toNat = ceil8 s.wcur.toNat := by
    show (BitVec.ofNat 8 (u.rxlen.toNat - 3)).toNat = _
    rw [hsize, BitVec.toNat_ofNat, Nat.mod_eq_of_lt (by omega)]
    omega
  refine ⟨decoded u, execFdec_of_isFrame hframe, rfl, rfl, ?_, ?_, hplen, fun c n h₁ h₃₂ hcn => ?_⟩
  · exact (hcopy 0 (by omega)).trans hsent.dest
  · unfold ceil8 at hcopy
    exact (hcopy 2 (by omega)).trans (sentFrame_first_payload_byte hsent h₈)
  · unfold ceil8 at *
    have hc : (BitVec.ofNat 12 c).toNat = c := toNat_cursor (by omega)
    have hlimit : readLimit .rxPayload (decoded u) = 8 * (decoded u).rxPlen.toNat := rfl
    refine ⟨_, _, execRdb_of_fits h₁ h₃₂ ?_, execRdb_of_fits h₁ h₃₂ ?_, ?_, rfl, rfl⟩
    · show (BitVec.ofNat 12 c).toNat + n ≤ readLimit .rxPayload (decoded u)
      rw [hc, hlimit, hplen]
      omega
    · show (BitVec.ofNat 12 c).toNat + n ≤ 2048
      omega
    · show readField (fun q => bufBit u.mem rxbBase (16 + q)) (BitVec.ofNat 12 c).toNat n =
        readField (bufBit s.mem pbBase) (BitVec.ofNat 12 c).toNat n
      rw [hc]
      refine readField_congr fun q h₁ h₂ => ?_
      have hcopied : bufBit u.mem rxbBase (16 + q) = bufBit (framed dest s).mem txfBase (16 + q) :=
        bufBit_eq_of_read_eq (hcopy ((16 + q) / 8) (by omega))
      rw [hcopied, hsent.payload q (by omega), decide_eq_true (by omega), Bool.true_and]

end Sys2Proof.Machine
end

section
/-! Runs of host events, and the bit packer's round trip: what PACK writes UNPACK reads back (40_bitpacker.md R125,
30_encoding.md R106). -/

namespace Sys2Proof.Machine

open Sys2Proof.Config Sys2Proof.Safety

/-! ### Runs -/

/-- The outcome of `n` more steps of a machine. -/
def runOutcome (M : Host.Core) (n : Nat) :
    Host.Outcome M.State M.Fault M.Refusal → Host.Outcome M.State M.Fault M.Refusal
  | .next t => M.run n t
  | .fault f => .fault f
  | .refused r => .refused r

theorem run_succ (M : Host.Core) (n : Nat) (s : M.State) : M.run (n + 1) s = runOutcome M n (M.step s) := by
  rw [Host.Core.run]
  cases M.step s <;> rfl

theorem run_add (M : Host.Core) (n m : Nat) (s : M.State) : M.run (n + m) s = runOutcome M m (M.run n s) := by
  induction n generalizing s with
  | zero => rw [Nat.zero_add]; rfl
  | succ n ih =>
    rw [Nat.add_right_comm, run_succ, run_succ]
    cases M.step s with
    | next t => exact ih t
    | fault f => rfl
    | refused r => rfl

theorem after_zero (s : State) : after 0 s = .next s := rfl

theorem after_succ {n : Nat} {s t : State} (h : step s = .next t) : after (n + 1) s = after n t :=
  (run_succ core n s).trans (congrArg (runOutcome core n) h)

/-- A run goes on from where a run ended. -/
theorem after_add {n m : Nat} {s t : State} (h : after n s = .next t) : after (n + m) s = after m t :=
  (run_add core n m s).trans (congrArg (runOutcome core m) h)

/-- With `ERR` = 0 a command that is issued runs. -/
theorem step_issue {i : Instr} {s : State} {es : List HostEvent} (hi : i.wellFormed = true) (herr : s.err = 0) :
    step (s.pending (issue i :: es)) = exec i { s with host := es, reply := .nothing, cmd := encode i } := by
  rw [step_cmd (s := s.pending (issue i :: es)) rfl]
  exact issueCommand_of_command (decode_encode hi) (.inl herr)

/-! ### PACK -/

/-- A field as an item of a build. -/
def fieldItem (f : Nat × Word) : PackItem := .field f.1 f.2

/-- The bits of a sequence of fields. -/
def fieldsBits (fields : List (Nat × Word)) : List Bool := itemBits (fields.map fieldItem)

theorem fieldsBits_cons (f : Nat × Word) (fields : List (Nat × Word)) :
    fieldsBits (f :: fields) = (fieldItem f).bits ++ fieldsBits fields := rfl

theorem length_bits_fieldItem (f : Nat × Word) : (fieldItem f).bits.length = f.1 := by
  simp [fieldItem, PackItem.bits]

theorem length_fieldsBits (fields : List (Nat × Word)) : (fieldsBits fields).length = (fields.map Prod.fst).sum := by
  induction fields with
  | nil => rfl
  | cons f fields ih => rw [fieldsBits_cons, List.length_append, length_bits_fieldItem, ih, List.map_cons, List.sum_cons]

/-- `PB` holds exactly these bits below `WCUR`, in a state with no error. -/
structure Packed (s : State) (bits : List Bool) : Prop where
  wf : Memory.wf s.mem = true
  err : s.err = 0
  wcur : s.wcur.toNat = bits.length
  holds : ∀ q, q < bits.length → bufBit s.mem pbBase q = bits.getD q false

/-- RSTW starts a build of no bits. -/
theorem packed_rstw {s : State} (hwf : Memory.wf s.mem = true) (herr : s.err = 0) (es : List HostEvent) :
    ∃ t, after 1 (s.pending (issue .rstw :: es)) = .next (t.pending es) ∧ Packed t [] :=
  ⟨{ s with wcur := 0, reply := .nothing, cmd := encode .rstw }, after_succ (step_issue rfl herr),
    hwf, herr, rfl, fun _ hq => absurd hq (Nat.not_lt_zero _)⟩

/-- PACK appends its field's bits. -/
theorem packed_pack {s : State} {bits : List Bool} (h : Packed s bits) {f : Nat × Word} (h₁ : 1 ≤ f.1) (h₃₂ : f.1 ≤ 32)
    (hfits : bits.length + f.1 ≤ 2048) (es : List HostEvent) :
    ∃ t, after 2 (s.pending (pack f ++ es)) = .next (t.pending es) ∧ Packed t (bits ++ (fieldItem f).bits) := by
  have hwidth : (Instr.addb f.1).wellFormed = true := decide_eq_true (by omega)
  let u : State := { s with dataIn := f.2, reply := .nothing, cmd := encode (.addb f.1) }
  have hroom : u.wcur.toNat + f.1 ≤ 2048 := h.wcur ▸ hfits
  have hload : step (s.pending (pack f ++ es)) =
      .next (State.pending { s with dataIn := f.2, reply := .nothing } (issue (.addb f.1) :: es)) :=
    step_event (s := s.pending (pack f ++ es)) rfl
  have hrun := (step_issue (s := { s with dataIn := f.2, reply := .nothing }) (es := es) hwidth h.err).trans
    (execAddb_of_fits (s := u.pending es) h₁ h₃₂ hroom)
  have happended := appended_of_fits (s := u) f.2 hroom
  refine ⟨_, (after_succ hload).trans (after_succ hrun), happended.wf h.wf, h.err, ?_, fun q hq => ?_⟩
  · rw [List.length_append, length_bits_fieldItem, ← h.wcur]
    exact toNat_cursor hroom
  · refine (happended.bit h.wf q).trans ?_
    rw [List.length_append, length_bits_fieldItem, ← h.wcur] at hq
    by_cases hnew : s.wcur.toNat ≤ q
    · rw [if_pos ⟨hnew, by simpa using hq⟩, List.getD_append_right _ _ _ _ (h.wcur ▸ hnew), ← h.wcur]
      rfl
    · rw [if_neg fun hin => hnew hin.1, List.getD_append _ _ _ _ (by rw [← h.wcur]; omega)]
      exact h.holds q (by rw [← h.wcur]; omega)

/-- A run of PACKs appends the fields' bits in order. -/
theorem packed_packs : ∀ {fields : List (Nat × Word)} {s : State} {bits : List Bool}, Packed s bits →
    (∀ f ∈ fields, 1 ≤ f.1 ∧ f.1 ≤ 32) → bits.length + (fieldsBits fields).length ≤ 2048 → ∀ es : List HostEvent,
    ∃ t, after (2 * fields.length) (s.pending (fields.flatMap pack ++ es)) = .next (t.pending es) ∧
      Packed t (bits ++ fieldsBits fields)
  | [], s, bits, h, _, _, es => ⟨s, after_zero _, by rw [fieldsBits]; simpa using h⟩
  | f :: fields, s, bits, h, hwidths, hfits, es => by
    obtain ⟨h₁, h₃₂⟩ := hwidths f List.mem_cons_self
    rw [fieldsBits_cons, List.length_append, length_bits_fieldItem] at hfits
    obtain ⟨u, hu, hpacked⟩ := packed_pack h h₁ h₃₂ (by omega) (fields.flatMap pack ++ es)
    obtain ⟨t, ht, hall⟩ := packed_packs hpacked (fun g hg => hwidths g (List.mem_cons_of_mem f hg))
      (by rw [List.length_append, length_bits_fieldItem]; omega) es
    refine ⟨t, ?_, by rwa [fieldsBits_cons, ← List.append_assoc]⟩
    rw [List.length_cons, show 2 * (fields.length + 1) = 2 + 2 * fields.length by omega, List.flatMap_cons,
      List.append_assoc, after_add hu, ht]

/-! ### UNPACK -/

/-- `PB` holds these bits from `RCUR` on, in a state with no error. -/
structure Unread (s : State) (bits : List Bool) : Prop where
  err : s.err = 0
  fits : s.rcur.toNat + bits.length ≤ 2048
  holds : ∀ q, q < bits.length → bufBit s.mem pbBase (s.rcur.toNat + q) = bits.getD q false

/-- After RSTR every packed bit is to be read. -/
theorem unread_rstr {s : State} {bits : List Bool} (h : Packed s bits) (hfits : bits.length ≤ 2048)
    (es : List HostEvent) :
    ∃ t, after 1 (s.pending (issue .rstr :: es)) = .next (t.pending es) ∧ Unread t bits := by
  refine ⟨{ s with rcur := 0, reply := .nothing, cmd := encode .rstr }, after_succ (step_issue rfl h.err), h.err, ?_, ?_⟩
  · simpa using hfits
  · simpa using h.holds

/-- A field that is read from its own bits is its value. -/
theorem readField_fieldItem {bit : Nat → Bool} {c : Nat} {f : Nat × Word} (h₃₂ : f.1 ≤ 32) (hvalue : f.2.toNat < 2 ^ f.1)
    (hbits : ∀ j, j < f.1 → bit (c + j) = (fieldItem f).bits.getD j false) : readField bit c f.1 = f.2 := by
  refine BitVec.eq_of_getLsbD_eq fun j hj => ?_
  rw [getLsbD_readField _ _ _ _ h₃₂]
  by_cases hin : j < f.1
  · rw [decide_eq_true hin, Bool.true_and, hbits j hin, List.getD_eq_getElem _ _ (by rwa [length_bits_fieldItem])]
    simp [fieldItem, PackItem.bits]
  · have hzero : f.2.getLsbD j = false :=
      Nat.testBit_lt_two_pow (hvalue.trans_le (Nat.pow_le_pow_right (by decide) (Nat.not_lt.mp hin)))
    rw [decide_eq_false hin, Bool.false_and, hzero]

/-- RDB from `PB`, by the value that is read. -/
theorem execRdb_packBuffer_reads {s : State} {n : Nat} {v : Word} (h₁ : 1 ≤ n) (h₃₂ : n ≤ 32)
    (hfits : s.rcur.toNat + n ≤ 2048) (hv : readField (bufBit s.mem pbBase) s.rcur.toNat n = v) :
    execRdb n .packBuffer s = .next { s with dataOut := v, rcur := BitVec.ofNat 12 (s.rcur.toNat + n) } := by
  subst hv
  exact execRdb_of_fits h₁ h₃₂ hfits

/-- UNPACK reads its field's value and leaves the bits behind it. -/
theorem unread_unpack {s : State} {f : Nat × Word} {bits : List Bool} (h : Unread s ((fieldItem f).bits ++ bits))
    (h₁ : 1 ≤ f.1) (h₃₂ : f.1 ≤ 32) (hvalue : f.2.toNat < 2 ^ f.1) (es : List HostEvent) :
    ∃ t, after 2 (s.pending (unpack f ++ es)) = .next (t.pending es) ∧ t.reply = .word f.2 ∧ t.dataOut = f.2 ∧
      Unread t bits := by
  have hwidth : (Instr.rdb f.1 .packBuffer).wellFormed = true := decide_eq_true (by omega)
  have hfits := h.fits
  have hbits := h.holds
  rw [List.length_append, length_bits_fieldItem] at hfits hbits
  have hroom : s.rcur.toNat + f.1 ≤ 2048 := by omega
  have hvalueRead : readField (bufBit s.mem pbBase) s.rcur.toNat f.1 = f.2 := by
    refine readField_fieldItem h₃₂ hvalue fun j hj => ?_
    rw [hbits j (by omega), List.getD_append _ _ _ _ (by rwa [length_bits_fieldItem])]
  have hcursor : (BitVec.ofNat 12 (s.rcur.toNat + f.1)).toNat = s.rcur.toNat + f.1 := toNat_cursor hroom
  let u : State := { s with
    dataOut := f.2, rcur := BitVec.ofNat 12 (s.rcur.toNat + f.1), reply := .nothing
    cmd := encode (.rdb f.1 .packBuffer) }
  have hrun : step (s.pending (unpack f ++ es)) = .next (u.pending (.load32 0x70C :: es)) :=
    (step_issue (s := s) (es := .load32 0x70C :: es) hwidth h.err).trans
      (execRdb_packBuffer_reads (v := f.2) h₁ h₃₂ hroom hvalueRead)
  have hload : step (u.pending (.load32 0x70C :: es)) = .next (State.pending { u with reply := .word f.2 } es) :=
    step_load32 (s := u.pending (.load32 0x70C :: es)) (r := .dataOut) rfl rfl
  refine ⟨{ u with reply := .word f.2 }, (after_succ hrun).trans (after_succ hload), rfl, rfl, h.err, ?_, fun q hq => ?_⟩
  · show (BitVec.ofNat 12 _).toNat + _ ≤ _
    omega
  · show bufBit s.mem pbBase ((BitVec.ofNat 12 _).toNat + q) = _
    rw [hcursor, Nat.add_assoc, hbits _ (by omega), List.getD_append_right _ _ _ _ (by rw [length_bits_fieldItem]; omega),
      length_bits_fieldItem, Nat.add_sub_cancel_left]

/-- The k-th of a run of UNPACKs reads the k-th field's value. -/
theorem unpack_reads : ∀ {fields : List (Nat × Word)} {s : State}, Unread s (fieldsBits fields) →
    (∀ f ∈ fields, 1 ≤ f.1 ∧ f.1 ≤ 32 ∧ f.2.toNat < 2 ^ f.1) → ∀ (es : List HostEvent) (k : Nat) (hk : k < fields.length),
    ∃ t, after (2 * (k + 1)) (s.pending (fields.flatMap unpack ++ es)) = .next t ∧ t.reply = .word (fields[k]).2 ∧
      t.dataOut = (fields[k]).2 ∧ t.err = 0
  | [], _, _, _, _, _, hk => absurd hk (Nat.not_lt_zero _)
  | f :: fields, s, h, hlegal, es, k, hk => by
    obtain ⟨h₁, h₃₂, hvalue⟩ := hlegal f List.mem_cons_self
    obtain ⟨u, hu, hreply, hdata, hrest⟩ := unread_unpack h h₁ h₃₂ hvalue (fields.flatMap unpack ++ es)
    rw [List.flatMap_cons, List.append_assoc]
    cases k with
    | zero => exact ⟨_, hu, hreply, hdata, hrest.err⟩
    | succ k =>
      obtain ⟨t, ht, hread⟩ :=
        unpack_reads hrest (fun g hg => hlegal g (List.mem_cons_of_mem f hg)) es k (Nat.lt_of_succ_lt_succ hk)
      refine ⟨t, ?_, hread⟩
      rw [show 2 * (k + 1 + 1) = 2 + 2 * (k + 1) by omega, after_add hu, ht]

/-! ### The statement -/

/-- Settles O29: RSTW and the PACKs leave the fields' bits in `PB`, and after RSTR each UNPACK reads its own. -/
theorem packedFieldsReadBack : Obligations.PackedFieldsReadBack := by
  intro s fields hwf herr hlegal hsum k hk
  rw [← length_fieldsBits] at hsum
  obtain ⟨u₁, h₁, hstart⟩ :=
    packed_rstw hwf herr (fields.flatMap pack ++ (issue .rstr :: (fields.flatMap unpack ++ s.host)))
  obtain ⟨u₂, h₂, hpacked⟩ := packed_packs hstart (fun f hf => let ⟨h₁, h₃₂, _⟩ := hlegal f hf; ⟨h₁, h₃₂⟩)
    (by simpa using hsum) (issue .rstr :: (fields.flatMap unpack ++ s.host))
  obtain ⟨u₃, h₃, hunread⟩ := unread_rstr hpacked (by simpa using hsum) (fields.flatMap unpack ++ s.host)
  obtain ⟨t, ht, hread⟩ := unpack_reads (by simpa using hunread) hlegal s.host k hk
  refine ⟨t, ?_, hread⟩
  have hevents : withEvents s (issue .rstw :: fields.flatMap pack ++ issue .rstr :: fields.flatMap unpack) =
      s.pending (issue .rstw :: (fields.flatMap pack ++ (issue .rstr :: (fields.flatMap unpack ++ s.host)))) := by
    simp [withEvents, State.pending]
  rw [hevents, show 2 * fields.length + 2 * k + 4 = 1 + (2 * fields.length + (1 + 2 * (k + 1))) by omega, after_add h₁,
    after_add h₂, after_add h₃, ht]

end Sys2Proof.Machine
end

section
/-! SCFG's errors and its payload: the first step that fails, the payload's length, and an ultrasonic-continuous port
(42_sensorconfig.md R194, R195, R198, R200). -/

namespace Sys2Proof.Machine

open Sys2Proof.Config Sys2Proof.Safety

/-! ### The first step that fails -/

/-- A build has one first step that fails. -/
theorem first_failing_step_unique {before before' rest rest' : List PayloadStep} {step step' : PayloadStep}
    {code code' : BitVec 4} (h : before ++ step :: rest = before' ++ step' :: rest') (hpass : AllPass before)
    (hpass' : AllPass before') (hfails : FailsAfter before step code) (hfails' : FailsAfter before' step' code') :
    before = before' ∧ step = step' := by
  rcases List.append_eq_append_iff.mp h with ⟨between, hbefore', htail⟩ | ⟨between, hbefore, htail⟩
  · cases between with
    | nil => exact ⟨by simpa using hbefore'.symm, (List.cons.inj htail).1⟩
    | cons x between =>
      obtain ⟨rfl, -⟩ := List.cons.inj htail
      exact absurd hfails (not_failsAfter_of_allPass (hbefore' ▸ hpass'))
  · cases between with
    | nil => exact ⟨by simpa using hbefore, (List.cons.inj htail).1.symm⟩
    | cons x between =>
      obtain ⟨rfl, -⟩ := List.cons.inj htail
      exact absurd hfails' (not_failsAfter_of_allPass (hbefore ▸ hpass))

/-- A step that fails has one error code. -/
theorem failsAfter_code_unique {before : List PayloadStep} {step : PayloadStep} {code code' : BitVec 4}
    (h : FailsAfter before step code) (h' : FailsAfter before step code') : code = code' := by
  cases step with
  | append bits => exact h.2.trans h'.2.symm
  | check ok => exact h.2.trans h'.2.symm

section
variable {s t : State} {i : BoardPair}

/-- SCFG stops where its first failing step is. -/
theorem ScfgAnswer.stoppedBuild (h : ScfgAnswer s i t) {before rest : List PayloadStep} {step : PayloadStep}
    {code : BitVec 4} (hsteps : payloadSteps s (pairNumber i) = before ++ step :: rest) (hpass : AllPass before)
    (hfails : FailsAfter before step code) : StoppedBuild s t (stepBits before) code := by
  cases h with
  | stopped hsteps' hpass' hfails' left =>
    obtain ⟨rfl, rfl⟩ := first_failing_step_unique (hsteps.symm.trans hsteps') hpass hpass' hfails hfails'
    exact failsAfter_code_unique hfails' hfails ▸ left
  | tooLong pass _ _ => exact absurd hfails (not_failsAfter_of_allPass (hsteps ▸ pass))
  | sent pass _ _ => exact absurd hfails (not_failsAfter_of_allPass (hsteps ▸ pass))

/-- SCFG raises FRAME_TOO_LONG when every step passes and the payload is too long for a frame. -/
theorem ScfgAnswer.tooLongBuild (h : ScfgAnswer s i t) (hpass : AllPass (payloadSteps s (pairNumber i)))
    (hlong : 255 < ceil8 (payloadBits s (pairNumber i)).length + s.params.frameOverhead) :
    StoppedBuild s t (payloadBits s (pairNumber i)) 6 := by
  cases h with
  | stopped hsteps _ hfails _ => exact absurd hfails (not_failsAfter_of_allPass (hsteps ▸ hpass))
  | tooLong _ _ left => exact left
  | sent _ hfits _ => omega

/-- An SCFG that succeeds sent its payload, and every step of its build passed. -/
theorem ScfgAnswer.sentBuild_of_txvalid (h : ScfgAnswer s i t) (htx : t.txvalid = true) :
    AllPass (payloadSteps s (pairNumber i)) ∧ SentBuild s t (pairAddress s i) (payloadBits s (pairNumber i)) := by
  cases h with
  | stopped _ _ _ left => cases (txvalid_of_stoppedBuild left).symm.trans htx
  | tooLong _ _ left => cases (txvalid_of_stoppedBuild left).symm.trans htx
  | sent pass _ left => exact ⟨pass, left⟩

end

/-! ### The payload's length -/

/-- The bits of one device, by its widths. -/
theorem length_stepBits_deviceSteps (s : State) (p d : Nat) : (stepBits (deviceSteps s p d)).length =
    s.params.wAddr + s.params.wSet + if sameTransfer s p d = true then
      s.params.wWc + s.params.wRc + min (sentField s p d 2) 16 * s.params.wOut else 0 := by
  rw [stepBits_deviceSteps]
  by_cases h : sameTransfer s p d = true
  · simp [h, List.length_flatMap]
    omega
  · simp [h]

/-- The bits of one port, by its devices; a count that can be encoded is at most 16. -/
theorem length_portBits {s : State} {p : Nat} (h : CountsFit s p) : (portBits s p).length =
    if sentType s p ∈ s.params.i2cFamily then
      s.params.wSpeed + s.params.wCnt + ((List.range (sentCount s p)).map fun d =>
        s.params.wAddr + s.params.wSet + if sameTransfer s p d = true then
          s.params.wWc + s.params.wRc + sentField s p d 2 * s.params.wOut else 0).sum
    else 0 := by
  rw [portBits_eq]
  by_cases hfamily : sentType s p ∈ s.params.i2cFamily
  · rw [if_pos hfamily, if_pos hfamily, List.length_append, List.length_append, length_fieldBits, length_fieldBits,
      List.length_flatMap, ← Nat.add_assoc]
    refine congrArg (fun devices => _ + List.sum devices) (List.map_congr_left fun d hd => ?_)
    rw [length_stepBits_deviceSteps]
    by_cases hsame : sameTransfer s p d = true
    · obtain ⟨hwc, -⟩ := h hfamily d (List.mem_range.mp hd) hsame
      rw [if_pos hsame, if_pos hsame, Nat.min_eq_left (hwc.trans (Nat.min_le_left _ _))]
    · rw [if_neg hsame, if_neg hsame]
  · rw [if_neg hfamily, if_neg hfamily, List.length_nil]

/-! ### An ultrasonic-continuous port -/

theorem cfg_type_eq_iff (s : State) (p : Nat) : cfg s p 0 = 33 ↔ Memory.read s.mem (0x800 + 0x100 * p) = 33 := by
  rw [← BitVec.toNat_inj]
  rfl

/-- Both settings bits, one by one or added. -/
theorem settings_or_eq {P : Params} (h : P.Valid) : 2 ^ P.midBit ||| 2 ^ P.sameBit = 2 ^ P.midBit + 2 ^ P.sameBit := by
  have hm : P.midBit < 32 := by have := h.midBit; have := h.wSet; omega
  have hs : P.sameBit < 32 := by have := h.sameBit; have := h.wSet; omega
  rw [← toNat_settings h, BitVec.toNat_or, BitVec.toNat_twoPow_of_lt hm, BitVec.toNat_twoPow_of_lt hs]

section
variable {s : State} {p : Nat}

theorem sentType_ultrasonic (h : cfg s p 0 = 33) : sentType s p = s.params.typeI2c := if_pos h

theorem sentCount_ultrasonic (h : cfg s p 0 = 33) : sentCount s p = 1 := if_pos h

theorem sameTransfer_ultrasonic (hv : s.params.Valid) (h : cfg s p 0 = 33) (d : Nat) : sameTransfer s p d = true := by
  have hset : sentField s p d 1 = 2 ^ s.params.midBit ||| 2 ^ s.params.sameBit := by
    rw [settings_or_eq hv]
    exact if_pos h
  rw [sameTransfer, hset, Nat.testBit_or, Nat.testBit_two_pow_self, Bool.or_true]

/-- The synthesized device's counts always fit. -/
theorem countsFit_ultrasonic (hv : s.params.Valid) (h : cfg s p 0 = 33) : CountsFit s p := by
  intro _ d _ _
  have hone {w : Nat} (hw : 1 ≤ w) : 1 ≤ min 16 (2 ^ w - 1) := by
    have := Nat.pow_le_pow_right (n := 2) (by decide) hw
    omega
  have hwc : sentField s p d 2 = 1 := if_pos h
  have hrc : sentField s p d 3 = 1 := if_pos h
  rw [hwc, hrc]
  exact ⟨hone hv.wWc.1, hone hv.wRc.1⟩

/-- The block of an ultrasonic-continuous port: its speed, count field 0 and the synthesized device. -/
theorem portBits_ultrasonic (hv : s.params.Valid) (h : cfg s p 0 = 33) : portBits s p =
    fieldBits s.params.wSpeed (Memory.read s.mem (0x801 + 0x100 * p)).toNat ++ fieldBits s.params.wCnt 0 ++
      fieldBits s.params.wAddr (s.params.usI2cAddr.toNat / 2) ++
      fieldBits s.params.wSet (2 ^ s.params.midBit ||| 2 ^ s.params.sameBit) ++
      fieldBits s.params.wWc 1 ++ fieldBits s.params.wRc 1 ++ fieldBits s.params.wOut s.params.usDataReg.toNat := by
  have hspeed : cfg s p 1 = (Memory.read s.mem (0x801 + 0x100 * p)).toNat := by
    rw [cfg, show 0x800 + 0x100 * p + 1 = 0x801 + 0x100 * p by omega]
  have hfield (d : Nat) : sentField s p d 0 = s.params.usI2cAddr.toNat ∧
      sentField s p d 1 = 2 ^ s.params.midBit + 2 ^ s.params.sameBit ∧ sentField s p d 2 = 1 ∧ sentField s p d 3 = 1 :=
    ⟨if_pos h, if_pos h, if_pos h, if_pos h⟩
  have hout (d j : Nat) : sentOut s p d j = s.params.usDataReg.toNat := if_pos h
  simp [portBits_eq, stepBits_deviceSteps, sentType_ultrasonic h, hv.i2cInFamily, sentCount_ultrasonic h,
    sameTransfer_ultrasonic hv h, hspeed, hfield, hout, settings_or_eq hv, List.range_succ]

end

/-! ### The statements -/

/-- Settles O37: the answers of SCFG exclude each other. -/
theorem scfgErrors : Obligations.ScfgErrors := by
  intro s i hv steps
  obtain ⟨t, ht⟩ := exec_gives_next (.scfg i) s
  have hanswer := execScfg_answer hv ht
  exact ⟨fun before step rest code hsteps hpass hfails => ⟨t, ht, hanswer.stoppedBuild hsteps hpass hfails⟩,
    fun hpass hlong => ⟨t, ht, hanswer.tooLongBuild hpass hlong⟩⟩

/-- Settles O38: a successful SCFG packed its whole payload, whose counts all fit. -/
theorem scfgPayloadLength : Obligations.ScfgPayloadLength := by
  intro s t i hv ht htx P device port k
  obtain ⟨hpass, hsent⟩ := (execScfg_answer hv ht).sentBuild_of_txvalid htx
  obtain ⟨⟨hlow, hhigh⟩, -⟩ := (allPass_payloadSteps hv i).mp hpass
  have hlowBits : (portBits s (2 * k)).length = port (2 * k) := length_portBits hlow
  have hhighBits : (portBits s (2 * k + 1)).length = port (2 * k + 1) := length_portBits hhigh
  have hlength : (payloadBits s k).length = 24 + port (2 * k) + port (2 * k + 1) := by
    rw [payloadBits_eq, ← hlowBits, ← hhighBits]
    simp only [List.length_append, length_fieldBits]
    omega
  exact hsent.holds.wcur.trans hlength

/-- Settles O39: the payload is the one SCFG sends, with the synthesized device in each ultrasonic-continuous port's
block. -/
theorem scfgUltrasonicSubstitution : Obligations.ScfgUltrasonicSubstitution := by
  intro s i hv hwf k P configured type block bits _ hlow hhigh hfits
  have htype (p : Nat) : type p = sentType s p := by
    simp only [type, sentType, configured, cfg_type_eq_iff]
    rfl
  have hblock (p : Nat) : block p = portBits s p := by
    by_cases h : configured p = 33
    · rw [portBits_ultrasonic hv ((cfg_type_eq_iff s p).mpr h)]
      exact if_pos h
    · exact if_neg h
  have hcounts {p : Nat} (h : configured p ≠ 33 → CountsFit s p) : CountsFit s p := by
    by_cases hus : configured p = 33
    · exact countsFit_ultrasonic hv ((cfg_type_eq_iff s p).mpr hus)
    · exact h hus
  have hbits : bits = payloadBits s k := by
    simp only [bits, htype, hblock, payloadBits_eq, List.append_assoc]
  rw [hbits] at hfits ⊢
  obtain ⟨t, ht⟩ := exec_gives_next (.scfg i) s
  have hroom : (payloadBits s k).length ≤ 2048 := by omega
  have hpass : AllPass (payloadSteps s k) := (allPass_payloadSteps hv i).mpr ⟨⟨hcounts hlow, hcounts hhigh⟩, hroom⟩
  have hsent := (execScfg_answer hv ht).sentBuild hpass hfits
  exact ⟨t, ht, hsent.holds.wcur, by rw [hsent.others], hsent.frame hwf,
    fun a ha => hsent.outside a (by omega) (by omega)⟩

end Sys2Proof.Machine
end

section
/-! Which bytes of the configuration SCFG depends on: two states with the same build and the same `PB` get the same answer
(42_sensorconfig.md R185, R199, 70_reset_and_hazards.md R273). -/

namespace Sys2Proof.Machine

open Sys2Proof.Config Sys2Proof.Safety

/-! ### Memories that agree on some addresses -/

/-- Two canonical memories with the same bytes at these addresses. -/
structure MemAgree (D : Nat → Prop) (m m' : List Host.Cell) : Prop where
  wf : Memory.wf m = true
  wf' : Memory.wf m' = true
  bytes : ∀ a, D a → Memory.read m' a = Memory.read m a

section
variable {D : Nat → Prop} {m m' : List Host.Cell}

theorem MemAgree.after_write (h : MemAgree D m m') (a : Nat) (v : Byte) :
    MemAgree D (Memory.write m a v) (Memory.write m' a v) where
  wf := wf_write m a v h.wf
  wf' := wf_write m' a v h.wf'
  bytes := fun b hb => by rw [read_write h.wf, read_write h.wf', h.bytes b hb]

theorem MemAgree.after_writeBytes (h : MemAgree D m m') (a : Nat) (vs : List Byte) :
    MemAgree D (Memory.writeBytes m a vs) (Memory.writeBytes m' a vs) := by
  induction vs generalizing m m' a with
  | nil => exact h
  | cons v vs ih => exact ih (h.after_write a v) (a + 1)

/-- A field written where the memories agree: each bit keeps the other bits of its byte, which are the same. -/
theorem MemAgree.after_writeField (h : MemAgree D m m') {base c : Nat} (v : Word) :
    ∀ n, (∀ j, j < n → D (bitAddr base (c + j))) →
      MemAgree D (writeField m base c v n) (writeField m' base c v n)
  | 0, _ => h
  | n + 1, hD => by
    have ih := h.after_writeField v n fun j hj => hD j (by omega)
    rw [writeField, writeField, setBufBit, setBufBit, ih.bytes _ (hD n (by omega))]
    exact ih.after_write _ _

end

/-! ### States that differ only in memory -/

/-- Two states with the same registers, and the same bytes at these addresses. -/
structure Agree (D : Nat → Prop) (s s' : State) : Prop where
  others : s' = { s with mem := s'.mem }
  mem : MemAgree D s.mem s'.mem

/-- Two builds that end the same way in states that agree. -/
inductive PackAgree (D : Nat → Prop) : PackResult → PackResult → Prop
  | ok {t t' : State} (h : Agree D t t') : PackAgree D (.ok t) (.ok t')
  | failed {t t' : State} (e : BlockError) (h : Agree D t t') : PackAgree D (.failed e t) (.failed e t')

section
variable {D : Nat → Prop} {s s' t t' : State}

theorem Agree.wcur (h : Agree D s s') : s'.wcur = s.wcur := by rw [h.others]
theorem Agree.params (h : Agree D s s') : s'.params = s.params := by rw [h.others]

theorem Agree.boardAddr_eq (h : Agree D s s') (i : BoardPair) : boardAddr i s' = boardAddr i s := by
  rw [h.others]
  cases i <;> rfl

theorem Agree.after_failEncode (h : Agree D s s') (e : BlockError) : Agree D (failEncode e s) (failEncode e s') :=
  ⟨by rw [h.others]; rfl, h.mem⟩

/-- An append that fits, in both. -/
theorem Agree.after_append (h : Agree D s s') (hpb : ∀ a, a < 0x100 → D a) {n : Nat} (v : Word)
    (hfits : s.wcur.toNat + n ≤ 2048) :
    Agree D
      { s with mem := writeField s.mem pbBase s.wcur.toNat v n, wcur := BitVec.ofNat 12 (s.wcur.toNat + n) }
      { s' with mem := writeField s'.mem pbBase s.wcur.toNat v n, wcur := BitVec.ofNat 12 (s.wcur.toNat + n) } where
  others := by rw [h.others]
  mem := h.mem.after_writeField v n fun j hj => hpb _ (by unfold bitAddr pbBase; omega)

/-- The same items, built in both. -/
theorem Agree.after_packAll (hpb : ∀ a, a < 0x100 → D a) : ∀ (items : List PackItem) {s s' : State}, Agree D s s' →
    PackAgree D (packAll items s) (packAll items s')
  | [], _, _, h => .ok h
  | .field n v :: items, s, s', h => by
    rw [packAll, packAll, packItem, packItem]
    by_cases hfits : s.wcur.toNat + n ≤ 2048
    · rw [appendField_of_fits v hfits, appendField_of_fits (s := s') v (h.wcur ▸ hfits), h.wcur]
      exact Agree.after_packAll hpb items (h.after_append hpb v hfits)
    · rw [appendField_of_full v (Nat.not_le.mp hfits),
        appendField_of_full (s := s') v (h.wcur ▸ Nat.not_le.mp hfits), h.wcur]
      exact .failed _ h
  | .require ok e :: items, s, s', h => by
    rw [packAll, packAll, packItem, packItem]
    cases ok with
    | true => exact Agree.after_packAll hpb items h
    | false => exact .failed e h

/-- The bytes of a frame that fits come from `PB` and the registers. -/
theorem Agree.frameBytes_eq (h : Agree D s s') (hpb : ∀ a, a < 0x100 → D a) (hroom : ceil8 s.wcur.toNat ≤ 256)
    (dest : Byte) : frameBytes dest s' = frameBytes dest s := by
  have hbyte (k : Nat) (hk : k < ceil8 s.wcur.toNat) :
      payloadByte s' s.wcur.toNat k = payloadByte s s.wcur.toNat k := by
    have hread : pbByte s' k = pbByte s k := h.mem.bytes _ (hpb _ (by unfold pbBase; omega))
    rw [payloadByte, payloadByte, hread]
  have hbody : frameBody dest s' = frameBody dest s := by
    simp only [frameBody, h.wcur, h.params, List.map_congr_left fun k hk => hbyte k (List.mem_range.mp hk)]
  rw [frameBytes, frameBytes, hbody, h.params]

theorem Agree.after_frameTo (h : Agree D s s') (hpb : ∀ a, a < 0x100 → D a) (dest : Byte) :
    Agree D (frameTo dest s) (frameTo dest s') := by
  rcases frameTo_cases dest s with ⟨hempty, h'⟩ | ⟨h₈, hlong, h'⟩ | ⟨h₈, hfits, h'⟩ <;> rw [h']
  · rw [frameTo_empty (s := s') (h.wcur ▸ hempty), h.wcur]
    exact h.after_failEncode _
  · rw [frameTo_long (s := s') (h.wcur ▸ h₈) (h.wcur ▸ h.params ▸ hlong), h.wcur, h.params]
    exact h.after_failEncode _
  · rw [frameTo_built (s := s') (h.wcur ▸ h₈) (h.wcur ▸ h.params ▸ hfits)]
    refine ⟨?_, ?_⟩
    · rw [framed, framed, h.others]
    · rw [framed_mem, framed_mem, h.frameBytes_eq hpb (by omega) dest]
      exact h.mem.after_writeBytes _ _

/-- SCFG with the same items to build answers the same. -/
theorem Agree.after_execScfg (h : Agree D s s') (hpb : ∀ a, a < 0x100 → D a) {i : BoardPair}
    (hitems : pairItems s' i = pairItems s i) (ht : execScfg i s = .next t) (ht' : execScfg i s' = .next t') :
    Agree D t t' := by
  have hstart : Agree D { s with wcur := 0 } { s' with wcur := 0 } := ⟨by rw [h.others], h.mem⟩
  have hbuilds := hstart.after_packAll hpb (pairItems s i)
  unfold execScfg at ht ht'
  rw [hitems] at ht'
  generalize packAll (pairItems s i) { s with wcur := 0 } = built at ht hbuilds
  generalize packAll (pairItems s i) { s' with wcur := 0 } = built' at ht' hbuilds
  cases hbuilds with
  | ok hagree =>
    cases ht
    cases ht'
    rw [hagree.boardAddr_eq]
    exact hagree.after_frameTo hpb _
  | failed e hagree =>
    cases ht
    cases ht'
    exact hagree.after_failEncode e

end

/-! ### The bytes that a build reads -/

section
variable {s s' : State} {p d : Nat}

theorem isUltrasonic_eq_false_iff : isUltrasonic s p = false ↔ ¬ cfg s p 0 = 33 := by simp [isUltrasonic_eq]

/-- What a configured device sends is in its block. -/
theorem sentField_configured (h : isUltrasonic s p = false) (d k : Nat) :
    sentField s p d k = (cfgDevByte s p d k).toNat :=
  if_neg (isUltrasonic_eq_false_iff.mp h)

/-- The items of a configured device, by the bytes of its block. -/
theorem deviceItems_configured (h : isUltrasonic s p = false) (d : Nat) : deviceItems s p d =
    byteField s.params.wAddr (cfgDevByte s p d 0 >>> 1) :: byteField s.params.wSet (cfgDevByte s p d 1) ::
      if sameTransfer s p d = true then
        .require (decide ((cfgDevByte s p d 2).toNat ≤ maxCount s.params.wWc) &&
            decide ((cfgDevByte s p d 3).toNat ≤ maxCount s.params.wRc)) (.configError p d) ::
          byteField s.params.wWc (cfgDevByte s p d 2) :: byteField s.params.wRc (cfgDevByte s p d 3) ::
            (List.range (min (cfgDevByte s p d 2).toNat 16)).map fun j =>
              byteField s.params.wOut (cfgDevByte s p d (4 + j))
      else [] := by
  have hdevice : effectiveDevice s p d = configuredDevice s p d := by simp [effectiveDevice, h]
  have hsame : sameTransfer s p d = (configuredDevice s p d).set.getLsbD s.params.sameBit := by
    have hnarrow (hbit : (cfgDevByte s p d 1).getLsbD s.params.sameBit = true) : s.params.sameBit < 32 :=
      (BitVec.lt_of_getLsbD hbit).trans (by decide)
    rw [sameTransfer, sentField_configured h, BitVec.testBit_toNat]
    simpa [configuredDevice] using hnarrow
  have hout : (configuredDevice s p d).out.take (cfgDevByte s p d 2).toNat =
      (List.range (min (cfgDevByte s p d 2).toNat 16)).map fun j => cfgDevByte s p d (4 + j) := by
    rw [configuredDevice, ← List.map_take, List.take_range]
  rw [hsame]
  have hwc : (configuredDevice s p d).wc = cfgDevByte s p d 2 := rfl
  simp only [deviceItems, hdevice, hwc, hout, List.map_map]
  rfl

/-- A port's effective type and kind, by its type byte. -/
theorem isUltrasonic_congr (htype : cfgType s' p = cfgType s p) : isUltrasonic s' p = isUltrasonic s p := by
  rw [isUltrasonic, isUltrasonic, htype]

theorem effectiveType_congr (hparams : s'.params = s.params) (htype : cfgType s' p = cfgType s p) :
    effectiveType s' p = effectiveType s p := by
  rw [effectiveType, effectiveType, isUltrasonic_congr htype, hparams, htype]

/-- What a device's items depend on: of a configured device its address and settings, and if these say same-transfer its
counts and the output bytes that its write count sends. -/
theorem deviceItems_congr (hparams : s'.params = s.params) (htype : cfgType s' p = cfgType s p)
    (hfixed : isUltrasonic s p = false → ∀ off, off < 2 → cfgDevByte s' p d off = cfgDevByte s p d off)
    (hsame : isUltrasonic s p = false → sameTransfer s p d = true →
      ∀ off, 2 ≤ off → off < 4 + min (cfgDevByte s p d 2).toNat 16 → cfgDevByte s' p d off = cfgDevByte s p d off) :
    deviceItems s' p d = deviceItems s p d := by
  cases hus : isUltrasonic s p with
  | true =>
    have hdevice : effectiveDevice s' p d = effectiveDevice s p d := by
      simp [effectiveDevice, isUltrasonic_congr htype, hus, hparams]
    rw [deviceItems, deviceItems, hdevice, hparams]
  | false =>
    have hus' := (isUltrasonic_congr htype).trans hus
    have hbit : sameTransfer s' p d = sameTransfer s p d := by
      rw [sameTransfer, sameTransfer, sentField_configured hus, sentField_configured hus', hfixed hus 1 (by omega), hparams]
    rw [deviceItems_configured hus, deviceItems_configured hus', hfixed hus 0 (by omega), hfixed hus 1 (by omega), hbit,
      hparams]
    by_cases h : sameTransfer s p d = true
    · have hbytes := hsame hus h
      rw [if_pos h, if_pos h, hbytes 2 (by omega) (by omega), hbytes 3 (by omega) (by omega)]
      congr 5
      refine List.map_congr_left fun j hj => ?_
      have := List.mem_range.mp hj
      rw [hbytes (4 + j) (by omega) (by omega)]
    · rw [if_neg h, if_neg h]

/-- What a port's items depend on: its type byte, and if that is one of the I2C family its speed, its count and its
devices. -/
theorem portItems_congr (hparams : s'.params = s.params) (htype : cfgType s' p = cfgType s p)
    (hspeed : effectiveType s p ∈ s.params.i2cFamily → cfgSpeed s' p = cfgSpeed s p)
    (hcount : effectiveType s p ∈ s.params.i2cFamily → effectiveCount s' p = effectiveCount s p)
    (hdevices : effectiveType s p ∈ s.params.i2cFamily → ∀ d, d < effectiveCount s p →
      deviceItems s' p d = deviceItems s p d) : portItems s' p = portItems s p := by
  unfold portItems
  rw [effectiveType_congr hparams htype, hparams]
  by_cases h : effectiveType s p ∈ s.params.i2cFamily
  · rw [if_pos h, if_pos h, hspeed h, hcount h, List.flatMap_congr fun d hd => hdevices h d (List.mem_range.mp hd)]
  · rw [if_neg h, if_neg h]

theorem pairItems_congr {i : BoardPair} (hparams : s'.params = s.params)
    (htype : ∀ p, p = portOf i 0 ∨ p = portOf i 1 → cfgType s' p = cfgType s p)
    (hports : ∀ p, p = portOf i 0 ∨ p = portOf i 1 → portItems s' p = portItems s p) :
    pairItems s' i = pairItems s i := by
  rw [pairItems, pairItems, hports _ (.inl rfl), hports _ (.inr rfl), effectiveType_congr hparams (htype _ (.inl rfl)),
    effectiveType_congr hparams (htype _ (.inr rfl))]

end

/-! ### The clamped count -/

/-- Storing a port's clamped device count leaves its clamped count. -/
theorem clamp_clamped (c : Byte) : clamp (BitVec.ofNat 8 (min (max c.toNat 1) 8)).toNat 1 maxDevices =
    clamp c.toNat 1 maxDevices := by
  unfold clamp maxDevices
  rw [BitVec.toNat_ofNat, Nat.mod_eq_of_lt (by omega)]
  omega

section
variable {s s' : State} {p : Nat}

/-- The states agree on every configuration byte but the device count of port `p`. -/
def AgreeButCount (p : Nat) (s s' : State) : Prop := Agree (fun a => a ≠ 0x802 + 0x100 * p) s s'

theorem cfgByte_agreeButCount (h : AgreeButCount p s s') {q off : Nat} (hoff : off < 0x100) (hcount : off ≠ 2) :
    cfgByte s' q off = cfgByte s q off :=
  h.mem.bytes _ (by unfold cfgBase; omega)

/-- With the clamped count stored, every port's items stay. -/
theorem portItems_agreeButCount (h : AgreeButCount p s s')
    (hclamped : Memory.read s'.mem (0x802 + 0x100 * p) =
      BitVec.ofNat 8 (min (max (Memory.read s.mem (0x802 + 0x100 * p)).toNat 1) 8)) (q : Nat) :
    portItems s' q = portItems s q := by
  have htype : cfgType s' q = cfgType s q := cfgByte_agreeButCount h (by omega) (by omega)
  have hcount : effectiveCount s' q = effectiveCount s q := by
    rw [effectiveCount, effectiveCount, isUltrasonic_congr htype]
    congr 1
    by_cases hq : q = p
    · have haddr : cfgBase + 0x100 * p + 0x02 = 0x802 + 0x100 * p := by unfold cfgBase; omega
      rw [hq, cfgDevCount, cfgDevCount, cfgByte, cfgByte, haddr, hclamped, clamp_clamped]
    · have hsame : cfgDevCount s' q = cfgDevCount s q := h.mem.bytes _ (by unfold cfgBase; omega)
      rw [hsame]
  refine portItems_congr h.params htype (fun _ => cfgByte_agreeButCount h (by omega) (by omega)) (fun _ => hcount)
    fun _ d hd => ?_
  have hd₈ : d < 8 := by
    rw [effectiveCount_eq] at hd
    exact hd.trans_le (sentCount_le s q).2
  exact deviceItems_congr h.params htype (fun _ off hoff => cfgByte_agreeButCount h (by omega) (by omega))
    (fun _ _ off _ hoff => cfgByte_agreeButCount h (by omega) (by omega))

end

/-! ### The bytes the host must have written -/

section
variable {s s' : State} {p : Nat}

/-- With the bytes that SCFG is said to read for a port equal, its items stay. -/
theorem portItems_of_configRead (hparams : s'.params = s.params)
    (h : ∀ a ∈ configRead s p, Memory.read s'.mem a = Memory.read s.mem a) :
    cfgType s' p = cfgType s p ∧ portItems s' p = portItems s p := by
  have htype : cfgType s' p = cfgType s p := h _ (by simp [configRead])
  refine ⟨htype, ?_⟩
  by_cases hfamily : sentType s p ∈ s.params.i2cFamily
  · have hspeed : cfgSpeed s' p = cfgSpeed s p := by
      refine h _ ?_
      by_cases hus : cfg s p 0 = 33 <;> simp [configRead, hfamily, hus]
    have hdevice (hus : ¬ cfg s p 0 = 33) {d off : Nat} (hd : d < sentCount s p)
        (hoff : off < 2 ∨ sameTransfer s p d = true ∧ off < 4 + min (sentField s p d 2) 16) :
        cfgDevByte s' p d off = cfgDevByte s p d off := by
      refine h _ ?_
      simp only [configRead, if_pos hfamily, if_neg hus, List.mem_cons, List.mem_flatMap, List.mem_range]
      refine .inr (.inr (.inr ⟨d, hd, ?_⟩))
      unfold cfgBase
      by_cases hfixed : off < 2
      · omega
      · obtain ⟨hsame, hout⟩ := hoff.resolve_left hfixed
        simp only [if_pos hsame, List.mem_cons, List.mem_map, List.mem_range]
        by_cases hcounts : off < 4
        · omega
        · exact .inr (.inr (.inr (.inr ⟨off - 4, by omega, by omega⟩)))
    have hcount : effectiveCount s' p = effectiveCount s p := by
      rw [effectiveCount, effectiveCount, isUltrasonic_congr htype]
      cases hus : isUltrasonic s p with
      | true => rfl
      | false =>
        have hsame : cfgDevCount s' p = cfgDevCount s p :=
          h _ (by simp [configRead, hfamily, isUltrasonic_eq_false_iff.mp hus])
        rw [hsame]
    refine portItems_congr hparams htype (fun _ => hspeed) (fun _ => hcount) fun _ d hd => ?_
    rw [effectiveCount_eq] at hd
    refine deviceItems_congr hparams htype (fun hus off hoff => hdevice (isUltrasonic_eq_false_iff.mp hus) hd (.inl hoff))
      fun hus hsame off _ hoff => hdevice (isUltrasonic_eq_false_iff.mp hus) hd (.inr ⟨hsame, ?_⟩)
    rwa [sentField_configured hus]
  · rw [← effectiveType_eq] at hfamily
    exact portItems_congr hparams htype (fun hf => absurd hf hfamily) (fun hf => absurd hf hfamily)
      (fun hf => absurd hf hfamily)

end

/-! ### The statements -/

/-- Settles O40: the items of the build are the same, so SCFG's answers agree at every byte but the count's. -/
theorem scfgClampsTheDeviceCount : Obligations.ScfgClampsTheDeviceCount := by
  intro s i p t t' hwf hp addr clamped s' ht ht'
  have hagree : AgreeButCount p s s' :=
    ⟨rfl, hwf, wf_write _ _ _ hwf, fun a ha => read_write_other clamped ha s.mem⟩
  have hports := portItems_agreeButCount hagree (read_write_same addr clamped s.mem hwf)
  have hitems : pairItems s' i = pairItems s i :=
    pairItems_congr rfl (fun q _ => cfgByte_agreeButCount hagree (by omega) (by omega)) (fun q _ => hports q)
  have hanswer : Agree (fun a => a ≠ addr) t t' := Agree.after_execScfg hagree (fun a ha => by omega) hitems ht ht'
  exact ⟨hanswer.others, hanswer.mem.bytes⟩

/-- Settles O41: the items of the build are the same, so SCFG's answers agree in every register, `PB` and `TXF`. -/
theorem scfgReadsOnlyTheRequiredConfiguration : Obligations.ScfgReadsOnlyTheRequiredConfiguration := by
  intro s i mem' t t' k hwf hwf' hread hbuffers ht ht'
  have hagree : Agree (fun a => a ≤ 0xFF ∨ 0x200 ≤ a ∧ a ≤ 0x2FF) s { s with mem := mem' } :=
    ⟨rfl, hwf, hwf', hbuffers⟩
  have hport (p : Nat) (hp : p = portOf i 0 ∨ p = portOf i 1) :
      cfgType { s with mem := mem' } p = cfgType s p ∧ portItems { s with mem := mem' } p = portItems s p := by
    refine portItems_of_configRead rfl fun a ha => hread a ?_
    rw [portOf_zero, portOf_one, pairIndex_eq] at hp
    rcases hp with rfl | rfl
    · exact List.mem_append_left _ ha
    · exact List.mem_append_right _ ha
  have hitems : pairItems { s with mem := mem' } i = pairItems s i :=
    pairItems_congr rfl (fun p hp => (hport p hp).1) (fun p hp => (hport p hp).2)
  have hanswer := hagree.after_execScfg (fun a ha => .inl (by omega)) hitems ht ht'
  exact ⟨hanswer.others, hanswer.mem.bytes⟩

end Sys2Proof.Machine
end

section
/-! The careful host's duties: which moves it is refused and which it has (60_exceptions.md R245,
70_reset_and_hazards.md R273 to R278). -/

namespace Sys2Proof.Machine

open Sys2Proof.Safety

/-! ### The duty of each move -/

/-- A write of a command word to `CMD`, as a move. -/
abbrev commandMove (w : Word) : HostMove := .access (.store32 0x700 w)

section
variable {x : Session} {w : Word} {i : Instr}

/-- A command's word breaks the duty that the command breaks. -/
theorem brokenDuty_commandMove (hd : decode w = .instr i) : brokenDuty (commandMove w) x = commandDuty i x := by
  simp [brokenDuty, hd]

theorem brokenDuty_illegal {why : Illegal} (hd : decode w = .illegal why) : brokenDuty (commandMove w) x = none := by
  simp [brokenDuty, hd]

theorem commandDuty_rstw : commandDuty .rstw x = none ↔ x.host.message = .none ∧ x.host.exchangeOpen = false := by
  simp [commandDuty]

theorem commandDuty_addb (n : Nat) : commandDuty (.addb n) x = none ↔ x.host.exchangeOpen = false := by
  simp [commandDuty]

theorem commandDuty_fenc (dest : Byte) : commandDuty (.fenc dest) x = none ↔ x.host.exchangeOpen = false := by
  simp [commandDuty]

theorem configurationWritten_iff (p : BoardPair) : configurationWritten p x = true ↔
    ∀ a ∈ configRead x.block (2 * pairNumber p) ++ configRead x.block (2 * pairNumber p + 1), a ∈ x.host.written := by
  simp only [configurationWritten, List.all_eq_true, List.contains_iff_mem]

theorem commandDuty_scfg (p : BoardPair) : commandDuty (.scfg p) x = none ↔
    x.host.exchangeOpen = false ∧ x.host.message = .none ∧
      ∀ a ∈ configRead x.block (2 * pairNumber p) ++ configRead x.block (2 * pairNumber p + 1), a ∈ x.host.written := by
  rw [← configurationWritten_iff]
  unfold commandDuty
  by_cases ho : x.host.exchangeOpen = true
  · simp [ho]
  · by_cases hm : x.host.message = .none
    · simp [ho, hm]
    · simp [ho, hm]

theorem commandDuty_fdec : commandDuty .fdec x = none ↔ x.host.replyAwaited = false ∧ replyLoaded x = true := by
  simp [commandDuty]

theorem brokenDuty_send : brokenDuty .send x = none ↔ x.host.replyAwaited = false ∧ x.block.txvalid = true := by
  unfold brokenDuty
  by_cases ha : x.host.replyAwaited = true <;> simp [ha]

theorem brokenDuty_receive (reply : Option (List Byte)) :
    brokenDuty (.receive reply) x = none ↔ x.host.replyAwaited = true := by
  simp [brokenDuty]

theorem brokenDuty_endExchange : brokenDuty .endExchange x = none ↔
    x.host.exchangeOpen = true ∧ x.host.replyAwaited = false := by
  simp [brokenDuty]

theorem brokenDuty_rely : brokenDuty .rely x = none ↔ x.host.statusRead = true := by
  simp [brokenDuty]

/-- An access that is no write to `CMD` breaks no duty. -/
theorem brokenDuty_access {e : HostEvent} (he : ∀ w, e ≠ .store32 0x700 w) : brokenDuty (.access e) x = none := by
  cases e with
  | store32 a w =>
    have ha : a ≠ 0x700 := fun ha => he w (by rw [ha])
    exact if_neg ha
  | _ => rfl

end

/-! ### The loaded reply -/

/-- The first bytes of a reply of this length are in `RXB` exactly when each one is. -/
theorem take_eq_rxBytes_iff {reply : List Byte} {s : State} {l : Nat} (hlen : reply.length = l) :
    reply.take (min l 256) = rxBytes s (min l 256) ↔ ∀ k, k < reply.length → k < 256 → reply.getD k 0 = rxbByte s k := by
  constructor
  · intro h k hk hk'
    have hlt : k < min l 256 := by omega
    have hget : (reply.take (min l 256)).getD k 0 = rxbByte s k := by rw [h, getD_rxBytes, if_pos hlt]
    rw [← hget]
    simp only [List.getD_eq_getElem?_getD, List.getElem?_take_of_lt hlt]
  · intro h
    refine List.ext_getElem (by simp [rxBytes, hlen]) fun k h₁ h₂ => ?_
    have hk : k < min l 256 := by simpa [rxBytes] using h₂
    rw [List.getElem_take, ← List.getD_eq_getElem _ 0, ← List.getD_eq_getElem _ 0, getD_rxBytes, if_pos hk]
    exact h k (by omega) (by omega)

/-- The reply is loaded when `RXLEN` and the bytes of `RXB` below it are written, and are the reply that was received. -/
theorem replyLoaded_iff (x : Session) : replyLoaded x = true ↔
    0x71C ∈ x.host.written ∧ (∀ k, k < x.block.rxlen.toNat → k < 256 → 0x400 + k ∈ x.host.written) ∧
      ∀ reply, x.host.received = some reply → reply.length = x.block.rxlen.toNat ∧
        ∀ k, k < reply.length → k < 256 → reply.getD k 0 = rxbByte x.block k := by
  have hbytes : (List.range (min x.block.rxlen.toNat 256)).all (fun k => x.host.written.contains (rxbBase + k)) = true ↔
      ∀ k, k < x.block.rxlen.toNat → k < 256 → 0x400 + k ∈ x.host.written := by
    simp only [List.all_eq_true, List.mem_range, List.contains_iff_mem, Nat.lt_min, and_imp]
  unfold replyLoaded
  simp only [Bool.and_eq_true, List.contains_iff_mem, and_assoc]
  refine and_congr_right fun _ => and_congr hbytes ?_
  cases x.host.received with
  | none => simp
  | some reply =>
    simp only [Bool.and_eq_true, decide_eq_true_eq, beq_iff_eq, Option.some.injEq, forall_eq']
    exact and_congr_right fun hlen => take_eq_rxBytes_iff hlen

/-! ### Refused moves and moves the host has -/

section
variable {x : Session}

/-- A move that breaks some duty is refused by that duty's name. -/
theorem refused_of_brokenDuty {m : HostMove} (h : brokenDuty m x ≠ none) :
    ∃ duty, sessionStep m x = .refused (.hostDuty duty) := by
  obtain ⟨duty, hduty⟩ := Option.ne_none_iff_exists'.mp h
  exact ⟨duty, sessionStep_of_brokenDuty hduty⟩

theorem refused_of_commandDuty {w : Word} {i : Instr} (hd : decode w = .instr i) (h : commandDuty i x ≠ none) :
    ∃ duty, sessionStep (commandMove w) x = .refused (.hostDuty duty) :=
  refused_of_brokenDuty (by rwa [brokenDuty_commandMove hd])

/-- RSTW and SCFG are refused while a message or an exchange is open. -/
theorem start_refused {w : Word} (hopen : x.host.message ≠ .none ∨ x.host.exchangeOpen = true)
    (hd : decode w = .instr .rstw ∨ ∃ p, decode w = .instr (.scfg p)) :
    ∃ duty, sessionStep (commandMove w) x = .refused (.hostDuty duty) := by
  rcases hd with hd | ⟨p, hd⟩
  · refine refused_of_commandDuty hd fun h => ?_
    obtain ⟨hm, ho⟩ := commandDuty_rstw.mp h
    simp [hm, ho] at hopen
  · refine refused_of_commandDuty hd fun h => ?_
    obtain ⟨ho, hm, -⟩ := (commandDuty_scfg p).mp h
    simp [hm, ho] at hopen

/-- An accepted access that breaks no duty gives a next session. -/
theorem has_access {e : HostEvent} (hduty : brokenDuty (.access e) x = none) (he : Accepted e) :
    ∃ y, sessionStep (.access e) x = .next y := by
  obtain ⟨t, ht⟩ := hostEvent_of_accepted he (State.begin { x.block with host := [e] } [])
  exact ⟨_, sessionStep_access hduty ((step_event rfl).trans ht)⟩

theorem accepted_cmd (w : Word) : Accepted (.store32 0x700 w) := by
  exact ⟨by decide, by decide, by decide⟩

theorem has_command {w : Word} {i : Instr} (hd : decode w = .instr i) (h : commandDuty i x = none) :
    ∃ y, sessionStep (commandMove w) x = .next y :=
  has_access (by rwa [brokenDuty_commandMove hd]) (accepted_cmd w)

end

/-! ### The statements on duties -/

/-- Settles O44, by the duty of each move. -/
theorem carefulHostBreaksNoDuty : Obligations.CarefulHostBreaksNoDuty := by
  intro x refused command starts encodes
  refine ⟨fun w => start_refused, fun w n ho hd => ?_, fun htx => ?_, fun w ho hd => ?_, fun ha => ⟨?_, ?_⟩,
    fun ha reply => ?_, fun w hd hbad => ?_, fun hs => ?_, fun w i a hd ha hw => ?_⟩
  · exact refused_of_commandDuty hd fun h => by simp [(commandDuty_addb n).mp h] at ho
  · exact refused_of_brokenDuty fun h => by simp [(brokenDuty_send.mp h).2] at htx
  · rcases hd with ⟨dest, hd⟩ | hd
    · exact refused_of_commandDuty hd fun h => by simp [(commandDuty_fenc dest).mp h] at ho
    · exact start_refused (.inr ho) (.inr hd)
  · exact refused_of_brokenDuty fun h => by simp [(brokenDuty_send.mp h).1] at ha
  · exact refused_of_brokenDuty fun h => by simp [(brokenDuty_endExchange.mp h).2] at ha
  · exact refused_of_brokenDuty fun h => by simp [(brokenDuty_receive reply).mp h] at ha
  · refine refused_of_commandDuty hd fun h => ?_
    obtain ⟨hawaited, hloaded⟩ := commandDuty_fdec.mp h
    obtain ⟨hlen, hbytes, hreply⟩ := (replyLoaded_iff x).mp hloaded
    rcases hbad with hbad | hbad | ⟨k, hk, hk', hbad⟩ | ⟨reply, hr, hbad | ⟨k, hk, hk', hbad⟩⟩
    · simp [hawaited] at hbad
    · exact hbad hlen
    · exact hbad (hbytes k hk hk')
    · exact hbad (hreply reply hr).1
    · exact hbad ((hreply reply hr).2 k hk hk')
  · exact refused_of_brokenDuty fun h => by simp [brokenDuty_rely.mp h] at hs
  · refine refused_of_commandDuty hd fun h => ?_
    obtain ⟨-, -, hwritten⟩ := (commandDuty_scfg i).mp h
    exact hw (hwritten a ha)

/-- Settles O45, by the duty of each move. -/
theorem carefulHostMay : Obligations.CarefulHostMay := by
  intro x has command
  refine ⟨fun e he hne => has_access (brokenDuty_access hne) he, fun w hd => ?_, fun w ho hd => ?_,
    fun w i ho hm hd hw => has_command hd ((commandDuty_scfg i).mpr ⟨ho, hm, hw⟩),
    fun w ha hd hlen hbytes hreply =>
      has_command hd (commandDuty_fdec.mpr ⟨ha, (replyLoaded_iff x).mpr ⟨hlen, hbytes, hreply⟩⟩),
    fun ha htx => ?_, fun ha reply => ?_, fun ho ha => ?_, fun hs => ?_⟩
  · rcases hd with hd | hd | hd | ⟨n, src, hd⟩ | ⟨why, hd⟩
    · exact has_command hd rfl
    · exact has_command hd rfl
    · exact has_command hd rfl
    · exact has_command hd rfl
    · exact has_access (brokenDuty_illegal hd) (accepted_cmd w)
  · rcases hd with ⟨n, hd⟩ | ⟨dest, hd⟩ | ⟨hm, hd⟩
    · exact has_command hd ((commandDuty_addb n).mpr ho)
    · exact has_command hd ((commandDuty_fenc dest).mpr ho)
    · exact has_command hd (commandDuty_rstw.mpr ⟨hm, ho⟩)
  · exact ⟨_, by rw [sessionStep, brokenDuty_send.mpr ⟨ha, htx⟩]⟩
  · exact ⟨_, by rw [sessionStep, (brokenDuty_receive reply).mpr ha]⟩
  · exact ⟨_, by rw [sessionStep, brokenDuty_endExchange.mpr ⟨ho, ha⟩]⟩
  · exact ⟨_, by rw [sessionStep, brokenDuty_rely.mpr hs]⟩

end Sys2Proof.Machine
end

section
/-! Sessions of the careful host: runs of the block, the legal session states, the frame held through an exchange, the
decoded reply, and one message at a time (70_reset_and_hazards.md R275 to R277). -/

namespace Sys2Proof.Machine

open Sys2Proof.Config Sys2Proof.Safety

/-! ### Sessions, move by move -/

section
variable {m : HostMove} {ms : List HostMove} {x y z : Session}

theorem sessionRun_cons_of_step (h : sessionStep m x = .next z) : sessionRun (m :: ms) x = sessionRun ms z := by
  rw [sessionRun, h]

/-- What every move of a session keeps holds after the session. -/
theorem sessionRun_keeps {P : Session → Prop} {ms : List HostMove} {x y : Session}
    (hkeeps : ∀ m ∈ ms, ∀ u v, P u → sessionStep m u = .next v → P v) (hx : P x) (h : sessionRun ms x = .next y) :
    P y := by
  induction ms generalizing x with
  | nil => cases h; exact hx
  | cons m ms ih =>
    obtain ⟨z, hz, hrest⟩ := sessionRun_cons h
    exact ih (fun m' hm' => hkeeps m' (List.mem_cons_of_mem m hm')) (hkeeps m List.mem_cons_self x z hx hz) hrest

end

/-- An access that the careful host has is the block's step. -/
theorem sessionStep_access_next {e : HostEvent} {x y : Session} (h : sessionStep (.access e) x = .next y) :
    brokenDuty (.access e) x = none ∧ step { x.block with host := [e] } = .next y.block ∧
      y.host = x.host.accessed e x.block y.block := by
  obtain ⟨hb, ⟨e', t, hm, ht, rfl⟩ | ⟨hm, -⟩ | ⟨reply, hm, -⟩ | ⟨hm, -⟩ | ⟨hm, -⟩⟩ := sessionStep_cases h <;> cases hm
  exact ⟨hb, ht, rfl⟩

/-- A send that the careful host has opens the exchange. -/
theorem sessionStep_send_next {x y : Session} (h : sessionStep .send x = .next y) :
    brokenDuty .send x = none ∧ y = { x with host := { x.host with exchangeOpen := true, replyAwaited := true } } := by
  obtain ⟨hb, ⟨e, t, hm, -⟩ | ⟨-, hy⟩ | ⟨reply, hm, -⟩ | ⟨hm, -⟩ | ⟨hm, -⟩⟩ := sessionStep_cases h
  case inr.inl => exact ⟨hb, hy⟩
  all_goals cases hm

/-! ### A session as a run of the block -/

/-- A step leaves the events after its own. -/
theorem step_pending {s t : State} {e : HostEvent} (es : List HostEvent) (h : step (s.pending [e]) = .next t) :
    step (s.pending (e :: es)) = .next (t.pending es) := by
  have hfirst : hostEvent e ((s.pending [e]).begin []) = .next t := (step_event rfl).symm.trans h
  calc step (s.pending (e :: es)) = hostEvent e (((s.pending [e]).begin []).pending es) := step_event rfl
    _ = pendingAfter es (hostEvent e ((s.pending [e]).begin [])) := hostEvent_pending e _ es
    _ = .next (t.pending es) := by rw [hfirst]; rfl

/-- The block after the accesses of a session, with these events still to come. -/
theorem after_accesses : ∀ {ms : List HostMove} {x y : Session}, sessionRun ms x = .next y → ∀ rest : List HostEvent,
    after (accesses ms).length (x.block.pending (accesses ms ++ rest)) = .next (y.block.pending rest)
  | [], x, y, h, rest => by
    cases h
    exact after_zero _
  | m :: ms, x, y, h, rest => by
    obtain ⟨z, hz, hrest⟩ := sessionRun_cons h
    have ih := after_accesses hrest rest
    obtain ⟨-, ⟨e, t, rfl, ht, rfl⟩ | ⟨rfl, rfl⟩ | ⟨reply, rfl, rfl⟩ | ⟨rfl, rfl⟩ | ⟨rfl, rfl⟩⟩ := sessionStep_cases hz
    · exact (after_succ (step_pending (s := x.block) (accesses ms ++ rest) ht)).trans ih
    · exact ih
    · exact ih
    · exact ih
    · exact ih

/-! ### One access -/

/-- Only RSTW, ADDB, FENC and SCFG change the message. -/
theorem ran_eq_of_other {i : Instr} {err : BitVec 4} {p : MessagePhase}
    (h : i ≠ .rstw ∧ (∀ n, i ≠ .addb n) ∧ (∀ dest, i ≠ .fenc dest) ∧ ∀ k, i ≠ .scfg k) : p.ran i err = p := by
  obtain ⟨hrstw, haddb, hfenc, hscfg⟩ := h
  cases i with
  | rstw => exact absurd rfl hrstw
  | addb n => exact absurd rfl (haddb n)
  | fenc dest => exact absurd rfl (hfenc dest)
  | scfg k => exact absurd rfl (hscfg k)
  | nop | rstr | rdb _ _ | fdec | clrs => rfl

/-- A message that a command leaves encoded was encoded before, or the command is an FENC or SCFG that succeeds. -/
theorem ran_eq_encoded {i : Instr} {err : BitVec 4} {p : MessagePhase} (h : p.ran i err = .encoded) :
    p = .encoded ∧ i.buildsFrame = false ∨ i.buildsFrame = true ∧ err = 0 := by
  cases i with
  | fenc dest =>
    refine .inr ⟨rfl, by_contra fun herr => ?_⟩
    simp only [MessagePhase.ran, if_neg herr] at h
    split at h <;> cases h
  | scfg k =>
    refine .inr ⟨rfl, by_contra fun herr => ?_⟩
    simp only [MessagePhase.ran, if_neg herr] at h
    cases h
  | addb n =>
    simp only [MessagePhase.ran] at h
    split at h
    · cases h
    · exact .inl ⟨h, rfl⟩
  | rstw => cases h
  | nop | rstr | rdb _ _ | fdec | clrs => exact .inl ⟨h, rfl⟩

section
variable {e : HostEvent} {x : Session} {t : State}

/-- The access runs an FENC or SCFG. -/
def RunsBuild (e : HostEvent) (s : State) : Prop :=
  s.err = 0 ∧ ∃ w, e = .store32 0x700 w ∧ ((∃ dest, decode w = .instr (.fenc dest)) ∨ ∃ i, decode w = .instr (.scfg i))

/-- While an exchange is open no access of the careful host runs an FENC or SCFG. -/
theorem not_runsBuild_of_exchange (ho : x.host.exchangeOpen = true) (hb : brokenDuty (.access e) x = none) :
    ¬ RunsBuild e x.block := by
  rintro ⟨-, w, rfl, ⟨dest, hd⟩ | ⟨i, hd⟩⟩
  · obtain ⟨-, -, hfenc, -⟩ := brokenDuty_command ho hd hb
    exact hfenc dest rfl
  · obtain ⟨-, -, -, hscfg⟩ := brokenDuty_command ho hd hb
    exact hscfg i rfl

/-- An access that builds no frame and is no reset keeps `TXVALID`. -/
theorem access_txvalid (ht : step { x.block with host := [e] } = .next t) (he : e ≠ .resetInput)
    (hb : ¬ RunsBuild e x.block) : t.txvalid = x.block.txvalid := by
  obtain ⟨-, -, hkept⟩ := txvalidRule _ t e [] rfl ht
  exact hkept hb he

/-- An access that builds no frame and is no reset keeps the frame in `TXF`. -/
theorem access_txfKept (ht : step { x.block with host := [e] } = .next t) (he : e ≠ .resetInput)
    (hb : ¬ RunsBuild e x.block) : t.txlen = x.block.txlen ∧ ∀ k, k < 256 → txfByte t k = txfByte x.block k :=
  encodedFrameIsRetained (x.block.pending [e]) t e [] rfl ht he fun ⟨herr, _, hw⟩ => hb ⟨herr, hw⟩

/-- An access that leaves the message encoded leaves `TXVALID` set, if it was set while the message was encoded. -/
theorem access_encoded (ht : step { x.block with host := [e] } = .next t) (he : e ≠ .resetInput)
    (hx : x.host.message = .encoded → x.block.txvalid = true)
    (hy : (x.host.accessed e x.block t).message = .encoded) : t.txvalid = true := by
  obtain ⟨hbuilds, -, -⟩ := txvalidRule _ t e [] rfl ht
  by_cases hb : RunsBuild e x.block
  · rw [hbuilds hb, decide_eq_true_eq]
    obtain ⟨herr, w, rfl, hd⟩ := hb
    obtain ⟨i, hi⟩ : ∃ i, decode w = .instr i := hd.elim (fun ⟨_, h⟩ => ⟨_, h⟩) (fun ⟨_, h⟩ => ⟨_, h⟩)
    rw [accessed_command t x.host hi herr] at hy
    rcases ran_eq_encoded hy with ⟨-, hnot⟩ | ⟨-, hzero⟩
    · rw [(buildsFrame_iff_of_decode hi).mpr hd] at hnot
      cases hnot
    · exact hzero
  · rw [access_txvalid ht he hb]
    rcases accessed_message x.block t x.host he with hsame | ⟨w, i, rfl, hd, herr, hran⟩
    · exact hx (hsame.symm.trans hy)
    · rcases ran_eq_encoded (hran.symm.trans hy) with ⟨hp, -⟩ | ⟨hbuild, -⟩
      · exact hx hp
      · exact absurd ⟨herr, w, rfl, (buildsFrame_iff_of_decode hd).mp hbuild⟩ hb

end

/-! ### The legal session states -/

/-- The block is legal, `TXVALID` is 1 for the whole of an exchange and while the open message is encoded, and a reply
is awaited only within an exchange. -/
structure SessionLegal (x : Session) : Prop where
  block : Inv x.block
  exchange : x.host.exchangeOpen = true → x.block.txvalid = true
  encoded : x.host.message = .encoded → x.block.txvalid = true
  awaited : x.host.replyAwaited = true → x.host.exchangeOpen = true

theorem SessionLegal.access {x : Session} {e : HostEvent} {t : State} (h : SessionLegal x)
    (hb : brokenDuty (.access e) x = none) (ht : step { x.block with host := [e] } = .next t) :
    SessionLegal { block := t, host := x.host.accessed e x.block t } := by
  have hinv : Inv t := stepKeepsStatesLegal _ t (h.block.of_free_registers _ _ _ _ _ _ _) ht
  by_cases he : e = .resetInput
  · subst he
    exact ⟨hinv, nofun, nofun, nofun⟩
  · obtain ⟨hopen, hawaited⟩ := accessed_exchange x.block t x.host he
    refine ⟨hinv, fun ho => ?_, access_encoded ht he h.encoded, fun ha => ?_⟩
    · have ho' := hopen.symm.trans ho
      rw [access_txvalid ht he (not_runsBuild_of_exchange ho' hb)]
      exact h.exchange ho'
    · exact hopen.trans (h.awaited (hawaited.symm.trans ha))

theorem exchanged_ne_encoded (p : MessagePhase) : p.exchanged ≠ .encoded := by
  cases p <;> simp [MessagePhase.exchanged]

theorem SessionLegal.step {m : HostMove} {x y : Session} (h : SessionLegal x) (hy : sessionStep m x = .next y) :
    SessionLegal y := by
  obtain ⟨hb, ⟨e, t, rfl, ht, rfl⟩ | ⟨rfl, rfl⟩ | ⟨reply, rfl, rfl⟩ | ⟨rfl, rfl⟩ | ⟨rfl, rfl⟩⟩ := sessionStep_cases hy
  · exact h.access hb ht
  · exact ⟨h.block, fun _ => (brokenDuty_send.mp hb).2, h.encoded, fun _ => rfl⟩
  · exact ⟨h.block, h.exchange, h.encoded, nofun⟩
  · have hawaited := (brokenDuty_endExchange.mp hb).2
    exact ⟨h.block, nofun, fun hp => absurd hp (exchanged_ne_encoded _), fun ha => by simp [hawaited] at ha⟩
  · exact h

theorem sessionLegal_reset : SessionLegal Session.reset := ⟨resetStateIsLegal, nofun, nofun, nofun⟩

/-! ### The frame through an exchange -/

/-- The frame, `TXVALID` and the message of a session are those of `x`, and the exchange is open. -/
structure FrameHeld (x y : Session) : Prop where
  exchange : y.host.exchangeOpen = true
  message : y.host.message = x.host.message
  txlen : y.block.txlen = x.block.txlen
  txvalid : y.block.txvalid = x.block.txvalid
  bytes : ∀ k, k < 256 → txfByte y.block k = txfByte x.block k

theorem FrameHeld.refl {x : Session} (ho : x.host.exchangeOpen = true) : FrameHeld x x :=
  ⟨ho, rfl, rfl, rfl, fun _ _ => rfl⟩

theorem FrameHeld.trans {x y z : Session} (h : FrameHeld x y) (h' : FrameHeld y z) : FrameHeld x z :=
  ⟨h'.exchange, h'.message.trans h.message, h'.txlen.trans h.txlen, h'.txvalid.trans h.txvalid,
    fun k hk => (h'.bytes k hk).trans (h.bytes k hk)⟩

/-- A move within an exchange that neither ends it nor resets the block. -/
theorem frameHeld_step {m : HostMove} {x y : Session} (ho : x.host.exchangeOpen = true) (hend : m ≠ .endExchange)
    (hreset : m ≠ .access .resetInput) (h : sessionStep m x = .next y) : FrameHeld x y := by
  obtain ⟨hb, ⟨e, t, rfl, ht, rfl⟩ | ⟨rfl, rfl⟩ | ⟨reply, rfl, rfl⟩ | ⟨rfl, rfl⟩ | ⟨rfl, rfl⟩⟩ := sessionStep_cases h
  · have he : e ≠ .resetInput := fun he => hreset (by rw [he])
    have hbuild := not_runsBuild_of_exchange ho hb
    obtain ⟨hlen, hbytes⟩ := access_txfKept ht he hbuild
    refine ⟨(accessed_exchange x.block t x.host he).1.trans ho, ?_, hlen, access_txvalid ht he hbuild, hbytes⟩
    rcases accessed_message x.block t x.host he with hsame | ⟨w, i, rfl, hd, -, hran⟩
    · exact hsame
    · exact hran.trans (ran_eq_of_other (brokenDuty_command ho hd hb))
  · exact ⟨rfl, rfl, rfl, rfl, fun _ _ => rfl⟩
  · exact ⟨ho, rfl, rfl, rfl, fun _ _ => rfl⟩
  · exact absurd rfl hend
  · exact .refl ho

/-! ### The statements on runs and exchanges -/

/-- Settles O46, by induction on the session: no step reads the events after its own. -/
theorem carefulSessionIsARunOfTheBlock : Obligations.CarefulSessionIsARunOfTheBlock :=
  fun _ _ _ rest h => after_accesses h rest

/-- Settles O47: every move keeps the legal session states. -/
theorem carefulSessionKeepsStatesLegal : Obligations.CarefulSessionKeepsStatesLegal := by
  unfold Obligations.CarefulSessionKeepsStatesLegal
  intro legal
  have hlegal (x : Session) : legal x ↔ SessionLegal x :=
    ⟨fun ⟨hb, ho, he, ha⟩ => ⟨hb, ho, he, ha⟩, fun ⟨hb, ho, he, ha⟩ => ⟨hb, ho, he, ha⟩⟩
  refine ⟨(hlegal _).mpr sessionLegal_reset, fun ms x y hx h => (hlegal y).mpr ?_⟩
  exact sessionRun_keeps (fun _ _ _ _ hu hv => SessionLegal.step hu hv) ((hlegal x).mp hx) h

/-- Settles O48: every move within the exchange holds the frame, and a send needs `TXVALID` = 1, with which `TXF` holds a
whole frame. -/
theorem frameIsHeldThroughTheExchange : Obligations.FrameIsHeldThroughTheExchange := by
  refine ⟨fun ms x y ho hend hreset h => ?_, fun x y hinv h => ?_⟩
  · have hkeeps : ∀ m ∈ ms, ∀ u v, FrameHeld x u → sessionStep m u = .next v → FrameHeld x v :=
      fun m hm u v hu hv => hu.trans (frameHeld_step hu.exchange (ne_of_mem_of_not_mem hm hend)
        (ne_of_mem_of_not_mem hm hreset) hv)
    obtain ⟨hopen, hmessage, hlen, hvalid, hbytes⟩ := sessionRun_keeps hkeeps (.refl ho) h
    exact ⟨hopen, hmessage, hlen, hvalid, hbytes⟩
  · obtain ⟨hb, rfl⟩ := sessionStep_send_next h
    have hvalid := (brokenDuty_send.mp hb).2
    exact ⟨rfl, rfl, hinv.txFrame.resolve_left (hinv.txHeld hvalid)⟩

/-! ### The decoded reply -/

/-- An FDEC of the careful host runs on the block, with the reply loaded. -/
theorem fdec_of_sessionStep {x y : Session} {w : Word} (hd : decode w = .instr .fdec) (herr : x.block.err = 0)
    (h : sessionStep (commandMove w) x = .next y) :
    replyLoaded x = true ∧ execFdec { x.block with host := [], reply := .nothing, cmd := w } = .next y.block := by
  obtain ⟨hb, ht, -⟩ := sessionStep_access_next h
  rw [brokenDuty_commandMove hd] at hb
  have hrun : step (x.block.pending [.store32 0x700 w]) =
      execFdec { x.block with host := [], reply := .nothing, cmd := w } :=
    (step_cmd rfl).trans (issueCommand_of_command hd (.inl herr))
  exact ⟨(commandDuty_fdec.mp hb).2, hrun.symm.trans ht⟩

/-- Settles O49: FDEC accepts only a frame, and the loaded bytes are the reply's. -/
theorem carefulDecodeIsOfTheReply : Obligations.CarefulDecodeIsOfTheReply := by
  intro x y w reply hreceived hd herr h hv
  obtain ⟨hloaded, hexec⟩ := fdec_of_sessionStep hd herr h
  obtain ⟨hframe, hy⟩ := isFrame_of_execFdec_rxvalid hexec hv
  obtain ⟨-, -, hreply⟩ := (replyLoaded_iff x).mp hloaded
  obtain ⟨hlen, hbytes⟩ := hreply reply hreceived
  have hframe' : IsFrame x.block.params (rxbByte x.block) reply.length := hlen ▸ hframe
  have hge := hframe'.atLeast
  have hle := hframe'.atMost
  have hplen : (BitVec.ofNat 8 (x.block.rxlen.toNat - 3)).toNat = reply.length - 3 := by
    rw [← hlen, BitVec.toNat_ofNat, Nat.mod_eq_of_lt (by omega)]
  rw [hy]
  exact ⟨isFrame_congr hframe' fun k hk => hbytes k hk (by omega), (hbytes 0 (by omega) (by omega)).symm,
    (hbytes 1 (by omega) (by omega)).symm, (hbytes 2 (by omega) (by omega)).symm, hplen⟩

/-! ### One message at a time -/

/-- What can end an open message: reset, the end of the exchange of its own frame, or an FENC that finds it too long. -/
theorem message_ended_cases {m : HostMove} {x y : Session} (h : sessionStep m x = .next y) (hx : x.host.message ≠ .none)
    (hy : y.host.message = .none) :
    m = .access .resetInput ∨ (m = .endExchange ∧ x.host.message = .encoded ∧ x.host.exchangeOpen = true) ∨
      ∃ w dest, m = commandMove w ∧ decode w = .instr (.fenc dest) ∧ x.block.err = 0 ∧ y.block.err = 6 := by
  obtain ⟨hb, ⟨e, t, rfl, ht, rfl⟩ | ⟨rfl, rfl⟩ | ⟨reply, rfl, rfl⟩ | ⟨rfl, rfl⟩ | ⟨rfl, rfl⟩⟩ := sessionStep_cases h
  · by_cases he : e = .resetInput
    · exact .inl (by rw [he])
    · rcases accessed_message x.block t x.host he with hsame | ⟨w, i, rfl, hd, herr, hran⟩
      · exact absurd (hsame.symm.trans hy) hx
      · rcases ran_eq_none hx (hran.symm.trans hy) with ⟨⟨dest, rfl⟩, hlong⟩ | ⟨⟨k, rfl⟩, -⟩
        · exact .inr (.inr ⟨w, dest, rfl, hd, herr, hlong⟩)
        · rw [brokenDuty_commandMove hd] at hb
          obtain ⟨-, hnone, -⟩ := (commandDuty_scfg k).mp hb
          exact absurd hnone hx
  · exact absurd hy hx
  · exact absurd hy hx
  · exact .inr (.inl ⟨rfl, (exchanged_eq_none hx).mp hy, (brokenDuty_endExchange.mp hb).1⟩)
  · exact absurd hy hx

/-- A command that runs leaves the message as `MessagePhase.ran` says. -/
theorem message_of_command {x y : Session} {w : Word} {i : Instr} (h : sessionStep (commandMove w) x = .next y)
    (hd : decode w = .instr i) (herr : x.block.err = 0) : y.host.message = x.host.message.ran i y.block.err := by
  obtain ⟨-, -, hhost⟩ := sessionStep_access_next h
  rw [hhost]
  exact accessed_command y.block x.host hd herr

/-- Settles O50, by what one move does to the message. -/
theorem messageStaysOpenUntilItsExchangeEnds : Obligations.MessageStaysOpenUntilItsExchangeEnds := by
  intro m x y h command
  refine ⟨fun w i hm hd hx hy => ?_, message_ended_cases h⟩
  subst hm
  rw [message_of_command h hd hx, hy]
  constructor
  · rintro (rfl | ⟨n, rfl⟩) <;> rfl
  · rintro (⟨dest, rfl⟩ | ⟨p, rfl⟩) <;> rfl

/-- Settles O51, by induction on the session: no move of it ends the message, and while it is open no other may start. -/
theorem noOtherMessageBeforeItsExchangeEnds : Obligations.NoOtherMessageBeforeItsExchangeEnds := by
  intro ms x y w hx h hreset hend hlong hstart
  have hopen : y.host.message ≠ .none := by
    induction ms generalizing x with
    | nil => cases h; exact hx
    | cons m ms ih =>
      obtain ⟨z, hz, hrest⟩ := sessionRun_cons h
      refine ih z (fun hnone => ?_) hrest (fun hmem => hreset (List.mem_cons_of_mem m hmem))
        (fun before rest u hms hu => ?_) (fun before rest v dest u hms hv hu => ?_)
      · rcases message_ended_cases hz hx hnone with rfl | ⟨rfl, hencoded, -⟩ | ⟨v, dest, rfl, hd, -, herr⟩
        · exact hreset List.mem_cons_self
        · exact hend [] ms x rfl rfl hencoded
        · exact hlong [] ms v dest z rfl hd (sessionRun_cons_of_step hz) herr
      · exact hend (m :: before) rest u (by rw [hms]; rfl) ((sessionRun_cons_of_step hz).trans hu)
      · exact hlong (m :: before) rest v dest u (by rw [hms]; rfl) hv ((sessionRun_cons_of_step hz).trans hu)
  exact ⟨hopen, start_refused (.inl hopen) hstart⟩

end Sys2Proof.Machine
end
